-- ==== Sys2Proof/Word.lean ====
section
/-! DEFINITION. The word types of the pie codec core: a byte of memory and of the stream (spec/30_encoding.md R107),
a 32-bit register or command word (spec/10_state.md R32, spec/30_encoding.md R100). -/

namespace Sys2Proof

/-- One byte (spec/20_memory.md R80: every access of the engine is one byte). -/
abbrev Byte := BitVec 8

/-- A 32-bit register, command word or memory address (spec/00_scope.md R9). -/
abbrev Word := BitVec 32

end Sys2Proof
end

