-- ==== Sys2Proof/Syntax.lean ====
section
/-! DEFINITION. The command set: one constructor for each row of spec/opcode_table.json
(spec/30_encoding.md R102, R105). A command word holds no operand but its OPT and ALPHA bits (R103), and each of
these selects a row of its own, so only the illegal row carries a field: the word itself. -/

namespace Sys2Proof

/-- The commands. -/
inductive Instr where
  /-- ENCODE: encode a pixel buffer, KEEP_PAL = 0 (spec/44_rle_encoder.md R200). -/
  | encode
  /-- ENCODE.KEEP: encode with the pre-seeded palette, KEEP_PAL = 1 (spec/44_rle_encoder.md R213). -/
  | encodeKeep
  /-- DECODE: decode a stream, EXT_PAL = 0 (spec/45_rle_decoder.md R220). -/
  | decode
  /-- DECODE.XPAL: decode with the external palette, EXT_PAL = 1 (spec/45_rle_decoder.md R224). -/
  | decodeXpal
  /-- VALIDATE: check a stream's structure (spec/46_format_validator.md R242). -/
  | validate
  /-- HDR_PARSE: parse a header (spec/42_header_codec.md R172). -/
  | hdrParse
  /-- HDR_WRITE: write a header (spec/42_header_codec.md R175). -/
  | hdrWrite
  /-- PAL_CLEAR: empty the palette table (spec/43_palette_table.md R194). -/
  | palClear
  /-- PAL_FIND: find or insert a colour, stride 3 (spec/43_palette_table.md R195). -/
  | palFind
  /-- PAL_FIND.A: find or insert a colour, stride 4 (spec/43_palette_table.md R195). -/
  | palFindA
  /-- Any word of no other row (spec/30_encoding.md R104, spec/40_command_protocol.md R146). -/
  | illegal (w : Word)
deriving DecidableEq, Repr

end Sys2Proof
end

