-- ==== Sys2Proof/WellFormed.lean ====
section
/-! DEFINITION. Which terms of Instr are commands of the hardware. The ten legal commands have no operand field, so
each is well formed; the illegal row stands for the words spec/30_encoding.md R104 calls illegal and for no other. -/

namespace Sys2Proof

/-- spec/30_encoding.md R104, field by field: OP [7:0] outside the table, RSVD [31:10] not 0, OPT [8] set where
only ENCODE and DECODE define it, or ALPHA [9] set where only PAL_FIND defines it. -/
def illegalFields (w : Word) : Bool :=
  let op := (w.extractLsb' 0 8).toNat
  let opt := w.getLsbD 8
  let alpha := w.getLsbD 9
  let rsvd := w.extractLsb' 10 22
  !(1 ≤ op && op ≤ 7) || rsvd != 0 || (opt && !(op == 1 || op == 2)) || (alpha && op != 7)

/-- A command is well formed unless it is an illegal row carrying a legal word. -/
def Instr.wellFormed : Instr → Bool
  | .illegal w => illegalFields w
  | .encode => true
  | .encodeKeep => true
  | .decode => true
  | .decodeXpal => true
  | .validate => true
  | .hdrParse => true
  | .hdrWrite => true
  | .palClear => true
  | .palFind => true
  | .palFindA => true

end Sys2Proof
end

