-- ==== Sys2Proof/Decode.lean ====
section
/-! DEFINITION. The command decoder, total on every word, and after it the encoder, both written from the table of
spec/30_encoding.md R105 (the same ten rows as spec/opcode_table.json). -/

namespace Sys2Proof

/-- The ten rows of spec/30_encoding.md R105 as (match, mask, command). -/
def opcodeRows : List (Word × Word × Instr) :=
  [ (0x00000001#32, 0xFFFFFFFF#32, .encode),
    (0x00000101#32, 0xFFFFFFFF#32, .encodeKeep),
    (0x00000002#32, 0xFFFFFFFF#32, .decode),
    (0x00000102#32, 0xFFFFFFFF#32, .decodeXpal),
    (0x00000003#32, 0xFFFFFFFF#32, .validate),
    (0x00000004#32, 0xFFFFFFFF#32, .hdrParse),
    (0x00000005#32, 0xFFFFFFFF#32, .hdrWrite),
    (0x00000006#32, 0xFFFFFFFF#32, .palClear),
    (0x00000007#32, 0xFFFFFFFF#32, .palFind),
    (0x00000207#32, 0xFFFFFFFF#32, .palFindA) ]

/-- Whether word w selects a row: `(w & mask) == match` (spec/30_encoding.md R105). -/
def rowMatches (w : Word) (row : Word × Word × Instr) : Bool := (w &&& row.2.1) == row.1

/-- The command of a word: the row it matches, or the illegal row (spec/30_encoding.md R105,
spec/40_command_protocol.md R142). -/
def decode (w : Word) : Instr :=
  match opcodeRows.find? (rowMatches w) with
  | some row => row.2.2
  | none => .illegal w

/-- The command word of a command, assembled from its fields: OP in [7:0], OPT in [8], ALPHA in [9], RSVD = 0
(spec/30_encoding.md R101, R102). -/
def commandWord (op opt alpha : Nat) : Word := BitVec.ofNat 32 (op + 256 * opt + 512 * alpha)

/-- The encoder: the word the host writes to CMD to issue a command (spec/30_encoding.md R102). -/
def encode : Instr → Word
  | .encode => commandWord 1 0 0
  | .encodeKeep => commandWord 1 1 0
  | .decode => commandWord 2 0 0
  | .decodeXpal => commandWord 2 1 0
  | .validate => commandWord 3 0 0
  | .hdrParse => commandWord 4 0 0
  | .hdrWrite => commandWord 5 0 0
  | .palClear => commandWord 6 0 0
  | .palFind => commandWord 7 0 0
  | .palFindA => commandWord 7 0 1
  | .illegal w => w

/-- The instruction the decoder reads from an instruction of nbits bits numbered as spec/opcode_table.json numbers
them: one 32-bit word (spec/30_encoding.md R100), its bits above nbits 0. -/
def decodeTableWord (nbits w : Nat) : Option Instr :=
  if nbits ≤ 32 then some (decode (BitVec.ofNat 32 (w % 2 ^ nbits))) else none

end Sys2Proof
end

