-- ==== Sys2Proof/Config.lean ====
section
/-! DEFINITION. The parameters the spec leaves open (spec/00_scope.md R8, spec/20_memory.md R90) and the source of
every free value. None has a body: no proof can learn its value, so what is proved holds for every value. -/

namespace Sys2Proof.Config

/-- M0, byte 0 of PIE_MAGIC (spec/00_scope.md R8, OPEN). DESIGN CHOICE, safe: log 1. -/
opaque magic0 : Byte

/-- M1, byte 1 of PIE_MAGIC (spec/00_scope.md R8, OPEN). DESIGN CHOICE, safe: log 1. -/
opaque magic1 : Byte

/-- M2, byte 2 of PIE_MAGIC (spec/00_scope.md R8, OPEN). DESIGN CHOICE, safe: log 1. -/
opaque magic2 : Byte

/-- VV, the value of PIE_VERSION (spec/00_scope.md R8, OPEN). DESIGN CHOICE, safe: log 1. -/
opaque pieVersion : Byte

/-- REG_BASE, where the host sees the register block (spec/20_memory.md R90, a platform parameter).
DESIGN CHOICE, safe: log 1. -/
opaque regBase : Word

/-- The free values ("a draw" in the spec's words): draw number n. The machine counts the draws it has used in
`State.draws`, so that no draw is used twice. DESIGN CHOICE, safe: log 2. -/
opaque draw : Nat → Word

/-- PIE_MAGIC, the three bytes M0 M1 M2 at offsets 0..2 of a stream (spec/30_encoding.md R109). -/
abbrev pieMagic : List Byte := [magic0, magic1, magic2]

end Sys2Proof.Config
end

