-- ==== Sys2Proof/Machine/State.lean ====
section
/-! DEFINITION. The state of the engine, its memory and the host's pending transactions, and the state after reset
(spec/10_state.md, spec/70_reset_and_hazards.md R280). -/

namespace Sys2Proof.Machine

/-- The memory behind the master port (spec/10_state.md R55): (address, byte) cells, addresses strictly rising, no
cell holding what an unlisted address reads as. -/
abbrev Memory := List Host.Cell

/-- What a byte of memory that nothing has written reads as. DESIGN CHOICE, unsafe: log 4. -/
def unlistedByte : Byte := 0

/-- The canonical form of a memory: addresses strictly rising and inside the 2^32 bytes of
spec/10_state.md R55, no cell equal to what an unlisted address reads as. -/
abbrev Memory.wf (m : Memory) : Prop :=
  m.Pairwise (fun x y => x.1 < y.1) ∧ ∀ c ∈ m, c.1 < 4294967296 ∧ c.2 ≠ unlistedByte

/-- The width of a register-port access (spec/10_state.md R32). -/
inductive PortWidth where
  /-- An 8-bit access, outside the contract. -/
  | byte
  /-- A 16-bit access, outside the contract. -/
  | half
  /-- A 32-bit access, the only width of the port. -/
  | word
deriving DecidableEq, Repr

/-- What the host and the other agents do, one transaction at a time (spec/40_command_protocol.md R140,
spec/20_memory.md R92, R93, spec/70_reset_and_hazards.md R280). -/
inductive HostTxn where
  /-- `WR`: a write of v at an offset of the 2 KiB register port (spec/30_encoding.md R106). -/
  | regWrite (width : PortWidth) (off : BitVec 11) (v : Word)
  /-- `RD`: a read at an offset of the register port. -/
  | regRead (width : PortWidth) (off : BitVec 11)
  /-- A write of one byte of memory by the host or another agent. -/
  | memWrite (a : Word) (b : Byte)
  /-- A read of one byte of memory by the host or another agent. -/
  | memRead (a : Word)
  /-- The reset input is asserted. -/
  | reset
deriving DecidableEq, Repr

/-- The operand values a command latches at issue (spec/10_state.md R52, spec/40_command_protocol.md R141). -/
structure Operands where
  srcAddr : Word
  srcLen : Word
  dstAddr : Word
  dstCap : Word
  xpalAddr : Word
  xpalLen : BitVec 9
  dim : Word
  flags : Word
  pairCount : Word
  palColor : Word
deriving DecidableEq, Repr

/-- The engine's internal state (spec/10_state.md R51). Counters are numbers; that they fit the widths of R51 is
spec/40_command_protocol.md R149 (log 18). -/
structure Engine where
  /-- The latched operands. -/
  ops : Operands
  /-- run_color: the colour of the encoder's current run. -/
  runColor : Word
  /-- run_len: the length of the encoder's current run. -/
  runLen : Nat
  /-- i: the next pixel the encoder compares. -/
  i : Nat
  /-- p: the pairs the encoder has written. -/
  p : Nat
  /-- wr.base (spec/41_buffer_writer.md R160). -/
  wrBase : Word
  /-- wr.cap (spec/41_buffer_writer.md R160). -/
  wrCap : Nat
  /-- The bytes appended to the destination and not yet drained to memory; their number is wr.cursor (log 19). -/
  out : List Byte
  /-- k: the next pair the decoder replays. -/
  k : Nat
  /-- cur: the pixels the decoder has written. -/
  cur : Nat
  /-- pal_base: where the decoder's palette slice begins. -/
  palBase : Word
  /-- PL: the number of entries of the decoder's palette slice. -/
  pl : Nat
  /-- stride_out (spec/40_command_protocol.md R141): 3 or 4, or 0 where the command has fixed none. -/
  strideOut : Nat
  /-- The model's own: host transactions to be served before the running command completes (log 9). -/
  busyLeft : Nat
  /-- The model's own: another agent has written a buffer of the running command (log 16). -/
  disturbed : Bool
deriving DecidableEq, Repr

/-- The machine. -/
structure State where
  /-- CMD (spec/10_state.md R34). -/
  cmd : Word
  /-- STATUS (spec/10_state.md R35). -/
  status : Word
  /-- SRC_ADDR (spec/10_state.md R36). -/
  srcAddr : Word
  /-- SRC_LEN (spec/10_state.md R37). -/
  srcLen : Word
  /-- DST_ADDR (spec/10_state.md R38). -/
  dstAddr : Word
  /-- DST_CAP (spec/10_state.md R39). -/
  dstCap : Word
  /-- XPAL_ADDR (spec/10_state.md R40). -/
  xpalAddr : Word
  /-- XPAL_LEN (spec/10_state.md R41). -/
  xpalLen : BitVec 9
  /-- DIM (spec/10_state.md R42). -/
  dim : Word
  /-- FLAGS (spec/10_state.md R43). -/
  flags : Word
  /-- PAIR_COUNT (spec/10_state.md R44). -/
  pairCount : Word
  /-- RESULT_LO (spec/10_state.md R45). -/
  resultLo : Word
  /-- RESULT_HI (spec/10_state.md R45). -/
  resultHi : Word
  /-- PAL_LEN, 0..256 (spec/10_state.md R46). -/
  palLen : Fin 257
  /-- PAL_COLOR (spec/10_state.md R47). -/
  palColor : Word
  /-- WR_CURSOR (spec/10_state.md R49). -/
  wrCursor : Word
  /-- PAL[0..255] (spec/10_state.md R50). -/
  pal : Vector Word 256
  /-- The internal state (spec/10_state.md R51). -/
  eng : Engine
  /-- The memory behind the master port (spec/10_state.md R55). -/
  mem : Memory
  /-- The model's own: the transactions still to come, oldest first (log 6). -/
  host : List HostTxn
  /-- The model's own: what the last read of the host returned (log 6). -/
  hostData : Word
  /-- The model's own: the number of the next free value (log 2). -/
  draws : Nat
deriving DecidableEq, Repr

/-- No behaviour of this hardware is a fault of the machine: an error completes its command
(spec/60_exceptions.md R250), every memory access completes (spec/20_memory.md R80) and nothing is stuck
(spec/93_implementation_defined.md). Nobody raises a fault; there is none to be safe or unsafe. -/
inductive Fault where
deriving DecidableEq, Repr

/-- Why a step gives no meaning. -/
inductive Refusal where
  /-- Raised by `exec` for an instruction that has no meaning yet (none in this model). Safe. -/
  | notModelled (mnemonic : String)
  /-- Raised by a sub-word or misaligned access of the register port: "outside the contract: its effect is
  unspecified" (spec/10_state.md R32, spec/93_implementation_defined.md X5 `refuse`). Unsafe for a host that makes
  such an access and goes on: log 15. -/
  | portAccessOutsideContract
deriving DecidableEq, Repr

/-- Latched operands of a dead engine (spec/10_state.md R56). DESIGN CHOICE: log 5. -/
def Operands.idle : Operands where
  srcAddr := 0
  srcLen := 0
  dstAddr := 0
  dstCap := 0
  xpalAddr := 0
  xpalLen := 0
  dim := 0
  flags := 0
  pairCount := 0
  palColor := 0

/-- The internal state of an engine that runs no command: dead (spec/10_state.md R51, R56). DESIGN CHOICE: log 5. -/
def Engine.idle : Engine where
  ops := Operands.idle
  runColor := 0
  runLen := 0
  i := 0
  p := 0
  wrBase := 0
  wrCap := 0
  out := []
  k := 0
  cur := 0
  palBase := 0
  pl := 0
  strideOut := 0
  busyLeft := 0
  disturbed := false

/-- The palette RAM after a reset whose first free value is number d: each entry a draw of its own
(spec/10_state.md R56, spec/70_reset_and_hazards.md R280 item 3). DESIGN CHOICE: log 3. -/
def palDraws (d : Nat) : Vector Word 256 := Vector.ofFn fun j => Config.draw (d + j.val)

/-- The machine right after power-on reset (spec/10_state.md R33, R56, spec/70_reset_and_hazards.md R280): every
register 0, the palette empty and its RAM unspecified, the engine idle, no host transaction pending. -/
def State.reset : State where
  cmd := 0
  status := 0
  srcAddr := 0
  srcLen := 0
  dstAddr := 0
  dstCap := 0
  xpalAddr := 0
  xpalLen := 0
  dim := 0
  flags := 0
  pairCount := 0
  resultLo := 0
  resultHi := 0
  palLen := 0
  palColor := 0
  wrCursor := 0
  pal := palDraws 0
  eng := Engine.idle
  mem := []
  host := []
  hostData := 0
  draws := 256

end Sys2Proof.Machine
end

