-- ==== Sys2Proof/Machine/Flags.lean ====
section
/-! DEFINITION. Every flag and status computation of the spec: the header flags (spec/10_state.md R43,
spec/30_encoding.md R111, R114), the STATUS word (spec/10_state.md R35, spec/40_command_protocol.md R144) and the
error codes (spec/30_encoding.md R120, spec/60_exceptions.md R251). -/

namespace Sys2Proof.Machine

/-- The errors a command can raise (spec/30_encoding.md R120). -/
inductive ErrCode where
  | invalidMagic
  | unsupportedVersion
  | invalidDimensions
  | invalidFlags
  | tooManyColors
  | outputTooLarge
  | destinationTooSmall
  | truncatedStream
  | invalidPairCount
  | corruptStream
  | illegalCommand
deriving DecidableEq, Repr

/-- The number STATUS.ERRCODE reports (spec/30_encoding.md R120). -/
def ErrCode.code : ErrCode → Nat
  | .invalidMagic => 1
  | .unsupportedVersion => 2
  | .invalidDimensions => 3
  | .invalidFlags => 4
  | .tooManyColors => 5
  | .outputTooLarge => 6
  | .destinationTooSmall => 7
  | .truncatedStream => 8
  | .invalidPairCount => 9
  | .corruptStream => 10
  | .illegalCommand => 11

/-- Which errors each command raises (spec/60_exceptions.md R251). -/
def raisable : Instr → List ErrCode
  | .encode => [.invalidFlags, .invalidDimensions, .tooManyColors, .outputTooLarge]
  | .encodeKeep => [.invalidFlags, .invalidDimensions, .tooManyColors, .outputTooLarge]
  | .decode => [.truncatedStream, .invalidMagic, .unsupportedVersion, .invalidDimensions, .invalidFlags,
      .invalidPairCount, .destinationTooSmall, .corruptStream]
  | .decodeXpal => [.truncatedStream, .invalidMagic, .unsupportedVersion, .invalidDimensions, .invalidFlags,
      .invalidPairCount, .destinationTooSmall, .corruptStream]
  | .validate => [.truncatedStream, .invalidMagic, .unsupportedVersion, .invalidDimensions, .invalidFlags,
      .invalidPairCount]
  | .hdrParse => [.truncatedStream, .invalidMagic, .unsupportedVersion, .invalidDimensions]
  | .hdrWrite => [.invalidFlags, .outputTooLarge]
  | .palClear => []
  | .palFind => [.tooManyColors]
  | .palFindA => [.tooManyColors]
  | .illegal _ => [.illegalCommand]

/-- The codes a command can complete with: success and the errors it raises. -/
def completionCodes (i : Instr) : List Nat := 0 :: (raisable i).map ErrCode.code

/-- FLAGS.EMBED, bit 0: the palette is embedded (spec/10_state.md R43). -/
def embedBit (f : Word) : Bool := f.getLsbD 0

/-- FLAGS.ALPHA, bit 1: a pixel has four bytes (spec/10_state.md R43). -/
def alphaBit (f : Word) : Bool := f.getLsbD 1

/-- FLAGS.RSVD, bits 31..2 (spec/10_state.md R43). -/
def reservedFlags (f : Word) : BitVec 30 := f.extractLsb' 2 30

/-- The stride s = 3 + F[1] (spec/30_encoding.md R114, spec/90_conflicts.md C1). -/
def strideOf (f : Word) : Nat := 3 + (alphaBit f).toNat

/-- STATUS.BUSY, bit 0 (spec/10_state.md R35). -/
def statusBusy (w : Word) : Bool := w.getLsbD 0

/-- STATUS.DONE, bit 1 (spec/10_state.md R35). -/
def statusDone (w : Word) : Bool := w.getLsbD 1

/-- STATUS.ERRCODE, bits 15..8 (spec/10_state.md R35). -/
def statusErr (w : Word) : BitVec 8 := w.extractLsb' 8 8

/-- STATUS.STRIDE, bits 19..16 (spec/10_state.md R35). -/
def statusStride (w : Word) : BitVec 4 := w.extractLsb' 16 4

/-- STATUS at issue: BUSY = 1, all else 0 (spec/40_command_protocol.md R141). -/
def statusIssued : Word := 0x00000001#32

/-- STATUS at completion: `zext_32(stride_out) << 16 | zext_32(code) << 8 | 0x2` (spec/40_command_protocol.md R144). -/
def statusWord (stride code : Nat) : Word :=
  BitVec.ofNat 32 stride <<< 16 ||| BitVec.ofNat 32 code <<< 8 ||| 0x00000002#32

end Sys2Proof.Machine
end

