-- ==== Sys2Proof/Machine/Operands.lean ====
section
/-! DEFINITION. The operand forms: byte sequences and their numbers (spec/00_scope.md R11), the fields of DIM
(spec/10_state.md R42), colours (R47, R50), the 16-byte header (spec/30_encoding.md R108), the registers of the port
by offset (spec/10_state.md R33), the operands latched at issue (R52) and the buffers they name. -/

namespace Sys2Proof.Machine

/-- `LE16` (spec/00_scope.md R11). -/
def le16 (v : BitVec 16) : List Byte := [v.extractLsb' 0 8, v.extractLsb' 8 8]

/-- `LE32` (spec/00_scope.md R11). -/
def le32 (v : Word) : List Byte :=
  [v.extractLsb' 0 8, v.extractLsb' 8 8, v.extractLsb' 16 8, v.extractLsb' 24 8]

/-- `fromLE` (spec/00_scope.md R11). -/
def fromLE : List Byte → Nat
  | [] => 0
  | b :: bs => b.toNat + 256 * fromLE bs

/-- DIM.WIDTH (spec/10_state.md R42). -/
def dimWidth (d : Word) : BitVec 16 := d.extractLsb' 0 16

/-- DIM.HEIGHT (spec/10_state.md R42). -/
def dimHeight (d : Word) : BitVec 16 := d.extractLsb' 16 16

/-- `zext_32(width) | (zext_32(height) << 16)` (spec/10_state.md R42). -/
def dimWord (w h : BitVec 16) : Word := w.setWidth 32 ||| h.setWidth 32 <<< 16

/-- N = W × H, exact (spec/00_scope.md R9). -/
def pixelCount (w h : BitVec 16) : Nat := w.toNat * h.toNat

/-- The colour whose bytes are bs, B0 first; the bytes it does not have are 0x00 (spec/10_state.md R47, R50,
spec/43_palette_table.md R192). -/
def colorOfBytes (bs : List Byte) : Word := BitVec.ofNat 32 (fromLE bs)

/-- The first st bytes of a colour (spec/00_scope.md R12: `PAL[j][0..s-1]`). -/
def colorBytes (st : Nat) (c : Word) : List Byte := (le32 c).take st

/-- The fields of a header (spec/30_encoding.md R108). -/
structure Header where
  magic : List Byte
  version : Byte
  flags : Word
  width : BitVec 16
  height : BitVec 16
  pairCount : Word
deriving DecidableEq, Repr

/-- The header in 16 bytes (spec/42_header_codec.md R170). -/
def headerOfBytes (hb : List Byte) : Header where
  magic := hb.take 3
  version := hb.getD 3 0
  flags := BitVec.ofNat 32 (fromLE ((hb.drop 4).take 4))
  width := BitVec.ofNat 16 (fromLE ((hb.drop 8).take 2))
  height := BitVec.ofNat 16 (fromLE ((hb.drop 10).take 2))
  pairCount := BitVec.ofNat 32 (fromLE ((hb.drop 12).take 4))

/-- `SerializeHeader(W, H, F, P)` (spec/42_header_codec.md R174). -/
def serializeHeader (w h : BitVec 16) (f p : Word) : List Byte :=
  Config.pieMagic ++ [Config.pieVersion] ++ le32 f ++ le16 w ++ le16 h ++ le32 p

/-- The required decoded size W × H × s, exact (spec/42_header_codec.md R172, R173). -/
def decodedSize (h : Header) : Nat := pixelCount h.width h.height * strideOf h.flags

/-- A register of the port (spec/10_state.md R33, R50). -/
inductive Reg where
  | cmd
  | status
  | srcAddr
  | srcLen
  | dstAddr
  | dstCap
  | xpalAddr
  | xpalLen
  | dim
  | flags
  | pairCount
  | resultLo
  | resultHi
  | palLen
  | palColor
  | wrCursor
  | pal (j : Fin 256)
deriving DecidableEq, Repr

/-- The register at an offset, or none for an offset spec/10_state.md R33 does not list. -/
def regAt (off : BitVec 11) : Option Reg :=
  match off.toNat with
  | 0x00 => some .cmd
  | 0x04 => some .status
  | 0x08 => some .srcAddr
  | 0x0C => some .srcLen
  | 0x10 => some .dstAddr
  | 0x14 => some .dstCap
  | 0x18 => some .xpalAddr
  | 0x1C => some .xpalLen
  | 0x20 => some .dim
  | 0x24 => some .flags
  | 0x28 => some .pairCount
  | 0x2C => some .resultLo
  | 0x30 => some .resultHi
  | 0x34 => some .palLen
  | 0x38 => some .palColor
  | 0x3C => some .wrCursor
  | n => if 0x400 ≤ n ∧ n % 4 = 0 then some (.pal (Fin.ofNat 256 ((n - 0x400) / 4))) else none

/-- Where the host's bus shows an offset of the register port: REG_BASE + offset (spec/20_memory.md R90). -/
def portAddress (off : BitVec 11) : Word := Config.regBase + off.setWidth 32

/-- A register-port access inside the contract: 32 bits wide and aligned (spec/10_state.md R32). -/
def portAccessOk (width : PortWidth) (off : BitVec 11) : Bool :=
  width == .word && off.toNat % 4 == 0

/-- PAL_LEN as stored: at most 256 (spec/10_state.md R46). -/
def palLenOf (n : Nat) : Fin 257 := ⟨min n 256, by omega⟩

/-- PAL[j] (spec/10_state.md R50). -/
def State.palEntry (s : State) (j : Nat) : Word := (s.pal[j]?).getD 0

/-- The palette: PAL[0..PAL_LEN-1] (spec/43_palette_table.md R190). -/
def State.palette (s : State) : List Word := (List.range s.palLen.val).map s.palEntry

/-- The operand values a command issued in s latches (spec/40_command_protocol.md R141). -/
def latchOperands (s : State) : Operands where
  srcAddr := s.srcAddr
  srcLen := s.srcLen
  dstAddr := s.dstAddr
  dstCap := s.dstCap
  xpalAddr := s.xpalAddr
  xpalLen := s.xpalLen
  dim := s.dim
  flags := s.flags
  pairCount := s.pairCount
  palColor := s.palColor

/-- N of ENCODE: the pixels DIM names (spec/44_rle_encoder.md R200). -/
def Operands.pixels (o : Operands) : Nat := pixelCount (dimWidth o.dim) (dimHeight o.dim)

/-- The entries of the external palette DECODE uses: min(XPAL_LEN, 256) (spec/45_rle_decoder.md R224). -/
def Operands.xpalEntries (o : Operands) : Nat := min o.xpalLen.toNat 256

/-- Whether DECODE takes the external palette (spec/45_rle_decoder.md R224). -/
def usesExternal (ext : Bool) (f : Word) : Bool := ext || !embedBit f

/-- `SelectPalette` of DECODE: the base and the length of the palette slice (spec/45_rle_decoder.md R224). -/
def selectPalette (ext : Bool) (o : Operands) (h : Header) : Word × Nat :=
  let st := strideOf h.flags
  if usesExternal ext h.flags then (o.xpalAddr, o.xpalEntries)
  else
    let avail := o.srcLen.toNat - 16 - 2 * h.pairCount.toNat
    (o.srcAddr + BitVec.ofNat 32 (16 + 2 * h.pairCount.toNat), min 256 (avail / st))

/-- A buffer: len bytes from base on. -/
structure Span where
  base : Word
  len : Nat
deriving DecidableEq, Repr

/-- Whether an address lies in a buffer, addresses modulo 2^32 (spec/20_memory.md R91). -/
def Span.covers (sp : Span) (a : Word) : Bool := decide ((a - sp.base).toNat < sp.len)

/-- Whether a buffer wraps past 2^32 - 1 (spec/20_memory.md R91, spec/93_implementation_defined.md X15). -/
def Span.wraps (sp : Span) : Bool := decide (4294967296 < sp.base.toNat + sp.len)

/-- Whether two buffers that do not wrap share a byte (spec/20_memory.md R95). -/
def Span.meets (x y : Span) : Bool :=
  decide (0 < x.len ∧ 0 < y.len ∧ x.base.toNat < y.base.toNat + y.len ∧ y.base.toNat < x.base.toNat + x.len)

/-- The source buffer of a command: N×s bytes for ENCODE (spec/70_reset_and_hazards.md R284), SRC_LEN bytes for
DECODE, VALIDATE and HDR_PARSE (R285). -/
def sourceSpan (i : Instr) (o : Operands) : Span :=
  match i with
  | .encode => ⟨o.srcAddr, o.pixels * strideOf o.flags⟩
  | .encodeKeep => ⟨o.srcAddr, o.pixels * strideOf o.flags⟩
  | .decode => ⟨o.srcAddr, o.srcLen.toNat⟩
  | .decodeXpal => ⟨o.srcAddr, o.srcLen.toNat⟩
  | .validate => ⟨o.srcAddr, o.srcLen.toNat⟩
  | .hdrParse => ⟨o.srcAddr, o.srcLen.toNat⟩
  | .hdrWrite => ⟨o.srcAddr, 0⟩
  | .palClear => ⟨o.srcAddr, 0⟩
  | .palFind => ⟨o.srcAddr, 0⟩
  | .palFindA => ⟨o.srcAddr, 0⟩
  | .illegal _ => ⟨o.srcAddr, 0⟩

/-- The destination buffer of a command: DST_CAP bytes for the commands that write memory (spec/20_memory.md R95). -/
def destSpan (i : Instr) (o : Operands) : Span :=
  match i with
  | .encode => ⟨o.dstAddr, o.dstCap.toNat⟩
  | .encodeKeep => ⟨o.dstAddr, o.dstCap.toNat⟩
  | .decode => ⟨o.dstAddr, o.dstCap.toNat⟩
  | .decodeXpal => ⟨o.dstAddr, o.dstCap.toNat⟩
  | .validate => ⟨o.dstAddr, 0⟩
  | .hdrParse => ⟨o.dstAddr, 0⟩
  | .hdrWrite => ⟨o.dstAddr, o.dstCap.toNat⟩
  | .palClear => ⟨o.dstAddr, 0⟩
  | .palFind => ⟨o.dstAddr, 0⟩
  | .palFindA => ⟨o.dstAddr, 0⟩
  | .illegal _ => ⟨o.dstAddr, 0⟩

/-- The external palette of a DECODE of a stream with flags f: XPAL_LEN entries of s bytes, where it is used
(spec/20_memory.md R95, spec/10_state.md R40). -/
def externalSpan (ext : Bool) (o : Operands) (f : Word) : Span :=
  ⟨o.xpalAddr, if usesExternal ext f then o.xpalLen.toNat * strideOf f else 0⟩

/-- The external palette of a command, given the flags of the stream it reads. -/
def xpalSpan (i : Instr) (o : Operands) (f : Word) : Span :=
  match i with
  | .decode => externalSpan false o f
  | .decodeXpal => externalSpan true o f
  | .encode => ⟨o.xpalAddr, 0⟩
  | .encodeKeep => ⟨o.xpalAddr, 0⟩
  | .validate => ⟨o.xpalAddr, 0⟩
  | .hdrParse => ⟨o.xpalAddr, 0⟩
  | .hdrWrite => ⟨o.xpalAddr, 0⟩
  | .palClear => ⟨o.xpalAddr, 0⟩
  | .palFind => ⟨o.xpalAddr, 0⟩
  | .palFindA => ⟨o.xpalAddr, 0⟩
  | .illegal _ => ⟨o.xpalAddr, 0⟩

end Sys2Proof.Machine
end

