-- ==== Sys2Proof/Machine/Ops.lean ====
section
/-! DEFINITION. The named operations: memory (spec/00_scope.md R13), free values, the buffer writer
(spec/41_buffer_writer.md), find-or-insert (spec/43_palette_table.md R191), issue, completion and the raising of an
error (spec/40_command_protocol.md R141, R144, spec/60_exceptions.md R253), reset (spec/70_reset_and_hazards.md R280),
and the transactions of the host (spec/10_state.md R32, R54). -/

namespace Sys2Proof.Machine

/-! ### Memory -/

/-- The byte a memory holds at address number a. -/
def Memory.lookup : Memory → Nat → Byte
  | [], _ => unlistedByte
  | (k, b) :: t, a => if k = a then b else Memory.lookup t a

/-- Store v at address number a, keeping the canonical form. -/
def Memory.store (a : Nat) (v : Byte) : Memory → Memory
  | [] => if v = unlistedByte then [] else [(a, v)]
  | (k, b) :: t =>
    if a < k then (if v = unlistedByte then (k, b) :: t else (a, v) :: (k, b) :: t)
    else if a = k then (if v = unlistedByte then t else (a, v) :: t)
    else (k, b) :: Memory.store a v t

/-- A 1-byte read of the master port (spec/20_memory.md R80). -/
def Memory.readByte (m : Memory) (a : Word) : Byte := m.lookup a.toNat

/-- A 1-byte write of the master port (spec/20_memory.md R80). -/
def Memory.writeByte (m : Memory) (a : Word) (v : Byte) : Memory := m.store a.toNat v

/-- `MemRead(a, n)` (spec/00_scope.md R13): addresses wrap modulo 2^32. -/
def Memory.readBytes (m : Memory) (a : Word) (n : Nat) : List Byte :=
  (List.range n).map fun i => m.readByte (a + BitVec.ofNat 32 i)

/-- `MemWrite(a, len(bs), bs)` (spec/00_scope.md R13), in increasing address order. -/
def Memory.writeBytes (m : Memory) (a : Word) : List Byte → Memory
  | [] => m
  | b :: bs => Memory.writeBytes (m.writeByte a b) (a + 1) bs

/-- The free byte number d. -/
def drawByte (d : Nat) : Byte := (Config.draw d).setWidth 8

/-- Give each of the n bytes from a on a free value, the first being number d (spec/20_memory.md R89: "a model gives
each of them an arbitrary value, a draw"). -/
def Memory.havoc (m : Memory) (a : Word) : Nat → Nat → Memory
  | 0, _ => m
  | n + 1, d => Memory.havoc (m.writeByte a (drawByte d)) (a + 1) n (d + 1)

/-- The header at SRC_ADDR: `hb <- MemRead(SRC_ADDR, 16)` and its fields (spec/42_header_codec.md R170). -/
def readHeader (o : Operands) (m : Memory) : Header := headerOfBytes (m.readBytes o.srcAddr 16)

/-- The colour in the st bytes at address a (spec/20_memory.md R82). -/
def readColor (m : Memory) (a : Word) (st : Nat) : Word := colorOfBytes (m.readBytes a st)

/-! ### How a command body ends -/

/-- A command body either reaches its end or raises an error (spec/00_scope.md R14). -/
inductive Flow where
  | ok (s : State)
  | raise (e : ErrCode) (s : State)

/-- Go on with f unless an error was raised: `raise E` ends the running command at once (spec/00_scope.md R14). -/
def Flow.andThen (x : Flow) (f : State → Flow) : Flow :=
  match x with
  | .ok s => f s
  | .raise e s => .raise e s

/-! ### The byte buffer writer (spec/41_buffer_writer.md) -/

/-- wr.cursor: the bytes appended so far (spec/41_buffer_writer.md R160, log 19). -/
def Engine.cursor (e : Engine) : Nat := e.out.length

/-- `WriterInit()` (spec/41_buffer_writer.md R160). -/
def writerInit (s : State) : State :=
  { s with eng := { s.eng with wrBase := s.eng.ops.dstAddr, wrCap := s.eng.ops.dstCap.toNat, out := [] } }

/-- `WriterPut(b)` (spec/41_buffer_writer.md R161): all of b or none of it. -/
def writerPut (b : List Byte) (s : State) : Flow :=
  if s.eng.wrCap < s.eng.cursor + b.length then .raise .outputTooLarge s
  else .ok { s with eng := { s.eng with out := s.eng.out ++ b } }

/-- `WriterPatch(off, b)` (spec/41_buffer_writer.md R162). -/
def writerPatch (off : Nat) (b : List Byte) (s : State) : State :=
  { s with eng := { s.eng with out := s.eng.out.take off ++ b ++ s.eng.out.drop (off + b.length) } }

/-! ### The palette table (spec/43_palette_table.md) -/

/-- The lowest index in the palette whose entry has the first st bytes of c (spec/43_palette_table.md R191). -/
def palFindIndex (st : Nat) (c : Word) (s : State) : Option Nat :=
  (List.range s.palLen.val).find? fun j => colorBytes st (s.palEntry j) == colorBytes st c

/-- `FindOrInsert(c, s)` (spec/43_palette_table.md R191, R192): the index and the state after it; none where it
raises TooManyColors. -/
def findOrInsert (st : Nat) (c : Word) (s : State) : Option (Nat × State) :=
  match palFindIndex st c s with
  | some j => some (j, s)
  | none =>
    let n := s.palLen.val
    if n = 256 then none
    else some (n, { s with
      pal := s.pal.setIfInBounds n (colorOfBytes (colorBytes st c))
      palLen := palLenOf (n + 1) })

/-! ### Issue, completion, error (spec/40_command_protocol.md, spec/60_exceptions.md) -/

/-- The state after the issue of word w (spec/40_command_protocol.md R141): CMD keeps the word, the operands are
latched, STATUS shows BUSY, the result registers are 0, the internal state starts afresh (spec/10_state.md R51).
The command completes after at most `busy` transactions of the host. -/
def issueFor (busy : Nat) (w : Word) (s : State) : State :=
  { s with
    cmd := w
    status := statusIssued
    resultLo := 0
    resultHi := 0
    wrCursor := 0
    eng := { Engine.idle with ops := latchOperands s, busyLeft := busy } }

/-- Issue of word w, busy for a free number of transactions (spec/70_reset_and_hazards.md R290, log 9), for none where
w is illegal: it "completes at once" (spec/30_encoding.md R104). -/
def issue (w : Word) (s : State) : State :=
  { issueFor (if illegalFields w then 0 else (Config.draw s.draws).toNat) w s with draws := s.draws + 1 }

/-- What a command body starts from: the latched operands and nothing else of the internal state
(spec/10_state.md R51). -/
def startCommand (s : State) : State := { s with eng := { Engine.idle with ops := s.eng.ops } }

/-- Completion without error (spec/40_command_protocol.md R144): the appended bytes are in memory
(spec/20_memory.md R93, R96), WR_CURSOR shows the cursor, STATUS shows DONE and the stride. -/
def completeOk (s : State) : State :=
  { s with
    status := statusWord s.eng.strideOut 0
    wrCursor := BitVec.ofNat 32 s.eng.cursor
    mem := s.mem.writeBytes s.eng.ops.dstAddr s.eng.out
    eng := Engine.idle }

/-- Taking an error: the end state of spec/60_exceptions.md R253. STATUS reports the code and the stride fixed so far
(item 1), RESULT is 0 (item 2), WR_CURSOR is the cursor at the raise (item 3), DIM, FLAGS, PAIR_COUNT, PAL_LEN and
PAL stay as they stood at the raise (items 4 and 5), and where the command had written, each byte of its destination
is free (item 6, log 11). There is no way back to model: spec/60_exceptions.md R256. -/
def raiseError (e : ErrCode) (s : State) : State :=
  { s with
    status := statusWord s.eng.strideOut e.code
    resultLo := 0
    resultHi := 0
    wrCursor := BitVec.ofNat 32 s.eng.cursor
    mem := if s.eng.cursor = 0 then s.mem
      else s.mem.havoc s.eng.ops.dstAddr s.eng.ops.dstCap.toNat s.draws
    draws := if s.eng.cursor = 0 then s.draws else s.draws + s.eng.ops.dstCap.toNat
    eng := Engine.idle }

/-- How a body's end completes its command. -/
def finish : Flow → State
  | .ok s => completeOk s
  | .raise e s => raiseError e s

/-- Run a command body from the latched operands to completion (spec/40_command_protocol.md R141, R142, R144). -/
def runCommand (body : State → Flow) (s : State) : State := finish (body (startCommand s))

/-- RESULT_LO and RESULT_HI of a 64-bit result (spec/10_state.md R45). -/
def setResult (n : Nat) (s : State) : State :=
  { s with resultLo := BitVec.ofNat 32 n, resultHi := BitVec.ofNat 32 (n / 4294967296) }

/-- The element of a list that a free value picks. -/
def pick (l : List Nat) (d : Nat) : Nat := l.getD ((Config.draw d).toNat % l.length) 0

/-- Completion of a command whose host broke a duty of spec/20_memory.md R91, R92 or R95 ("its effect is
unspecified"): the command completes (spec/40_command_protocol.md R145) and every result it may write is free, inside
the bounds the spec sets for every command (log 13). `hdr`: it may load DIM, FLAGS and PAIR_COUNT; `tbl`: it may write
PAIR_COUNT and the palette table; `wr`: it may write its destination and WR_CURSOR. -/
def completeUnspecified (i : Instr) (hdr tbl wr : Bool) (s : State) : State :=
  let d := s.draws
  let cap := s.eng.ops.dstCap.toNat
  { s with
    status := statusWord (pick [0, 3, 4] d) (pick (completionCodes i) (d + 1))
    resultLo := Config.draw (d + 2)
    resultHi := Config.draw (d + 3)
    wrCursor := if wr then BitVec.ofNat 32 ((Config.draw (d + 4)).toNat % (cap + 1)) else 0
    dim := if hdr then Config.draw (d + 5) else s.dim
    flags := if hdr then Config.draw (d + 6) else s.flags
    pairCount := if hdr || tbl then Config.draw (d + 7) else s.pairCount
    palLen := if tbl then palLenOf ((Config.draw (d + 8)).toNat % 257) else s.palLen
    pal := if tbl then palDraws (d + 9) else s.pal
    mem := if wr then s.mem.havoc s.eng.ops.dstAddr cap (d + 265) else s.mem
    draws := d + 265 + cap
    eng := Engine.idle }

/-- Run a command body, unless a host duty is broken for the buffers it uses. -/
def runGuarded (broken : Bool) (i : Instr) (hdr tbl wr : Bool) (body : State → Flow) (s : State) : State :=
  if broken then completeUnspecified i hdr tbl wr s else runCommand body s

/-! ### Reset -/

/-- The reset event (spec/70_reset_and_hazards.md R280): every register takes its reset value, PAL is fresh draws, a
running command is abandoned and leaves the destination range of its latched operands free (log 12). The host's
pending transactions are not the engine's and stay. -/
def resetEvent (s : State) : State :=
  let busy := statusBusy s.status
  { State.reset with
    pal := palDraws s.draws
    mem := if busy then s.mem.havoc s.eng.ops.dstAddr s.eng.ops.dstCap.toNat (s.draws + 256) else s.mem
    host := s.host
    hostData := s.hostData
    draws := if busy then s.draws + 256 + s.eng.ops.dstCap.toNat else s.draws + 256 }

/-! ### The register port (spec/10_state.md R32, R33) -/

/-- A read of a register of the idle engine (spec/10_state.md R33). -/
def readReg (r : Reg) (s : State) : Word :=
  match r with
  | .cmd => s.cmd
  | .status => s.status
  | .srcAddr => s.srcAddr
  | .srcLen => s.srcLen
  | .dstAddr => s.dstAddr
  | .dstCap => s.dstCap
  | .xpalAddr => s.xpalAddr
  | .xpalLen => s.xpalLen.setWidth 32
  | .dim => s.dim
  | .flags => s.flags
  | .pairCount => s.pairCount
  | .resultLo => s.resultLo
  | .resultHi => s.resultHi
  | .palLen => BitVec.ofNat 32 s.palLen.val
  | .palColor => s.palColor
  | .wrCursor => s.wrCursor
  | .pal j => s.pal[j.val]

/-- A write of v to a register of the idle engine (spec/10_state.md R33 to R50): the RO registers ignore it, XPAL_LEN
keeps v[8:0] (R41), PAL_LEN keeps min(v[8:0], 256) (R46), CMD issues the command (R34). -/
def writeReg (r : Reg) (v : Word) (s : State) : State :=
  match r with
  | .cmd => issue v s
  | .status => s
  | .srcAddr => { s with srcAddr := v }
  | .srcLen => { s with srcLen := v }
  | .dstAddr => { s with dstAddr := v }
  | .dstCap => { s with dstCap := v }
  | .xpalAddr => { s with xpalAddr := v }
  | .xpalLen => { s with xpalLen := v.extractLsb' 0 9 }
  | .dim => { s with dim := v }
  | .flags => { s with flags := v }
  | .pairCount => { s with pairCount := v }
  | .resultLo => s
  | .resultHi => s
  | .palLen => { s with palLen := palLenOf (v.extractLsb' 0 9).toNat }
  | .palColor => { s with palColor := v }
  | .wrCursor => s
  | .pal j => { s with pal := s.pal.set j.val v }

/-- A write at an offset of the idle engine's port; an unlisted offset ignores it (spec/10_state.md R32). -/
def idleWrite (off : BitVec 11) (v : Word) (s : State) : State :=
  match regAt off with
  | some r => writeReg r v s
  | none => s

/-- A read at an offset of the idle engine's port; an unlisted offset reads 0 (spec/10_state.md R32). -/
def idleRead (off : BitVec 11) (s : State) : State :=
  match regAt off with
  | some r => { s with hostData := readReg r s }
  | none => { s with hostData := 0 }

/-- A read at an offset while BUSY = 1 (spec/10_state.md R54): STATUS reads as it is, the three result registers read
0, every other register reads a free value (log 10), an unlisted offset reads 0. -/
def busyRead (off : BitVec 11) (s : State) : State :=
  match regAt off with
  | some .status => { s with hostData := s.status }
  | some .resultLo => { s with hostData := 0 }
  | some .resultHi => { s with hostData := 0 }
  | some .wrCursor => { s with hostData := 0 }
  | some _ => { s with hostData := Config.draw s.draws, draws := s.draws + 1 }
  | none => { s with hostData := 0 }

/-! ### The host's transactions -/

/-- The flags of the stream a running command reads. -/
def streamFlags (s : State) : Word := (readHeader s.eng.ops s.mem).flags

/-- Whether an address lies in a buffer of the running command that spec/20_memory.md R92 says nobody writes. -/
def touchesBuffers (a : Word) (s : State) : Bool :=
  let i := decode s.cmd
  (sourceSpan i s.eng.ops).covers a || (destSpan i s.eng.ops).covers a
    || (xpalSpan i s.eng.ops (streamFlags s)).covers a

/-- A memory write by another agent while a command runs: the byte is stored, and the command's results are free if
the byte lies in one of its buffers (spec/20_memory.md R92, log 16). -/
def busyMemWrite (a : Word) (b : Byte) (s : State) : State :=
  { s with
    mem := s.mem.writeByte a b
    eng := { s.eng with disturbed := s.eng.disturbed || touchesBuffers a s } }

/-- A memory read by another agent while a command runs: a byte of the destination reads as a free value
(spec/20_memory.md R85, R92, log 16). -/
def busyMemRead (a : Word) (s : State) : State :=
  if (destSpan (decode s.cmd) s.eng.ops).covers a then
    { s with hostData := (drawByte s.draws).setWidth 32, draws := s.draws + 1 }
  else { s with hostData := (s.mem.readByte a).setWidth 32 }

/-- One transaction while no command runs. -/
def serveIdle (t : HostTxn) (s : State) : Host.Outcome State Fault Refusal :=
  match t with
  | .regWrite width off v =>
    if portAccessOk width off then .next (idleWrite off v s) else .refused .portAccessOutsideContract
  | .regRead width off =>
    if portAccessOk width off then .next (idleRead off s) else .refused .portAccessOutsideContract
  | .memWrite a b => .next { s with mem := s.mem.writeByte a b }
  | .memRead a => .next { s with hostData := (s.mem.readByte a).setWidth 32 }
  | .reset => .next (resetEvent s)

/-- One transaction while a command runs (spec/10_state.md R54): every register write is ignored, CMD included
(spec/40_command_protocol.md R143). -/
def serveBusy (t : HostTxn) (s : State) : Host.Outcome State Fault Refusal :=
  match t with
  | .regWrite width off _ =>
    if portAccessOk width off then .next s else .refused .portAccessOutsideContract
  | .regRead width off =>
    if portAccessOk width off then .next (busyRead off s) else .refused .portAccessOutsideContract
  | .memWrite a b => .next (busyMemWrite a b s)
  | .memRead a => .next (busyMemRead a s)
  | .reset => .next (resetEvent s)

/-- s with the oldest transaction taken off the queue. -/
def popHost (s : State) : State := { s with host := s.host.tail }

/-- s with one transaction fewer to serve before the running command completes. -/
def spendBusy (s : State) : State := { s with eng := { s.eng with busyLeft := s.eng.busyLeft - 1 } }

end Sys2Proof.Machine
end

