-- ==== Sys2Proof/Machine/Header.lean ====
section
/-! DEFINITION. The header codec (spec/42_header_codec.md): ParseHeader, HDR_PARSE and HDR_WRITE. -/

namespace Sys2Proof.Machine

/-- ParseHeader's loads: DIM, FLAGS, PAIR_COUNT and the stride, before any check (spec/42_header_codec.md R170). -/
def loadHeader (h : Header) (s : State) : State :=
  { s with
    dim := dimWord h.width h.height
    flags := h.flags
    pairCount := h.pairCount
    eng := { s.eng with strideOut := strideOf h.flags } }

/-- ParseHeader's checks of the header, in order (spec/42_header_codec.md R170, R171). -/
def headerError (h : Header) : Option ErrCode :=
  if h.magic ≠ Config.pieMagic then some .invalidMagic
  else if h.version ≠ Config.pieVersion then some .unsupportedVersion
  else if h.width = 0 ∨ h.height = 0 then some .invalidDimensions
  else none

/-- `ParseHeader()` (spec/42_header_codec.md R170); the header it returns is `readHeader`'s. -/
def parseHeader (s : State) : Flow :=
  if s.eng.ops.srcLen.toNat < 16 then .raise .truncatedStream s
  else
    let h := readHeader s.eng.ops s.mem
    match headerError h with
    | some e => .raise e (loadHeader h s)
    | none => .ok (loadHeader h s)

/-- The body of HDR_PARSE (spec/42_header_codec.md R172). -/
def hdrParseBody (s : State) : Flow :=
  (parseHeader s).andThen fun s' => .ok (setResult (decodedSize (readHeader s'.eng.ops s'.mem)) s')

/-- Whether HDR_PARSE or VALIDATE reads a source that wraps or that was written while the command ran
(spec/20_memory.md R91, R92; log 13, log 14). -/
def headerDutyBroken (i : Instr) (s : State) : Bool :=
  decide (16 ≤ s.eng.ops.srcLen.toNat) && ((sourceSpan i s.eng.ops).wraps || s.eng.disturbed)

/-- The body of HDR_WRITE (spec/42_header_codec.md R175, R176). -/
def hdrWriteBody (s : State) : Flow :=
  let o := s.eng.ops
  if reservedFlags o.flags ≠ 0 then .raise .invalidFlags s
  else
    let s1 := { s with eng := { s.eng with strideOut := strideOf o.flags } }
    (writerPut (serializeHeader (dimWidth o.dim) (dimHeight o.dim) o.flags o.pairCount) (writerInit s1)).andThen
      fun s2 => .ok (setResult 16 s2)

/-- Whether HDR_WRITE writes a destination that wraps or that another agent wrote while the command ran
(spec/20_memory.md R91, R92; log 13, log 14). -/
def hdrWriteDutyBroken (s : State) : Bool :=
  let o := s.eng.ops
  decide (reservedFlags o.flags = 0 ∧ 16 ≤ o.dstCap.toNat) && ((destSpan .hdrWrite o).wraps || s.eng.disturbed)

/-- HDR_PARSE (spec/42_header_codec.md R172). -/
def execHdrParse (s : State) : Host.Outcome State Fault Refusal :=
  .next (runGuarded (headerDutyBroken .hdrParse s) .hdrParse true false false hdrParseBody s)

/-- HDR_WRITE (spec/42_header_codec.md R175). -/
def execHdrWrite (s : State) : Host.Outcome State Fault Refusal :=
  .next (runGuarded (hdrWriteDutyBroken s) .hdrWrite false false true hdrWriteBody s)

end Sys2Proof.Machine
end

