-- ==== Sys2Proof/Machine/Validator.lean ====
section
/-! DEFINITION. The format validator (spec/46_format_validator.md): Validate and VALIDATE. -/

namespace Sys2Proof.Machine

/-- The validator's own checks of a header, in order (spec/46_format_validator.md R240, R241). -/
def validatorError (o : Operands) (h : Header) : Option ErrCode :=
  if reservedFlags h.flags ≠ 0 then some .invalidFlags
  else if h.pairCount = 0 then some .invalidPairCount
  else if o.srcLen.toNat < 16 + 2 * h.pairCount.toNat then some .truncatedStream
  else if embedBit h.flags ∧ o.srcLen.toNat - 16 - 2 * h.pairCount.toNat < strideOf h.flags then some .truncatedStream
  else none

/-- `Validate()` (spec/46_format_validator.md R240). -/
def validate (s : State) : Flow :=
  (parseHeader s).andThen fun s' =>
    match validatorError s'.eng.ops (readHeader s'.eng.ops s'.mem) with
    | some e => .raise e s'
    | none => .ok s'

/-- The body of VALIDATE (spec/46_format_validator.md R242). -/
def validateBody (s : State) : Flow :=
  (validate s).andThen fun s' => .ok (setResult (decodedSize (readHeader s'.eng.ops s'.mem)) s')

/-- VALIDATE (spec/46_format_validator.md R242). -/
def execValidate (s : State) : Host.Outcome State Fault Refusal :=
  .next (runGuarded (headerDutyBroken .validate s) .validate true false false validateBody s)

end Sys2Proof.Machine
end

