-- ==== Sys2Proof/Machine/Decoder.lean ====
section
/-! DEFINITION. The RLE decoder (spec/45_rle_decoder.md): DECODE and DECODE.XPAL. -/

namespace Sys2Proof.Machine

/-- run_length of pair k (spec/30_encoding.md R115, R116). -/
def pairRun (o : Operands) (m : Memory) (k : Nat) : Nat :=
  (m.readByte (o.srcAddr + BitVec.ofNat 32 (16 + 2 * k))).toNat

/-- palette_index of pair k (spec/30_encoding.md R115, R116). -/
def pairIndex (o : Operands) (m : Memory) (k : Nat) : Nat :=
  (m.readByte (o.srcAddr + BitVec.ofNat 32 (17 + 2 * k))).toNat

/-- The bytes of entry idx of the palette slice at base (spec/45_rle_decoder.md R220). -/
def sliceColor (m : Memory) (base : Word) (st idx : Nat) : List Byte :=
  m.readBytes (base + BitVec.ofNat 32 (idx * st)) st

/-- The replay of the next r pairs (spec/45_rle_decoder.md R220, R225). -/
def replay (total : Nat) : Nat → State → Flow
  | 0, s => .ok s
  | r + 1, s =>
    let n := pairRun s.eng.ops s.mem s.eng.k
    let idx := pairIndex s.eng.ops s.mem s.eng.k
    if n = 0 ∨ total < s.eng.cur + n ∨ s.eng.pl ≤ idx then .raise .corruptStream s
    else
      let color := sliceColor s.mem s.eng.palBase s.eng.strideOut idx
      replay total r { s with eng := { s.eng with
        out := s.eng.out ++ (List.replicate n color).flatten
        cur := s.eng.cur + n
        k := s.eng.k + 1 } }

/-- The body of DECODE (spec/45_rle_decoder.md R220), `ext` being EXT_PAL. -/
def decodeBody (ext : Bool) (s : State) : Flow :=
  (validate s).andThen fun s1 =>
    let o := s1.eng.ops
    let h := readHeader o s1.mem
    let total := pixelCount h.width h.height
    let need := decodedSize h
    if o.dstCap.toNat < need then .raise .destinationTooSmall s1
    else
      let slice := selectPalette ext o h
      let s2 := { s1 with eng := { s1.eng with palBase := slice.1, pl := slice.2, k := 0, cur := 0, out := [] } }
      (replay total h.pairCount.toNat s2).andThen fun s3 =>
        if s3.eng.cur ≠ total then .raise .corruptStream s3
        else .ok { s3 with resultLo := BitVec.ofNat 32 need, resultHi := 0 }

/-- Whether one of the embedded palette entries the replay of the next r pairs reads lies in the destination
(spec/20_memory.md R87, R95). -/
def replayMeets (dst : Span) (o : Operands) (m : Memory) (base : Word) (pl st total : Nat) : Nat → Nat → Nat → Bool
  | 0, _, _ => false
  | r + 1, k, cur =>
    let n := pairRun o m k
    let idx := pairIndex o m k
    if n = 0 ∨ total < cur + n ∨ pl ≤ idx then false
    else dst.meets ⟨base + BitVec.ofNat 32 (idx * st), st⟩
      || replayMeets dst o m base pl st total r (k + 1) (cur + n)

/-- Whether the destination overlaps what DECODE reads: the header and the pairs, and the external palette or the
embedded entries it replays (spec/20_memory.md R87, R95). -/
def decodeOverlap (i : Instr) (ext : Bool) (o : Operands) (m : Memory) : Bool :=
  let h := readHeader o m
  let slice := selectPalette ext o h
  let dst := destSpan i o
  dst.meets ⟨o.srcAddr, 16 + 2 * h.pairCount.toNat⟩ || dst.meets (externalSpan ext o h.flags)
    || (!usesExternal ext h.flags
      && replayMeets dst o m slice.1 slice.2 (strideOf h.flags) (pixelCount h.width h.height) h.pairCount.toNat 0 0)

/-- Whether DECODE uses buffers for which a host duty is broken: it reads a source that wraps or that was written while
the command ran, or it comes to its replay and the destination or the external palette wraps, or the destination
overlaps what it reads (spec/20_memory.md R91, R92, R95; log 13, log 14). -/
def decodeDutyBroken (i : Instr) (ext : Bool) (s : State) : Bool :=
  let o := s.eng.ops
  let h := readHeader o s.mem
  decide (16 ≤ o.srcLen.toNat)
    && ((sourceSpan i o).wraps || s.eng.disturbed
      || (decide (headerError h = none ∧ validatorError o h = none ∧ decodedSize h ≤ o.dstCap.toNat)
        && ((destSpan i o).wraps || (externalSpan ext o h.flags).wraps || decodeOverlap i ext o s.mem)))

/-- DECODE (spec/45_rle_decoder.md R220). -/
def execDecode (s : State) : Host.Outcome State Fault Refusal :=
  .next (runGuarded (decodeDutyBroken .decode false s) .decode true false true (decodeBody false) s)

/-- DECODE.XPAL (spec/45_rle_decoder.md R224). -/
def execDecodeXpal (s : State) : Host.Outcome State Fault Refusal :=
  .next (runGuarded (decodeDutyBroken .decodeXpal true s) .decodeXpal true false true (decodeBody true) s)

end Sys2Proof.Machine
end

