-- ==== Sys2Proof/Machine/Encoder.lean ====
section
/-! DEFINITION. The RLE encoder (spec/44_rle_encoder.md): ENCODE and ENCODE.KEEP. -/

namespace Sys2Proof.Machine

/-- Pixel i of the source: `MemRead(SRC_ADDR + i×s, s)` (spec/44_rle_encoder.md R201). -/
def pixelAt (o : Operands) (m : Memory) (i : Nat) : Word :=
  readColor m (o.srcAddr + BitVec.ofNat 32 (i * strideOf o.flags)) (strideOf o.flags)

/-- `EmitPair(n, c)` for the current run (spec/44_rle_encoder.md R200, R203): look the colour up, append
`[run_len, idx]`, count the pair in p and PAIR_COUNT (R205). -/
def emitPair (s : State) : Flow :=
  match findOrInsert (strideOf s.eng.ops.flags) s.eng.runColor s with
  | none => .raise .tooManyColors s
  | some (j, s1) =>
    (writerPut [BitVec.ofNat 8 s1.eng.runLen, BitVec.ofNat 8 j] s1).andThen fun s2 =>
      .ok { s2 with
        pairCount := BitVec.ofNat 32 (s2.eng.p + 1)
        eng := { s2.eng with p := s2.eng.p + 1 } }

/-- The scan of the next n pixels (spec/44_rle_encoder.md R200, R202): a pixel joins the run when it equals
run_color over all s bytes and run_len < 255; else the run closes and the pixel starts a new one. -/
def encodeScan : Nat → State → Flow
  | 0, s => .ok s
  | n + 1, s =>
    let c := pixelAt s.eng.ops s.mem s.eng.i
    if c = s.eng.runColor ∧ s.eng.runLen < 255 then
      encodeScan n { s with eng := { s.eng with runLen := s.eng.runLen + 1, i := s.eng.i + 1 } }
    else
      match emitPair s with
      | .raise e s1 => .raise e s1
      | .ok s1 => encodeScan n { s1 with eng := { s1.eng with runColor := c, runLen := 1, i := s1.eng.i + 1 } }

/-- Start of the scan: no pair, PAIR_COUNT = 0, the run is pixel 0 (spec/44_rle_encoder.md R200). -/
def startScan (s : State) : State :=
  { s with
    pairCount := 0
    eng := { s.eng with p := 0, runColor := pixelAt s.eng.ops s.mem 0, runLen := 1, i := 1 } }

/-- Append the n palette entries from j on, each one unit (spec/44_rle_encoder.md R206). -/
def putPalette : Nat → Nat → State → Flow
  | 0, _, s => .ok s
  | n + 1, j, s =>
    (writerPut (colorBytes (strideOf s.eng.ops.flags) (s.palEntry j)) s).andThen (putPalette n (j + 1))

/-- The pair-count patch and the embedded palette that follow the last pair (spec/44_rle_encoder.md R204, R206). -/
def encodeTail (s : State) : Flow :=
  let s1 := writerPatch 12 (le32 (BitVec.ofNat 32 s.eng.p)) s
  (if embedBit s1.eng.ops.flags then putPalette s1.palLen.val 0 s1 else .ok s1).andThen fun s2 =>
    .ok (setResult s2.eng.cursor s2)

/-- The body of ENCODE (spec/44_rle_encoder.md R200), `keep` being KEEP_PAL (R213). -/
def encodeBody (keep : Bool) (s : State) : Flow :=
  let o := s.eng.ops
  if reservedFlags o.flags ≠ 0 then .raise .invalidFlags s
  else if dimWidth o.dim = 0 ∨ dimHeight o.dim = 0 then .raise .invalidDimensions s
  else
    let s1 := { s with
      palLen := if keep then s.palLen else 0
      eng := { s.eng with strideOut := strideOf o.flags } }
    (writerPut (serializeHeader (dimWidth o.dim) (dimHeight o.dim) o.flags 0) (writerInit s1)).andThen fun s2 =>
    (encodeScan (o.pixels - 1) (startScan s2)).andThen fun s3 =>
    (emitPair s3).andThen encodeTail

/-- Whether ENCODE uses buffers for which a host duty is broken: it passes its pre-checks and its header put, and the
source or the destination wraps, they overlap, or one of them was written while the command ran
(spec/20_memory.md R91, R92, R95; log 13, log 14). -/
def encodeDutyBroken (i : Instr) (s : State) : Bool :=
  let o := s.eng.ops
  decide (reservedFlags o.flags = 0 ∧ dimWidth o.dim ≠ 0 ∧ dimHeight o.dim ≠ 0 ∧ 16 ≤ o.dstCap.toNat)
    && ((sourceSpan i o).wraps || (destSpan i o).wraps || (destSpan i o).meets (sourceSpan i o) || s.eng.disturbed)

/-- ENCODE (spec/44_rle_encoder.md R200). -/
def execEncode (s : State) : Host.Outcome State Fault Refusal :=
  .next (runGuarded (encodeDutyBroken .encode s) .encode false true true (encodeBody false) s)

/-- ENCODE.KEEP (spec/44_rle_encoder.md R213). -/
def execEncodeKeep (s : State) : Host.Outcome State Fault Refusal :=
  .next (runGuarded (encodeDutyBroken .encodeKeep s) .encodeKeep false true true (encodeBody true) s)

end Sys2Proof.Machine
end

