-- ==== Sys2Proof/Machine/Illegal.lean ====
section
/-! DEFINITION. The illegal command word (spec/40_command_protocol.md R146): it completes with IllegalCommand. -/

namespace Sys2Proof.Machine

/-- The body of an illegal word: `raise IllegalCommand` (spec/40_command_protocol.md R146). -/
def illegalBody (s : State) : Flow := .raise .illegalCommand s

/-- An illegal word; which one it is changes nothing but CMD, written at issue (spec/40_command_protocol.md R146). -/
def execIllegal (_w : Word) (s : State) : Host.Outcome State Fault Refusal := .next (runCommand illegalBody s)

end Sys2Proof.Machine
end

