-- ==== Sys2Proof/Machine/Palette.lean ====
section
/-! DEFINITION. The commands of the palette table (spec/43_palette_table.md): PAL_CLEAR, PAL_FIND and PAL_FIND.A. -/

namespace Sys2Proof.Machine

/-- The body of PAL_CLEAR (spec/43_palette_table.md R194). -/
def palClearBody (s : State) : Flow := .ok (setResult 0 { s with palLen := 0 })

/-- The body of PAL_FIND under the stride st (spec/43_palette_table.md R195). -/
def palFindBody (st : Nat) (s : State) : Flow :=
  let s1 := { s with eng := { s.eng with strideOut := st } }
  match findOrInsert st (colorOfBytes (colorBytes st s.eng.ops.palColor)) s1 with
  | some (j, s2) => .ok (setResult j s2)
  | none => .raise .tooManyColors s1

/-- PAL_CLEAR (spec/43_palette_table.md R194). -/
def execPalClear (s : State) : Host.Outcome State Fault Refusal := .next (runCommand palClearBody s)

/-- PAL_FIND, stride 3 (spec/43_palette_table.md R195). -/
def execPalFind (s : State) : Host.Outcome State Fault Refusal := .next (runCommand (palFindBody 3) s)

/-- PAL_FIND.A, stride 4 (spec/43_palette_table.md R195). -/
def execPalFindA (s : State) : Host.Outcome State Fault Refusal := .next (runCommand (palFindBody 4) s)

end Sys2Proof.Machine
end

