-- ==== Sys2Proof/Machine/Dispatch.lean ====
section
/-! DEFINITION. The dispatch of a decoded command to its meaning (spec/40_command_protocol.md R142). -/

namespace Sys2Proof.Machine

def exec (i : Instr) (s : State) : Host.Outcome State Fault Refusal :=
  match i with
  | .encode => Sys2Proof.Machine.execEncode s
  | .encodeKeep => Sys2Proof.Machine.execEncodeKeep s
  | .decode => Sys2Proof.Machine.execDecode s
  | .decodeXpal => Sys2Proof.Machine.execDecodeXpal s
  | .validate => Sys2Proof.Machine.execValidate s
  | .hdrParse => Sys2Proof.Machine.execHdrParse s
  | .hdrWrite => Sys2Proof.Machine.execHdrWrite s
  | .palClear => Sys2Proof.Machine.execPalClear s
  | .palFind => Sys2Proof.Machine.execPalFind s
  | .palFindA => Sys2Proof.Machine.execPalFindA s
  | .illegal w => Sys2Proof.Machine.execIllegal w s

end Sys2Proof.Machine
end

