-- ==== Sys2Proof/Machine/Step.lean ====
section
/-! DEFINITION. One step of the machine: a transaction of the host, or the engine running the command that CMD holds
(spec/40_command_protocol.md R140 to R144, R147). -/

namespace Sys2Proof.Machine

/-- One step. With BUSY = 1 the host's next transaction is served if the engine still has some to wait out and one is
pending; else the engine runs the command in CMD to completion. With BUSY = 0 the host's next transaction is served;
with none pending the engine stays idle (spec/60_exceptions.md R263). -/
def step (s : State) : Host.Outcome State Fault Refusal :=
  if statusBusy s.status then
    if s.eng.busyLeft = 0 then exec (decode s.cmd) s
    else
      match s.host with
      | [] => exec (decode s.cmd) s
      | t :: _ => serveBusy t (spendBusy (popHost s))
  else
    match s.host with
    | [] => .next s
    | t :: _ => serveIdle t (popHost s)

/-- s right after the issue of the command word w, with no transaction to wait out: the next step runs that command
(log 7). -/
def State.withFetchWord (s : State) (nbits w : Nat) : State :=
  issueFor 0 (BitVec.ofNat 32 (w % 2 ^ nbits)) s

end Sys2Proof.Machine
end

