-- ==== Sys2Proof/Safety.lean ====
section
/-! DEFINITION. The terms the claims use: the invariant of the machine, the duties of the host
(spec/70_reset_and_hazards.md R284 to R288), and what ENCODE and DECODE are to produce, said on sequences of pixels
and pairs and without the engine's cursors (spec/30_encoding.md R107, R119, R121). -/

namespace Sys2Proof.Machine

/-! ### The invariant -/

/-- The values STATUS takes: after reset, while a command runs, and after one completed (spec/10_state.md R35,
spec/30_encoding.md R120, spec/40_command_protocol.md R144). -/
def legalStatus (w : Word) : Prop :=
  w = 0 ∨ w = statusIssued ∨ ∃ st ∈ [0, 3, 4], ∃ code ∈ List.range 12, w = statusWord st code

/-- What holds between steps: the memory is in canonical form; STATUS is legal; while a command runs the result
registers read 0, the latched operands are the operand registers and no other internal state is live; while none
runs the internal state is dead (spec/10_state.md R35, R45, R49, R51, R52, R54). -/
structure State.Inv (s : State) : Prop where
  mem_wf : s.mem.wf
  status_legal : legalStatus s.status
  busy : statusBusy s.status = true → s.resultLo = 0 ∧ s.resultHi = 0 ∧ s.wrCursor = 0 ∧
    s.eng = { Engine.idle with
      ops := latchOperands s, busyLeft := s.eng.busyLeft, disturbed := s.eng.disturbed }
  idle : statusBusy s.status = false → s.eng = Engine.idle

/-- The registers no command writes (spec/10_state.md R34, R36 to R41, R47), and the host's own side. -/
structure KeepsHostRegisters (s t : State) : Prop where
  cmd : t.cmd = s.cmd
  srcAddr : t.srcAddr = s.srcAddr
  srcLen : t.srcLen = s.srcLen
  dstAddr : t.dstAddr = s.dstAddr
  dstCap : t.dstCap = s.dstCap
  xpalAddr : t.xpalAddr = s.xpalAddr
  xpalLen : t.xpalLen = s.xpalLen
  palColor : t.palColor = s.palColor
  host : t.host = s.host
  hostData : t.hostData = s.hostData

/-- A host transaction inside the contract of the register port (spec/10_state.md R32). -/
def HostTxn.inContract : HostTxn → Bool
  | .regWrite width off _ => portAccessOk width off
  | .regRead width off => portAccessOk width off
  | .memWrite _ _ => true
  | .memRead _ => true
  | .reset => true

/-- n steps, stopping at the first that gives no next state. -/
def runSteps : Nat → State → Host.Outcome State Fault Refusal
  | 0, s => .next s
  | n + 1, s =>
    match step s with
    | .next t => runSteps n t
    | .fault r => .fault r
    | .refused r => .refused r

/-! ### Host duties -/

/-- n bytes from a on do not wrap past 2^32 - 1 (spec/20_memory.md R91). -/
def noWrap (a : Word) (n : Nat) : Prop := a.toNat + n ≤ 4294967296

/-- n bytes from a on and k bytes from b on share none (spec/20_memory.md R95). -/
def apart (a : Word) (n : Nat) (b : Word) (k : Nat) : Prop :=
  n = 0 ∨ k = 0 ∨ a.toNat + n ≤ b.toNat ∨ b.toNat + k ≤ a.toNat

/-- The host keeps its duties for a command that reads a header (spec/20_memory.md R91, R92). -/
def SourceReady (s : State) : Prop :=
  noWrap s.eng.ops.srcAddr s.eng.ops.srcLen.toNat ∧ s.eng.disturbed = false

/-- The host keeps its duties for a command that writes the destination alone (spec/20_memory.md R91, R92). -/
def DestReady (s : State) : Prop :=
  noWrap s.eng.ops.dstAddr s.eng.ops.dstCap.toNat ∧ s.eng.disturbed = false

/-- The host keeps its duties for ENCODE (spec/20_memory.md R91, R95, spec/70_reset_and_hazards.md R284). -/
def encodeDuties (o : Operands) : Prop :=
  noWrap o.srcAddr (o.pixels * strideOf o.flags) ∧ noWrap o.dstAddr o.dstCap.toNat ∧
    apart o.dstAddr o.dstCap.toNat o.srcAddr (o.pixels * strideOf o.flags)

/-! ### What ENCODE produces -/

/-- The image: pixels 0..N-1 in order (spec/44_rle_encoder.md R201). -/
def imagePixels (o : Operands) (m : Memory) : List Word := (List.range o.pixels).map (pixelAt o m)

/-- The runs of the pixels after a run of n pixels of colour c (spec/44_rle_encoder.md R202). -/
def runsFrom (c : Word) (n : Nat) : List Word → List (Nat × Word)
  | [] => [(n, c)]
  | d :: ds => if d = c ∧ n < 255 then runsFrom c (n + 1) ds else (n, c) :: runsFrom d 1 ds

/-- The runs of an image, each (length, colour) (spec/44_rle_encoder.md R202, R208). -/
def splitRuns : List Word → List (Nat × Word)
  | [] => []
  | c :: cs => runsFrom c 1 cs

/-- Two colours agree on their first st bytes (spec/43_palette_table.md R191). -/
def sameColor (st : Nat) (a b : Word) : Bool := colorBytes st a == colorBytes st b

/-- The palette after offering it one colour (spec/43_palette_table.md R191). -/
def offerColor (st : Nat) (pal : List Word) (c : Word) : List Word :=
  if pal.any (fun e => sameColor st e c) then pal else pal ++ [colorOfBytes (colorBytes st c)]

/-- The palette after offering it colours in order: first-occurrence order (spec/43_palette_table.md R193). -/
def growPalette (st : Nat) (pal : List Word) (cs : List Word) : List Word := cs.foldl (offerColor st) pal

/-- The lowest index of a colour in a palette (spec/43_palette_table.md R191). -/
def colorIndex (st : Nat) (pal : List Word) (c : Word) : Nat := pal.findIdx fun e => sameColor st e c

/-- The palette ENCODE leaves, from the entries it starts with: every pixel offered in scan order
(spec/44_rle_encoder.md R211). -/
def encodedPalette (o : Operands) (m : Memory) (seed : List Word) : List Word :=
  growPalette (strideOf o.flags) seed (imagePixels o m)

/-- The pairs of an image over a palette: (run_length, palette_index) (spec/44_rle_encoder.md R203). -/
def encodedPairs (o : Operands) (m : Memory) (seed : List Word) : List (Nat × Nat) :=
  (splitRuns (imagePixels o m)).map fun r =>
    (r.1, colorIndex (strideOf o.flags) (encodedPalette o m seed) r.2)

/-- The bytes of a pair (spec/30_encoding.md R116). -/
def pairBytes (p : Nat × Nat) : List Byte := [BitVec.ofNat 8 p.1, BitVec.ofNat 8 p.2]

/-- The stream ENCODE writes: header, pairs, and the palette if it is embedded (spec/30_encoding.md R107). -/
def encodedStream (o : Operands) (m : Memory) (seed : List Word) : List Byte :=
  serializeHeader (dimWidth o.dim) (dimHeight o.dim) o.flags
      (BitVec.ofNat 32 (encodedPairs o m seed).length)
    ++ (encodedPairs o m seed).flatMap pairBytes
    ++ if embedBit o.flags then (encodedPalette o m seed).flatMap (colorBytes (strideOf o.flags)) else []

/-- The colours of cs, each once, in the order of their first occurrence (spec/43_palette_table.md R193). -/
def firstOccurrences (cs : List Word) : List Word :=
  cs.foldl (fun acc c => if c ∈ acc then acc else acc ++ [c]) []

/-- The length of the stream (spec/44_rle_encoder.md R207). -/
def encodedLength (o : Operands) (m : Memory) (seed : List Word) : Nat :=
  16 + 2 * (encodedPairs o m seed).length
    + if embedBit o.flags then (encodedPalette o m seed).length * strideOf o.flags else 0

/-- ENCODE of s passes its pre-checks and its host keeps its duties (spec/44_rle_encoder.md R200). -/
structure EncodeStarts (s : State) : Prop where
  flags : reservedFlags s.eng.ops.flags = 0
  width : dimWidth s.eng.ops.dim ≠ 0
  height : dimHeight s.eng.ops.dim ≠ 0
  duties : encodeDuties s.eng.ops
  undisturbed : s.eng.disturbed = false
  mem_wf : s.mem.wf

/-- The conditions under which ENCODE of s, from the palette entries `seed`, has nothing to raise and its host keeps
its duties (spec/44_rle_encoder.md R200, R212). -/
structure EncodeReady (s : State) (seed : List Word) : Prop extends EncodeStarts s where
  colors : (encodedPalette s.eng.ops s.mem seed).length ≤ 256
  room : encodedLength s.eng.ops s.mem seed ≤ s.eng.ops.dstCap.toNat

/-! ### What DECODE reads and produces -/

/-- Pairs 0..P-1 of the stream, each (run_length, palette_index) (spec/30_encoding.md R115, R116). -/
def streamPairs (o : Operands) (m : Memory) : List (Nat × Nat) :=
  (List.range (readHeader o m).pairCount.toNat).map fun k => (pairRun o m k, pairIndex o m k)

/-- The pairs replayed before the first that breaks the pair invariants, from cur pixels on
(spec/45_rle_decoder.md R227). -/
def soundPairs (total pl : Nat) : Nat → List (Nat × Nat) → List (Nat × Nat)
  | _, [] => []
  | cur, (n, idx) :: t =>
    if n = 0 ∨ total < cur + n ∨ pl ≤ idx then [] else (n, idx) :: soundPairs total pl (cur + n) t

/-- The pixels of the pairs' runs. -/
def runTotal (ps : List (Nat × Nat)) : Nat := (ps.map Prod.fst).sum

/-- The bytes of the pairs' runs over the palette slice at base (spec/45_rle_decoder.md R225). -/
def replayedBytes (m : Memory) (base : Word) (st : Nat) (ps : List (Nat × Nat)) : List Byte :=
  ps.flatMap fun p => (List.replicate p.1 (sliceColor m base st p.2)).flatten

/-- N of the stream's header. -/
def streamPixels (o : Operands) (m : Memory) : Nat :=
  pixelCount (readHeader o m).width (readHeader o m).height

/-- The stream's palette slice: base and length (spec/45_rle_decoder.md R224). -/
def streamSlice (ext : Bool) (o : Operands) (m : Memory) : Word × Nat := selectPalette ext o (readHeader o m)

/-- The pairs DECODE replays. -/
def replayedPairs (ext : Bool) (o : Operands) (m : Memory) : List (Nat × Nat) :=
  soundPairs (streamPixels o m) (streamSlice ext o m).2 0 (streamPairs o m)

/-- The operands under which a stream of n bytes that a command wrote at its destination is read back. -/
def readBack (o : Operands) (n : Word) : Operands := { o with srcAddr := o.dstAddr, srcLen := n }

/-- The stream at the source is well-formed over a palette of l entries (spec/30_encoding.md R119). -/
structure WellFormedStream (o : Operands) (m : Memory) (l : Nat) : Prop where
  magic : (readHeader o m).magic = Config.pieMagic
  version : (readHeader o m).version = Config.pieVersion
  width : (readHeader o m).width ≠ 0
  height : (readHeader o m).height ≠ 0
  flags : reservedFlags (readHeader o m).flags = 0
  pair_count : (readHeader o m).pairCount ≠ 0
  runs : ∀ p ∈ streamPairs o m, 1 ≤ p.1 ∧ p.1 ≤ 255
  sum : runTotal (streamPairs o m) = streamPixels o m
  indices : ∀ p ∈ streamPairs o m, p.2 < l
  palette : l ≤ 256
  length : 16 + 2 * (readHeader o m).pairCount.toNat
    + (if embedBit (readHeader o m).flags then l * strideOf (readHeader o m).flags else 0) ≤ o.srcLen.toNat

/-- The host keeps its duties for DECODE: no buffer wraps, and the destination overlaps neither the header and the
pairs nor the palette entries replayed nor the external palette (spec/20_memory.md R87, R91, R95). -/
def decodeDuties (ext : Bool) (o : Operands) (m : Memory) : Prop :=
  let h := readHeader o m
  let st := strideOf h.flags
  noWrap o.srcAddr o.srcLen.toNat ∧ noWrap o.dstAddr o.dstCap.toNat ∧
    apart o.dstAddr o.dstCap.toNat o.srcAddr (16 + 2 * h.pairCount.toNat) ∧
    if usesExternal ext h.flags then
      noWrap o.xpalAddr (o.xpalLen.toNat * st) ∧ apart o.dstAddr o.dstCap.toNat o.xpalAddr (o.xpalLen.toNat * st)
    else ∀ p ∈ replayedPairs ext o m, apart o.dstAddr o.dstCap.toNat
      ((streamSlice ext o m).1 + BitVec.ofNat 32 (p.2 * st)) st

/-- The stream at the source passes the header's and the validator's checks (spec/46_format_validator.md R240). -/
structure StreamValid (o : Operands) (m : Memory) : Prop where
  length : 16 ≤ o.srcLen.toNat
  header : headerError (readHeader o m) = none
  validator : validatorError o (readHeader o m) = none

/-- DECODE of s comes to its replay and its host keeps its duties (spec/45_rle_decoder.md R220, R223). -/
structure DecodeReady (ext : Bool) (s : State) : Prop where
  valid : StreamValid s.eng.ops s.mem
  room : decodedSize (readHeader s.eng.ops s.mem) ≤ s.eng.ops.dstCap.toNat
  duties : decodeDuties ext s.eng.ops s.mem
  undisturbed : s.eng.disturbed = false
  mem_wf : s.mem.wf

/-- Every pair of the stream is sound and the runs sum to N (spec/45_rle_decoder.md R227). -/
def PairsSound (ext : Bool) (o : Operands) (m : Memory) : Prop :=
  replayedPairs ext o m = streamPairs o m ∧ runTotal (streamPairs o m) = streamPixels o m

end Sys2Proof.Machine
end

