-- ==== Sys2Proof/Certificates/Slice0/Obligations.lean ====
section
/-! DEFINITION. The statements for the provers, taken from the numbered rules of spec/ (OBLIGATIONS.json lists them).
In an equation `t = { s with ... }` a field given as `t.f` is left open by that equation: the engine's internal state
`eng` always (spec/10_state.md R51 gives it no value between commands), memory and the palette table where the other
clauses of the statement say what they hold. -/

section

open Sys2Proof Sys2Proof.Machine

/-! ### Command words (spec/30_encoding.md) -/

/-- spec/30_encoding.md R105: the ten rows; a word selects the row it equals; the grouped masks; no two rows match one
word; a word of no row is illegal and completes with IllegalCommand. -/
def Obligations.DecodingRule : Prop :=
  opcodeRows = [(0x00000001#32, 0xFFFFFFFF#32, .encode), (0x00000101#32, 0xFFFFFFFF#32, .encodeKeep),
    (0x00000002#32, 0xFFFFFFFF#32, .decode), (0x00000102#32, 0xFFFFFFFF#32, .decodeXpal),
    (0x00000003#32, 0xFFFFFFFF#32, .validate), (0x00000004#32, 0xFFFFFFFF#32, .hdrParse),
    (0x00000005#32, 0xFFFFFFFF#32, .hdrWrite), (0x00000006#32, 0xFFFFFFFF#32, .palClear),
    (0x00000007#32, 0xFFFFFFFF#32, .palFind), (0x00000207#32, 0xFFFFFFFF#32, .palFindA)] ∧
  ∀ w : Word,
    (∀ row ∈ opcodeRows, (rowMatches w row = true ↔ w = row.1) ∧ (w = row.1 → decode w = row.2.2)) ∧
    (opcodeRows.filter (rowMatches w)).length ≤ 1 ∧
    ((∀ row ∈ opcodeRows, w ≠ row.1) → decode w = .illegal w ∧
      ∀ s : State, ∃ t, exec (decode w) s = .next t ∧ statusDone t.status = true ∧ statusErr t.status = 11) ∧
    ((decode w = .encode ∨ decode w = .encodeKeep) ↔ w &&& 0xFFFFFEFF#32 = 0x01#32) ∧
    ((decode w = .decode ∨ decode w = .decodeXpal) ↔ w &&& 0xFFFFFEFF#32 = 0x02#32) ∧
    ((decode w = .palFind ∨ decode w = .palFindA) ↔ w &&& 0xFFFFFDFF#32 = 0x07#32)

/-- First clause, spec/30_encoding.md R104: which words are illegal, field by field. Second clause: such a word, written
to CMD of an idle engine, issues a command that completes with IllegalCommand. That it does so in the very next step,
whatever transactions `rest` still holds, so that no poll sees it busy, is THE MODEL'S CHOICE: its reading of R104's "at
once" (log 9; spec/70_reset_and_hazards.md R290 leaves the number of busy polls open). So is that issue and run are two
steps (log 7). -/
def Obligations.IllegalWords : Prop :=
  ∀ (w : Word) (s : State) (rest : List HostTxn),
    (decode w = .illegal w ↔
      (¬ (1 ≤ (w.extractLsb' 0 8).toNat ∧ (w.extractLsb' 0 8).toNat ≤ 7) ∨ w.extractLsb' 10 22 ≠ 0 ∨
        (w.getLsbD 8 = true ∧ w.extractLsb' 0 8 ≠ 0x01#8 ∧ w.extractLsb' 0 8 ≠ 0x02#8) ∨
        (w.getLsbD 9 = true ∧ w.extractLsb' 0 8 ≠ 0x07#8))) ∧
    (decode w = .illegal w → statusBusy s.status = false → s.host = .regWrite .word 0 w :: rest →
      ∃ t u, step s = .next t ∧ statusBusy t.status = true ∧ step t = .next u ∧
        statusBusy u.status = false ∧ statusDone u.status = true ∧ statusErr u.status = 11)

/-- spec/30_encoding.md R102, R105: decoding what the encoder wrote gives the command back, for every well-formed
command. -/
def Obligations.DecodeEncode : Prop := ∀ i : Instr, i.wellFormed = true → decode (encode i) = i

/-- spec/30_encoding.md R105: every word decodes to a well-formed command whose word it is. -/
def Obligations.EncodeDecode : Prop := ∀ w : Word, (decode w).wellFormed = true ∧ encode (decode w) = w

/-- spec/30_encoding.md R105, spec/40_command_protocol.md R146: words written out from the table decode as the table
says, also through the host's numbering of an instruction's bits. -/
def Obligations.WrittenWordsDecode : Prop :=
  decodeTableWord 32 0x00000001 = some .encode ∧ decodeTableWord 32 0x00000101 = some .encodeKeep ∧
  decodeTableWord 32 0x00000002 = some .decode ∧ decodeTableWord 32 0x00000102 = some .decodeXpal ∧
  decodeTableWord 32 0x00000003 = some .validate ∧ decodeTableWord 32 0x00000004 = some .hdrParse ∧
  decodeTableWord 32 0x00000005 = some .hdrWrite ∧ decodeTableWord 32 0x00000006 = some .palClear ∧
  decodeTableWord 32 0x00000007 = some .palFind ∧ decodeTableWord 32 0x00000207 = some .palFindA ∧
  decodeTableWord 32 0x00000000 = some (.illegal 0x00000000#32) ∧
  decodeTableWord 32 0x00000201 = some (.illegal 0x00000201#32) ∧
  decodeTableWord 32 0x00000107 = some (.illegal 0x00000107#32)

/-! ### The step, issue and completion (spec/40_command_protocol.md) -/

/-- spec/40_command_protocol.md R142: where the engine's turn has come, a step is exec of the command that CMD decodes
to; before, the host's next transaction is served. That issue and run are two steps, and how many transactions are
served between them, is the model's choice (log 7, log 9). -/
def Obligations.StepRunsDecodedCommand : Prop :=
  ∀ (s : State) (i : Instr), statusBusy s.status = true → decode s.cmd = i → i.wellFormed = true →
    (s.eng.busyLeft = 0 ∨ s.host = [] → step s = exec i s) ∧
    (∀ t rest, s.eng.busyLeft ≠ 0 → s.host = t :: rest →
      step s = serveBusy t { s with host := rest, eng := { s.eng with busyLeft := s.eng.busyLeft - 1 } })

/-- spec/40_command_protocol.md R141: the state right after a word was issued runs that word's command next, with the
operand registers latched as they stood. -/
def Obligations.FetchedWordRuns : Prop :=
  ∀ (s : State) (w : Word),
    step (s.withFetchWord 32 w.toNat) = exec (decode w) (s.withFetchWord 32 w.toNat) ∧
    (s.withFetchWord 32 w.toNat).cmd = w ∧
    (s.withFetchWord 32 w.toNat).eng.ops = ⟨s.srcAddr, s.srcLen, s.dstAddr, s.dstCap, s.xpalAddr, s.xpalLen, s.dim,
      s.flags, s.pairCount, s.palColor⟩

/-- spec/40_command_protocol.md R141, spec/10_state.md R34, R52: a write of w to CMD of an idle engine issues w. CMD
keeps it, the operands are latched, STATUS shows BUSY alone, the result registers are 0, nothing else changes. -/
def Obligations.IssueLatchesOperands : Prop :=
  ∀ (s : State) (w : Word) (rest : List HostTxn),
    statusBusy s.status = false → s.host = .regWrite .word 0 w :: rest →
    ∃ t, step s = .next t ∧
      t = { s with
        cmd := w
        status := 0x00000001#32
        resultLo := 0
        resultHi := 0
        wrCursor := 0
        host := rest
        draws := t.draws
        eng := t.eng } ∧
      t.eng.ops = ⟨s.srcAddr, s.srcLen, s.dstAddr, s.dstCap, s.xpalAddr, s.xpalLen, s.dim, s.flags, s.pairCount,
        s.palColor⟩

/-- spec/40_command_protocol.md R143: a write to CMD while BUSY = 1 is ignored. It takes the host's transaction and
nothing else, and CMD reads back unchanged after the command's completion. -/
def Obligations.CmdWriteWhileBusyIgnored : Prop :=
  ∀ (s : State) (w : Word) (rest : List HostTxn),
    statusBusy s.status = true → s.eng.busyLeft ≠ 0 → s.host = .regWrite .word 0 w :: rest →
    step s = .next { s with host := rest, eng := { s.eng with busyLeft := s.eng.busyLeft - 1 } } ∧
    ∀ i, ∃ t, exec i { s with host := rest, eng := { s.eng with busyLeft := s.eng.busyLeft - 1 } } = .next t ∧
      t.cmd = s.cmd

/-- spec/10_state.md R54: while BUSY = 1 a write to any offset is ignored, STATUS reads 0x00000001, the result
registers read 0, and a read of any other register (its value unspecified) changes nothing the engine holds. -/
def Obligations.AccessWhileBusy : Prop :=
  ∀ (s : State) (off : BitVec 11) (v : Word) (rest : List HostTxn),
    s.Inv → statusBusy s.status = true → s.eng.busyLeft ≠ 0 → off.toNat % 4 = 0 →
    (s.host = .regWrite .word off v :: rest →
      step s = .next { s with host := rest, eng := { s.eng with busyLeft := s.eng.busyLeft - 1 } }) ∧
    (s.host = .regRead .word off :: rest →
      ∃ t, step s = .next t ∧
        t = { s with
          host := rest
          hostData := t.hostData
          draws := t.draws
          eng := { s.eng with busyLeft := s.eng.busyLeft - 1 } } ∧
        (off = 0x004 → t.hostData = 0x00000001#32) ∧
        (off = 0x02C ∨ off = 0x030 ∨ off = 0x03C → t.hostData = 0))

/-- spec/10_state.md R32, R33, R50: what an aligned 32-bit read of the idle engine returns at every offset. -/
def Obligations.IdleRead : Prop :=
  ∀ (s : State) (off : BitVec 11) (rest : List HostTxn), statusBusy s.status = false →
    (∀ p ∈ [((0x000 : BitVec 11), s.cmd), (0x004, s.status), (0x008, s.srcAddr), (0x00C, s.srcLen),
        (0x010, s.dstAddr), (0x014, s.dstCap), (0x018, s.xpalAddr), (0x01C, s.xpalLen.setWidth 32), (0x020, s.dim),
        (0x024, s.flags), (0x028, s.pairCount), (0x02C, s.resultLo), (0x030, s.resultHi),
        (0x034, BitVec.ofNat 32 s.palLen.val), (0x038, s.palColor), (0x03C, s.wrCursor)],
      step { s with host := .regRead .word p.1 :: rest } = .next { s with host := rest, hostData := p.2 }) ∧
    (∀ j : Fin 256, step { s with host := .regRead .word (BitVec.ofNat 11 (0x400 + 4 * j.val)) :: rest } =
      .next { s with host := rest, hostData := s.pal[j.val] }) ∧
    (off.toNat % 4 = 0 → 0x040 ≤ off.toNat → off.toNat < 0x400 →
      step { s with host := .regRead .word off :: rest } = .next { s with host := rest, hostData := 0 })

/-- spec/10_state.md R32, R33, R41, R46, R50: what an aligned 32-bit write of v to the idle engine does at every offset
but CMD's: each RW register takes it, XPAL_LEN its bits [8:0], PAL_LEN min(v[8:0], 256); the RO registers and the
unlisted offsets ignore it. -/
def Obligations.IdleWrite : Prop :=
  ∀ (s : State) (off : BitVec 11) (v : Word) (rest : List HostTxn), statusBusy s.status = false →
    (∀ p ∈ [((0x008 : BitVec 11), { s with srcAddr := v }), (0x00C, { s with srcLen := v }),
        (0x010, { s with dstAddr := v }), (0x014, { s with dstCap := v }), (0x018, { s with xpalAddr := v }),
        (0x01C, { s with xpalLen := v.extractLsb' 0 9 }), (0x020, { s with dim := v }), (0x024, { s with flags := v }),
        (0x028, { s with pairCount := v }),
        (0x034, { s with palLen := ⟨min (v.toNat % 512) 256, by omega⟩ }), (0x038, { s with palColor := v }),
        (0x004, s), (0x02C, s), (0x030, s), (0x03C, s)],
      step { s with host := .regWrite .word p.1 v :: rest } = .next { p.2 with host := rest }) ∧
    (∀ j : Fin 256, step { s with host := .regWrite .word (BitVec.ofNat 11 (0x400 + 4 * j.val)) v :: rest } =
      .next { s with host := rest, pal := s.pal.set j.val v }) ∧
    (off.toNat % 4 = 0 → 0x040 ≤ off.toNat → off.toNat < 0x400 →
      step { s with host := .regWrite .word off v :: rest } = .next { s with host := rest })

/-- spec/10_state.md R32: a sub-word or a misaligned access of the register port is outside the contract. THE MODEL'S
CHOICE (log 15, spec/93_implementation_defined.md X5): the step is refused by name, busy or idle. -/
def Obligations.AccessOutsideContractRefused : Prop :=
  ∀ (s : State) (width : PortWidth) (off : BitVec 11) (v : Word) (rest : List HostTxn),
    (width = .byte ∨ width = .half ∨ off.toNat % 4 ≠ 0) →
    (statusBusy s.status = true → s.eng.busyLeft ≠ 0) →
    (s.host = .regWrite width off v :: rest ∨ s.host = .regRead width off :: rest) →
    step s = .refused .portAccessOutsideContract

/-- spec/60_exceptions.md R263, spec/10_state.md R55: while BUSY = 0 the engine does nothing of itself, and what the
host does to memory leaves every register and the palette table as they are (one byte a transaction: log 16). -/
def Obligations.IdleKeepsRegisters : Prop :=
  ∀ (s : State) (rest : List HostTxn), statusBusy s.status = false →
    (s.host = [] → step s = .next s) ∧
    (∀ a b, s.mem.wf → s.host = .memWrite a b :: rest → ∃ t, step s = .next t ∧
      t = { s with mem := t.mem, host := rest } ∧ t.mem.wf ∧ t.mem.readByte a = b ∧
      ∀ x, x ≠ a → t.mem.readByte x = s.mem.readByte x) ∧
    (∀ a, s.host = .memRead a :: rest →
      step s = .next { s with host := rest, hostData := (s.mem.readByte a).setWidth 32 })

/-- spec/40_command_protocol.md R144, R145, spec/60_exceptions.md R251: every command completes, whatever the state:
BUSY = 0, DONE = 1, the reserved bits 0, a stride of 0, 3 or 4, and a code that R251 gives this command. Where a host
duty is broken these bounds are the model's choice (log 13). -/
def Obligations.EveryCommandCompletes : Prop :=
  ∀ (i : Instr) (s : State), ∃ t, exec i s = .next t ∧
    statusBusy t.status = false ∧ statusDone t.status = true ∧
    t.status.extractLsb' 2 6 = 0 ∧ t.status.extractLsb' 20 12 = 0 ∧
    (statusStride t.status = 0 ∨ statusStride t.status = 3 ∨ statusStride t.status = 4) ∧
    (statusErr t.status).toNat ∈ (match i with
      | .encode | .encodeKeep => [0, 3, 4, 5, 6]
      | .decode | .decodeXpal => [0, 1, 2, 3, 4, 7, 8, 9, 10]
      | .validate => [0, 1, 2, 3, 4, 8, 9]
      | .hdrParse => [0, 1, 2, 3, 8]
      | .hdrWrite => [0, 4, 6]
      | .palClear => [0]
      | .palFind | .palFindA => [0, 5]
      | .illegal _ => [11])

/-- spec/40_command_protocol.md R145: a command, once issued, completes after finitely many steps: at most one more than
the transactions of the host that are served before (log 9), whatever the host does within the port's contract. -/
def Obligations.CommandsFinish : Prop :=
  ∀ s : State, statusBusy s.status = true → (∀ t ∈ s.host, t.inContract = true) →
    ∃ n t, n ≤ s.eng.busyLeft + 1 ∧ runSteps n s = .next t ∧ statusBusy t.status = false

/-- spec/40_command_protocol.md R147: a host that only polls STATUS sees a command as one transition. Its polls change
nothing but what the host itself holds, and return STATUS as it stands at issue. The number of polls served is the
model's choice (log 9). -/
def Obligations.PolledCommandIsOneTransition : Prop :=
  ∀ (s : State) (n : Nat), statusBusy s.status = true → s.host = List.replicate n (.regRead .word 4) →
    runSteps (min n s.eng.busyLeft + 1) s = exec (decode s.cmd)
      { s with
        host := s.host.drop s.eng.busyLeft
        hostData := if min n s.eng.busyLeft = 0 then s.hostData else s.status }

/-! ### Reset (spec/70_reset_and_hazards.md) -/

/-- spec/10_state.md R33, R56, spec/70_reset_and_hazards.md R282: after reset every register of R33 reads 0, the engine
is idle and the palette is empty. -/
def Obligations.ResetState : Prop :=
  State.reset.cmd = 0 ∧ State.reset.status = 0 ∧ State.reset.srcAddr = 0 ∧ State.reset.srcLen = 0 ∧
  State.reset.dstAddr = 0 ∧ State.reset.dstCap = 0 ∧ State.reset.xpalAddr = 0 ∧ State.reset.xpalLen = 0 ∧
  State.reset.dim = 0 ∧ State.reset.flags = 0 ∧ State.reset.pairCount = 0 ∧ State.reset.resultLo = 0 ∧
  State.reset.resultHi = 0 ∧ State.reset.palLen = 0 ∧ State.reset.palColor = 0 ∧ State.reset.wrCursor = 0 ∧
  State.reset.palette = [] ∧ statusBusy State.reset.status = false ∧ statusDone State.reset.status = false ∧
  statusErr State.reset.status = 0 ∧ statusStride State.reset.status = 0

/-- spec/70_reset_and_hazards.md R280: a reset, idle or busy: a running command is abandoned, every register takes its
reset value, each palette entry is a fresh draw, and memory is unchanged but for the destination of the command that
was running. -/
def Obligations.ResetEvent : Prop :=
  ∀ (s : State) (rest : List HostTxn), (statusBusy s.status = true → s.eng.busyLeft ≠ 0) →
    s.host = .reset :: rest →
    ∃ t, step s = .next t ∧
      t = { State.reset with
        pal := t.pal
        mem := t.mem
        host := rest
        hostData := s.hostData
        draws := t.draws
        eng := t.eng } ∧
      (∀ j : Fin 256, t.pal[j.val] = Config.draw (s.draws + j.val)) ∧ s.draws + 256 ≤ t.draws ∧
      (statusBusy s.status = false → t.mem = s.mem) ∧
      ∀ a : Word, s.eng.ops.dstCap.toNat ≤ (a - s.eng.ops.dstAddr).toNat → t.mem.readByte a = s.mem.readByte a

/-! ### What holds of the whole machine -/

/-- spec/10_state.md R35, R45, R49, R51, R52, R54: every step keeps the invariant: the memory's canonical form, a legal
STATUS, result registers that read 0 while a command runs, and latched operands equal to the registers. That the dead
internal state holds zeros is the model's choice (log 5). -/
def Obligations.StepKeepsInvariant : Prop := ∀ s t : State, s.Inv → step s = .next t → t.Inv

/-- spec/10_state.md R56: the state after reset meets the invariant (its dead internal state: log 5). -/
def Obligations.ResetMeetsInvariant : Prop := State.reset.Inv

/-- spec/10_state.md R36 to R41, R47: the engine never writes the registers that only carry operands, nor CMD. -/
def Obligations.EngineKeepsOperandRegisters : Prop :=
  ∀ (i : Instr) (s : State), ∃ t, exec i s = .next t ∧ t.cmd = s.cmd ∧ t.srcAddr = s.srcAddr ∧ t.srcLen = s.srcLen ∧
    t.dstAddr = s.dstAddr ∧ t.dstCap = s.dstCap ∧ t.xpalAddr = s.xpalAddr ∧ t.xpalLen = s.xpalLen ∧
    t.palColor = s.palColor

/-- spec/10_state.md R39, spec/20_memory.md R88, R89: no command writes memory outside its destination
[DST_ADDR, DST_ADDR + DST_CAP), and only ENCODE, DECODE and HDR_WRITE write memory at all. Where a host duty is broken
this is the model's choice (log 13). -/
def Obligations.MemoryOutsideDestinationKept : Prop :=
  ∀ (i : Instr) (s : State), ∃ t, exec i s = .next t ∧
    (∀ a : Word, s.eng.ops.dstCap.toNat ≤ (a - s.eng.ops.dstAddr).toNat → t.mem.readByte a = s.mem.readByte a) ∧
    (i ≠ .encode → i ≠ .encodeKeep → i ≠ .decode → i ≠ .decodeXpal → i ≠ .hdrWrite → t.mem = s.mem)

/-- spec/10_state.md R53, spec/60_exceptions.md R253 items 4 and 5: DIM and FLAGS are written by HDR_PARSE, VALIDATE and
DECODE alone; PAL_LEN and PAL[*] by ENCODE, PAL_CLEAR and PAL_FIND alone; PAIR_COUNT by ENCODE too. Where a host duty
is broken this is the model's choice (log 13). -/
def Obligations.RegistersACommandMayWrite : Prop :=
  ∀ (i : Instr) (s : State), ∃ t, exec i s = .next t ∧
    (i ≠ .hdrParse → i ≠ .validate → i ≠ .decode → i ≠ .decodeXpal → t.dim = s.dim ∧ t.flags = s.flags ∧
      (i ≠ .encode → i ≠ .encodeKeep → t.pairCount = s.pairCount)) ∧
    (i ≠ .encode → i ≠ .encodeKeep → i ≠ .palClear → i ≠ .palFind → i ≠ .palFindA →
      t.pal = s.pal ∧ t.palLen = s.palLen)

/-- spec/45_rle_decoder.md R231: DECODE never reads or writes the palette table: with another table it does the same,
and it leaves the table as it is. -/
def Obligations.DecodeIgnoresPaletteTable : Prop :=
  ∀ (i : Instr) (s : State), i = .decode ∨ i = .decodeXpal →
    ∃ t, exec i s = .next t ∧ t.pal = s.pal ∧ t.palLen = s.palLen ∧
      ∀ pal palLen, exec i { s with pal := pal, palLen := palLen } = .next { t with pal := pal, palLen := palLen }

/-- spec/10_state.md R51, R53: a command starts its internal state afresh and reads neither STATUS nor the results of
the command before it (the mark of a disturbed buffer is the model's own: log 16). -/
def Obligations.EarlierResultsDoNotMatter : Prop :=
  ∀ (i : Instr) (s : State) (st lo hi wc : Word) (e : Engine), e.ops = s.eng.ops → e.disturbed = s.eng.disturbed →
    exec i { s with status := st, resultLo := lo, resultHi := hi, wrCursor := wc, eng := e } = exec i s

/-- spec/00_scope.md R13, spec/20_memory.md R80: bytes written to memory read back, every other byte keeps its value, and
the memory keeps its canonical form, whatever the address. -/
def Obligations.WrittenBytesReadBack : Prop :=
  ∀ (m : Memory) (a : Word) (bs : List Byte), m.wf → bs.length ≤ 4294967296 →
    (m.writeBytes a bs).wf ∧ (m.writeBytes a bs).readBytes a bs.length = bs ∧
    ∀ x : Word, bs.length ≤ (x - a).toNat → (m.writeBytes a bs).readByte x = m.readByte x

/-! ### The palette table (spec/43_palette_table.md) -/

/-- spec/43_palette_table.md R194: PAL_CLEAR empties the palette, keeps the contents of PAL, and changes nothing else. -/
def Obligations.PalClear : Prop :=
  decode 0x00000006#32 = .palClear ∧ ∀ s : State, ∃ t, exec .palClear s = .next t ∧
    t = { s with
      status := 0x00000002#32
      resultLo := 0
      resultHi := 0
      wrCursor := 0
      palLen := 0
      eng := t.eng } ∧
    t.palette = []

/-- spec/43_palette_table.md R195, R191, R192: PAL_FIND compares and stores the three bytes B0, B1, B2. A colour of the
palette gives its lowest index and changes nothing; a new one is stored at the end with B3 = 0; a new one in a full
table is TooManyColors. -/
def Obligations.PalFind : Prop :=
  ∀ s : State,
    let c := s.eng.ops.palColor &&& 0x00FFFFFF#32
    let hit := fun j => s.palEntry j &&& 0x00FFFFFF#32 = c
    ∃ t, exec .palFind s = .next t ∧
      (∀ j, j < s.palLen.val → hit j → (∀ k, k < j → ¬ hit k) →
        t = { s with
          status := 0x00030002#32, resultLo := BitVec.ofNat 32 j, resultHi := 0, wrCursor := 0, eng := t.eng }) ∧
      ((∀ j, j < s.palLen.val → ¬ hit j) → s.palLen.val < 256 →
        t = { s with
          status := 0x00030002#32, resultLo := BitVec.ofNat 32 s.palLen.val, resultHi := 0, wrCursor := 0
          pal := s.pal.setIfInBounds s.palLen.val c, palLen := t.palLen, eng := t.eng } ∧
        t.palLen.val = s.palLen.val + 1) ∧
      ((∀ j, j < s.palLen.val → ¬ hit j) → s.palLen.val = 256 →
        t = { s with status := 0x00030502#32, resultLo := 0, resultHi := 0, wrCursor := 0, eng := t.eng })

/-- spec/43_palette_table.md R195, R191, R192: PAL_FIND.A compares and stores all four bytes. -/
def Obligations.PalFindA : Prop :=
  ∀ s : State,
    let c := s.eng.ops.palColor
    let hit := fun j => s.palEntry j = c
    ∃ t, exec .palFindA s = .next t ∧
      (∀ j, j < s.palLen.val → hit j → (∀ k, k < j → ¬ hit k) →
        t = { s with
          status := 0x00040002#32, resultLo := BitVec.ofNat 32 j, resultHi := 0, wrCursor := 0, eng := t.eng }) ∧
      ((∀ j, j < s.palLen.val → ¬ hit j) → s.palLen.val < 256 →
        t = { s with
          status := 0x00040002#32, resultLo := BitVec.ofNat 32 s.palLen.val, resultHi := 0, wrCursor := 0
          pal := s.pal.setIfInBounds s.palLen.val c, palLen := t.palLen, eng := t.eng } ∧
        t.palLen.val = s.palLen.val + 1) ∧
      ((∀ j, j < s.palLen.val → ¬ hit j) → s.palLen.val = 256 →
        t = { s with status := 0x00040502#32, resultLo := 0, resultHi := 0, wrCursor := 0, eng := t.eng })

/-- spec/43_palette_table.md R196: find-or-insert under one stride keeps the palette's entries distinct on their first
st bytes: offering any colours to an empty table gives distinct entries, and PAL_FIND and PAL_FIND.A keep a table
distinct. -/
def Obligations.PaletteEntriesStayDistinct : Prop :=
  (∀ (st : Nat) (cs : List Word), st = 3 ∨ st = 4 →
    ((growPalette st [] cs).map (colorBytes st)).Nodup) ∧
  ∀ s : State,
    ((s.palette.map (colorBytes 3)).Nodup →
      ∃ t, exec .palFind s = .next t ∧ (t.palette.map (colorBytes 3)).Nodup) ∧
    ((s.palette.map (colorBytes 4)).Nodup →
      ∃ t, exec .palFindA s = .next t ∧ (t.palette.map (colorBytes 4)).Nodup)

/-! ### The header codec (spec/42_header_codec.md) -/

/-- spec/42_header_codec.md R172, R173: HDR_PARSE of a header the serializer could have written, reserved flags and a
pair count of 0 included, loads its fields and gives W × H × s in 64 bits. -/
def Obligations.HdrParseGivesFieldsAndSize : Prop :=
  ∀ (s : State) (w h : BitVec 16) (f p : Word), SourceReady s → 16 ≤ s.eng.ops.srcLen.toNat → w ≠ 0 → h ≠ 0 →
    s.mem.readBytes s.eng.ops.srcAddr 16 = serializeHeader w h f p →
    ∃ t, exec .hdrParse s = .next t ∧
      t = { s with
        status := statusWord (strideOf f) 0
        dim := dimWord w h
        flags := f
        pairCount := p
        resultLo := BitVec.ofNat 32 (w.toNat * h.toNat * strideOf f)
        resultHi := BitVec.ofNat 32 (w.toNat * h.toNat * strideOf f / 2 ^ 32)
        wrCursor := 0
        eng := t.eng }

/-- spec/42_header_codec.md R171: HDR_PARSE makes its checks in order and reports the first that fails; once the header
is read, its fields are loaded whatever the report. -/
def Obligations.HdrParseChecksInOrder : Prop :=
  ∀ s : State,
    (s.eng.ops.srcLen.toNat < 16 → ∃ t, exec .hdrParse s = .next t ∧
      t = { s with status := statusWord 0 8, resultLo := 0, resultHi := 0, wrCursor := 0, eng := t.eng }) ∧
    ∀ h code, SourceReady s → 16 ≤ s.eng.ops.srcLen.toNat → h = readHeader s.eng.ops s.mem →
      code = (if h.magic ≠ Config.pieMagic then 1
        else if h.version ≠ Config.pieVersion then 2
        else if h.width = 0 ∨ h.height = 0 then 3
        else 0) →
      code ≠ 0 →
      ∃ t, exec .hdrParse s = .next t ∧
        t = { s with
          status := statusWord (strideOf h.flags) code
          dim := dimWord h.width h.height
          flags := h.flags
          pairCount := h.pairCount
          resultLo := 0
          resultHi := 0
          wrCursor := 0
          eng := t.eng }

/-- spec/42_header_codec.md R175: HDR_WRITE, where it raises nothing, writes the 16 bytes of the header. -/
def Obligations.HdrWriteWritesTheHeader : Prop :=
  ∀ s : State, DestReady s → s.mem.wf → reservedFlags s.eng.ops.flags = 0 → 16 ≤ s.eng.ops.dstCap.toNat →
    ∃ t, exec .hdrWrite s = .next t ∧
      t = { s with
        status := statusWord (strideOf s.eng.ops.flags) 0
        resultLo := 16
        resultHi := 0
        wrCursor := 16
        mem := t.mem
        eng := t.eng } ∧
      t.mem.readBytes s.eng.ops.dstAddr 16 =
        Config.pieMagic ++ [Config.pieVersion] ++ le32 s.eng.ops.flags ++ le16 (dimWidth s.eng.ops.dim)
          ++ le16 (dimHeight s.eng.ops.dim) ++ le32 s.eng.ops.pairCount ∧
      ∀ a : Word, 16 ≤ (a - s.eng.ops.dstAddr).toNat → t.mem.readByte a = s.mem.readByte a

/-- spec/42_header_codec.md R176, R175, spec/60_exceptions.md R254: HDR_WRITE refuses reserved flags first, then a
destination of fewer than 16 bytes, and writes nothing. -/
def Obligations.HdrWriteRefusals : Prop :=
  ∀ s : State,
    (reservedFlags s.eng.ops.flags ≠ 0 → ∃ t, exec .hdrWrite s = .next t ∧
      t = { s with status := statusWord 0 4, resultLo := 0, resultHi := 0, wrCursor := 0, eng := t.eng }) ∧
    (reservedFlags s.eng.ops.flags = 0 → s.eng.ops.dstCap.toNat < 16 → ∃ t, exec .hdrWrite s = .next t ∧
      t = { s with
        status := statusWord (strideOf s.eng.ops.flags) 6
        resultLo := 0
        resultHi := 0
        wrCursor := 0
        eng := t.eng })

/-- spec/42_header_codec.md R177: a header that HDR_WRITE wrote, W and H not 0, is parsed to the same fields, wherever
the next command finds it. -/
def Obligations.HeaderRoundTrip : Prop :=
  ∀ s t u : State, DestReady s → s.mem.wf → reservedFlags s.eng.ops.flags = 0 → 16 ≤ s.eng.ops.dstCap.toNat →
    dimWidth s.eng.ops.dim ≠ 0 → dimHeight s.eng.ops.dim ≠ 0 → exec .hdrWrite s = .next t →
    u.mem = t.mem → u.eng.ops.srcAddr = s.eng.ops.dstAddr → 16 ≤ u.eng.ops.srcLen.toNat → SourceReady u →
    ∃ v, exec .hdrParse u = .next v ∧ statusErr v.status = 0 ∧ v.dim = s.eng.ops.dim ∧ v.flags = s.eng.ops.flags ∧
      v.pairCount = s.eng.ops.pairCount

/-! ### The validator (spec/46_format_validator.md) -/

/-- spec/46_format_validator.md R242: VALIDATE of a stream that passes every check. -/
def Obligations.ValidateAccepts : Prop :=
  ∀ (s : State) (h : Header), SourceReady s → StreamValid s.eng.ops s.mem → h = readHeader s.eng.ops s.mem →
    ∃ t, exec .validate s = .next t ∧
      t = { s with
        status := statusWord (strideOf h.flags) 0
        dim := dimWord h.width h.height
        flags := h.flags
        pairCount := h.pairCount
        resultLo := BitVec.ofNat 32 (h.width.toNat * h.height.toNat * strideOf h.flags)
        resultHi := BitVec.ofNat 32 (h.width.toNat * h.height.toNat * strideOf h.flags / 2 ^ 32)
        wrCursor := 0
        eng := t.eng }

/-- spec/46_format_validator.md R241: Validate makes its eight checks in order and reports the first that fails. -/
def Obligations.ValidateChecksInOrder : Prop :=
  ∀ s : State,
    (s.eng.ops.srcLen.toNat < 16 → ∃ t, exec .validate s = .next t ∧
      t = { s with status := statusWord 0 8, resultLo := 0, resultHi := 0, wrCursor := 0, eng := t.eng }) ∧
    ∀ h code, SourceReady s → 16 ≤ s.eng.ops.srcLen.toNat → h = readHeader s.eng.ops s.mem →
      code = (if h.magic ≠ Config.pieMagic then 1
        else if h.version ≠ Config.pieVersion then 2
        else if h.width = 0 ∨ h.height = 0 then 3
        else if h.flags.extractLsb' 2 30 ≠ 0 then 4
        else if h.pairCount = 0 then 9
        else if s.eng.ops.srcLen.toNat < 16 + 2 * h.pairCount.toNat then 8
        else if h.flags.getLsbD 0 = true ∧
          s.eng.ops.srcLen.toNat < 16 + 2 * h.pairCount.toNat + (3 + (h.flags.getLsbD 1).toNat) then 8
        else 0) →
      code ≠ 0 →
      ∃ t, exec .validate s = .next t ∧
        t = { s with
          status := statusWord (strideOf h.flags) code
          dim := dimWord h.width h.height
          flags := h.flags
          pairCount := h.pairCount
          resultLo := 0
          resultHi := 0
          wrCursor := 0
          eng := t.eng }

/-! ### The encoder (spec/44_rle_encoder.md) -/

/-- spec/44_rle_encoder.md R200, R207, spec/20_memory.md R88: what a successful ENCODE leaves. -/
def Obligations.EncodeWritesTheStream : Prop :=
  ∀ s : State, EncodeReady s [] → ∃ t, exec .encode s = .next t ∧
    t = { s with
      status := statusWord (strideOf s.eng.ops.flags) 0
      pairCount := BitVec.ofNat 32 (encodedPairs s.eng.ops s.mem []).length
      resultLo := BitVec.ofNat 32 (encodedLength s.eng.ops s.mem [])
      resultHi := 0
      wrCursor := BitVec.ofNat 32 (encodedLength s.eng.ops s.mem [])
      palLen := t.palLen
      pal := t.pal
      mem := t.mem
      eng := t.eng } ∧
    t.palette = encodedPalette s.eng.ops s.mem [] ∧
    (∀ j, t.palette.length ≤ j → t.palEntry j = s.palEntry j) ∧
    t.mem.readBytes s.eng.ops.dstAddr (encodedLength s.eng.ops s.mem []) = encodedStream s.eng.ops s.mem [] ∧
    ∀ a : Word, encodedLength s.eng.ops s.mem [] ≤ (a - s.eng.ops.dstAddr).toNat →
      t.mem.readByte a = s.mem.readByte a

/-- spec/44_rle_encoder.md R200, R213, R206: the same of ENCODE.KEEP, whose palette starts with the entries it found. -/
def Obligations.EncodeKeepWritesTheStream : Prop :=
  ∀ s : State, EncodeReady s s.palette → ∃ t, exec .encodeKeep s = .next t ∧
    t = { s with
      status := statusWord (strideOf s.eng.ops.flags) 0
      pairCount := BitVec.ofNat 32 (encodedPairs s.eng.ops s.mem s.palette).length
      resultLo := BitVec.ofNat 32 (encodedLength s.eng.ops s.mem s.palette)
      resultHi := 0
      wrCursor := BitVec.ofNat 32 (encodedLength s.eng.ops s.mem s.palette)
      palLen := t.palLen
      pal := t.pal
      mem := t.mem
      eng := t.eng } ∧
    t.palette = encodedPalette s.eng.ops s.mem s.palette ∧
    (∀ j, t.palette.length ≤ j → t.palEntry j = s.palEntry j) ∧
    t.mem.readBytes s.eng.ops.dstAddr (encodedLength s.eng.ops s.mem s.palette) =
      encodedStream s.eng.ops s.mem s.palette ∧
    ∀ a : Word, encodedLength s.eng.ops s.mem s.palette ≤ (a - s.eng.ops.dstAddr).toNat →
      t.mem.readByte a = s.mem.readByte a

/-- spec/44_rle_encoder.md R211: the palette holds the image's colours in the order of their first occurrence; with
KEEP_PAL = 1 the entries found come first, and the colours that match none of them follow. -/
def Obligations.EncodePaletteOrder : Prop :=
  ∀ s : State,
    (EncodeReady s [] → ∃ t, exec .encode s = .next t ∧
      t.palette = firstOccurrences (imagePixels s.eng.ops s.mem)) ∧
    (EncodeReady s s.palette → ∃ t, exec .encodeKeep s = .next t ∧
      t.palette = s.palette ++ firstOccurrences ((imagePixels s.eng.ops s.mem).filter fun c =>
        !s.palette.any fun e => sameColor (strideOf s.eng.ops.flags) e c))

/-- spec/44_rle_encoder.md R210: the output of a successful ENCODE is well-formed over the palette it leaves. -/
def Obligations.EncodeOutputWellFormed : Prop :=
  ∀ s : State,
    (EncodeReady s [] → ∃ t, exec .encode s = .next t ∧
      WellFormedStream (readBack s.eng.ops t.resultLo) t.mem t.palLen.val) ∧
    (EncodeReady s s.palette → ∃ t, exec .encodeKeep s = .next t ∧
      WellFormedStream (readBack s.eng.ops t.resultLo) t.mem t.palLen.val)

/-- spec/44_rle_encoder.md R209: a uniform image of N pixels gives ceil(N/255) pairs, each but the last of 255 pixels,
the last of 1 to 255. With an empty palette their index is 0. -/
def Obligations.UniformImage : Prop :=
  ∀ (s : State) (q r : Nat), (∀ i, i < s.eng.ops.pixels → pixelAt s.eng.ops s.mem i = pixelAt s.eng.ops s.mem 0) →
    q = (s.eng.ops.pixels + 254) / 255 → r = s.eng.ops.pixels - 255 * (q - 1) →
    (EncodeReady s [] → 1 ≤ r ∧ r ≤ 255 ∧ ∃ t, exec .encode s = .next t ∧ t.pairCount.toNat = q ∧
      streamPairs (readBack s.eng.ops t.resultLo) t.mem = List.replicate (q - 1) (255, 0) ++ [(r, 0)]) ∧
    (EncodeReady s s.palette → 1 ≤ r ∧ r ≤ 255 ∧ ∃ t idx, exec .encodeKeep s = .next t ∧ t.pairCount.toNat = q ∧
      streamPairs (readBack s.eng.ops t.resultLo) t.mem = List.replicate (q - 1) (255, idx) ++ [(r, idx)])

/-- spec/44_rle_encoder.md R212, R215, spec/42_header_codec.md R176, spec/60_exceptions.md R253: ENCODE's errors before
its scan, in order: reserved flags, a zero dimension, a destination without room for the header. Memory, DIM, FLAGS and
PAIR_COUNT stay; at the third error the stride is fixed and, without KEEP_PAL, the table is already empty. -/
def Obligations.EncodeChecksInOrder : Prop :=
  ∀ (i : Instr) (s : State), i = .encode ∨ i = .encodeKeep →
    (reservedFlags s.eng.ops.flags ≠ 0 → ∃ t, exec i s = .next t ∧
      t = { s with status := statusWord 0 4, resultLo := 0, resultHi := 0, wrCursor := 0, eng := t.eng }) ∧
    (reservedFlags s.eng.ops.flags = 0 → dimWidth s.eng.ops.dim = 0 ∨ dimHeight s.eng.ops.dim = 0 →
      ∃ t, exec i s = .next t ∧
        t = { s with status := statusWord 0 3, resultLo := 0, resultHi := 0, wrCursor := 0, eng := t.eng }) ∧
    (reservedFlags s.eng.ops.flags = 0 → dimWidth s.eng.ops.dim ≠ 0 → dimHeight s.eng.ops.dim ≠ 0 →
      s.eng.ops.dstCap.toNat < 16 → ∃ t, exec i s = .next t ∧
        t = { s with
          status := statusWord (strideOf s.eng.ops.flags) 6
          resultLo := 0
          resultHi := 0
          wrCursor := 0
          palLen := if i = .encode then 0 else s.palLen
          eng := t.eng })

/-- spec/41_buffer_writer.md R164: the writer's final cursor on success is `16 + 2P + (EMBED ? L×s : 0)` for ENCODE and
16 for HDR_WRITE, and a capacity below it, one byte short included, makes the command raise OutputTooLarge. -/
def Obligations.CapacityEnforced : Prop :=
  ∀ s : State,
    (EncodeStarts s → (encodedPalette s.eng.ops s.mem []).length ≤ 256 → ∃ t, exec .encode s = .next t ∧
      (encodedLength s.eng.ops s.mem [] ≤ s.eng.ops.dstCap.toNat →
        statusErr t.status = 0 ∧ t.wrCursor.toNat = encodedLength s.eng.ops s.mem []) ∧
      (s.eng.ops.dstCap.toNat < encodedLength s.eng.ops s.mem [] →
        statusErr t.status = 6 ∧ t.resultLo = 0 ∧ t.wrCursor.toNat ≤ s.eng.ops.dstCap.toNat)) ∧
    (EncodeStarts s → (encodedPalette s.eng.ops s.mem s.palette).length ≤ 256 → ∃ t, exec .encodeKeep s = .next t ∧
      (encodedLength s.eng.ops s.mem s.palette ≤ s.eng.ops.dstCap.toNat →
        statusErr t.status = 0 ∧ t.wrCursor.toNat = encodedLength s.eng.ops s.mem s.palette) ∧
      (s.eng.ops.dstCap.toNat < encodedLength s.eng.ops s.mem s.palette →
        statusErr t.status = 6 ∧ t.resultLo = 0 ∧ t.wrCursor.toNat ≤ s.eng.ops.dstCap.toNat)) ∧
    (DestReady s → reservedFlags s.eng.ops.flags = 0 → ∃ t, exec .hdrWrite s = .next t ∧
      (16 ≤ s.eng.ops.dstCap.toNat → statusErr t.status = 0 ∧ t.wrCursor = 16) ∧
      (s.eng.ops.dstCap.toNat < 16 → statusErr t.status = 6 ∧ t.resultLo = 0))

/-- spec/44_rle_encoder.md R212, spec/60_exceptions.md R253: an image whose colours, with the entries the palette starts
with, come to more than 256 ends in TooManyColors where the destination has room for every pair. The table is then full
of the first 256, PAIR_COUNT and WR_CURSOR tell the pairs written, and memory outside the destination is unchanged. -/
def Obligations.TooManyColors : Prop :=
  ∀ (i : Instr) (s : State) (seed : List Word), (i = .encode ∧ seed = []) ∨ (i = .encodeKeep ∧ seed = s.palette) →
    EncodeStarts s → 256 < (encodedPalette s.eng.ops s.mem seed).length →
    16 + 2 * (splitRuns (imagePixels s.eng.ops s.mem)).length ≤ s.eng.ops.dstCap.toNat →
    ∃ t, exec i s = .next t ∧
      t = { s with
        status := statusWord (strideOf s.eng.ops.flags) 5
        pairCount := t.pairCount
        resultLo := 0
        resultHi := 0
        wrCursor := t.wrCursor
        palLen := 256
        pal := t.pal
        mem := t.mem
        draws := t.draws
        eng := t.eng } ∧
      t.palette = (encodedPalette s.eng.ops s.mem seed).take 256 ∧
      t.wrCursor.toNat = 16 + 2 * t.pairCount.toNat ∧
      ∀ a : Word, s.eng.ops.dstCap.toNat ≤ (a - s.eng.ops.dstAddr).toNat → t.mem.readByte a = s.mem.readByte a

/-- spec/46_format_validator.md R244: the output of a successful ENCODE passes Validate, with SRC_LEN its length. -/
def Obligations.EncodeOutputPassesValidate : Prop :=
  ∀ (i : Instr) (s t u : State) (seed : List Word),
    (i = .encode ∧ seed = []) ∨ (i = .encodeKeep ∧ seed = s.palette) → EncodeReady s seed → exec i s = .next t →
    u.mem = t.mem → u.eng.ops.srcAddr = s.eng.ops.dstAddr → u.eng.ops.srcLen = t.resultLo → u.eng.disturbed = false →
    ∃ v, exec .validate u = .next v ∧ statusErr v.status = 0 ∧
      v.dim = s.eng.ops.dim ∧ v.flags = s.eng.ops.flags ∧ v.pairCount = t.pairCount

/-! ### The decoder (spec/45_rle_decoder.md) -/

/-- spec/45_rle_decoder.md R220, R224, R225, spec/20_memory.md R88: a successful DECODE writes the pixels of the pairs'
runs over the stream's palette slice, loads the header's fields, and leaves everything else. -/
def Obligations.DecodeWritesThePixels : Prop :=
  ∀ (s : State) (h : Header) (n : Nat), DecodeReady false s → PairsSound false s.eng.ops s.mem →
    h = readHeader s.eng.ops s.mem → n = h.width.toNat * h.height.toNat * strideOf h.flags →
    ∃ t, exec .decode s = .next t ∧
      t = { s with
        status := statusWord (strideOf h.flags) 0
        dim := dimWord h.width h.height
        flags := h.flags
        pairCount := h.pairCount
        resultLo := BitVec.ofNat 32 n
        resultHi := 0
        wrCursor := BitVec.ofNat 32 n
        mem := t.mem
        eng := t.eng } ∧
      t.mem.readBytes s.eng.ops.dstAddr n = replayedBytes s.mem (streamSlice false s.eng.ops s.mem).1
        (strideOf h.flags) (streamPairs s.eng.ops s.mem) ∧
      ∀ a : Word, n ≤ (a - s.eng.ops.dstAddr).toNat → t.mem.readByte a = s.mem.readByte a

/-- spec/45_rle_decoder.md R220, R224: the same of DECODE.XPAL, whose palette is the external one. -/
def Obligations.DecodeXpalWritesThePixels : Prop :=
  ∀ (s : State) (h : Header) (n : Nat), DecodeReady true s → PairsSound true s.eng.ops s.mem →
    h = readHeader s.eng.ops s.mem → n = h.width.toNat * h.height.toNat * strideOf h.flags →
    ∃ t, exec .decodeXpal s = .next t ∧
      t = { s with
        status := statusWord (strideOf h.flags) 0
        dim := dimWord h.width h.height
        flags := h.flags
        pairCount := h.pairCount
        resultLo := BitVec.ofNat 32 n
        resultHi := 0
        wrCursor := BitVec.ofNat 32 n
        mem := t.mem
        eng := t.eng } ∧
      t.mem.readBytes s.eng.ops.dstAddr n = replayedBytes s.mem s.eng.ops.xpalAddr
        (strideOf h.flags) (streamPairs s.eng.ops s.mem) ∧
      ∀ a : Word, n ≤ (a - s.eng.ops.dstAddr).toNat → t.mem.readByte a = s.mem.readByte a

/-- spec/45_rle_decoder.md R221: DECODE runs VALIDATE's checks, in VALIDATE's order, before anything else: on a stream
that fails one it leaves exactly what VALIDATE leaves. -/
def Obligations.DecodeValidatesFirst : Prop :=
  ∀ (i : Instr) (s : State), i = .decode ∨ i = .decodeXpal → SourceReady s → ¬ StreamValid s.eng.ops s.mem →
    ∃ t, exec i s = .next t ∧ exec .validate s = .next t ∧ statusErr t.status ≠ 0

/-- spec/45_rle_decoder.md R223: the destination check is made once, before any write, on the exact size. -/
def Obligations.DestinationTooSmall : Prop :=
  ∀ (i : Instr) (s : State) (h : Header), i = .decode ∨ i = .decodeXpal → SourceReady s →
    StreamValid s.eng.ops s.mem → h = readHeader s.eng.ops s.mem →
    s.eng.ops.dstCap.toNat < h.width.toNat * h.height.toNat * strideOf h.flags →
    ∃ t, exec i s = .next t ∧
      t = { s with
        status := statusWord (strideOf h.flags) 7
        dim := dimWord h.width h.height
        flags := h.flags
        pairCount := h.pairCount
        resultLo := 0
        resultHi := 0
        wrCursor := 0
        eng := t.eng }

/-- spec/45_rle_decoder.md R227, R226: a stream that breaks the pair invariants ends in CorruptStream. WR_CURSOR tells
the bytes of the pairs before the failing one; where there is none, memory is unchanged, and memory outside the
destination always is. -/
def Obligations.CorruptStream : Prop :=
  ∀ (i : Instr) (ext : Bool) (s : State) (h : Header), (i = .decode ∧ ext = false) ∨ (i = .decodeXpal ∧ ext = true) →
    DecodeReady ext s → ¬ PairsSound ext s.eng.ops s.mem → h = readHeader s.eng.ops s.mem →
    ∃ t, exec i s = .next t ∧
      t = { s with
        status := statusWord (strideOf h.flags) 10
        dim := dimWord h.width h.height
        flags := h.flags
        pairCount := h.pairCount
        resultLo := 0
        resultHi := 0
        wrCursor := BitVec.ofNat 32 (runTotal (replayedPairs ext s.eng.ops s.mem) * strideOf h.flags)
        mem := t.mem
        draws := t.draws
        eng := t.eng } ∧
      (replayedPairs ext s.eng.ops s.mem = [] → t.mem = s.mem) ∧
      ∀ a : Word, s.eng.ops.dstCap.toNat ≤ (a - s.eng.ops.dstAddr).toNat → t.mem.readByte a = s.mem.readByte a

/-- spec/45_rle_decoder.md R230: a stream with an embedded palette of L entries does the same under DECODE and under
DECODE.XPAL, where XPAL holds the same L entries. -/
def Obligations.EmbeddedAndExternalAgree : Prop :=
  ∀ (s : State) (h : Header), DecodeReady false s → DecodeReady true s → h = readHeader s.eng.ops s.mem →
    embedBit h.flags = true →
    (streamSlice true s.eng.ops s.mem).2 = (streamSlice false s.eng.ops s.mem).2 →
    s.mem.readBytes s.eng.ops.xpalAddr ((streamSlice false s.eng.ops s.mem).2 * strideOf h.flags) =
      s.mem.readBytes (s.eng.ops.srcAddr + BitVec.ofNat 32 (16 + 2 * h.pairCount.toNat))
        ((streamSlice false s.eng.ops s.mem).2 * strideOf h.flags) →
    ∃ t, exec .decode s = .next t ∧ exec .decodeXpal s = .next t

/-- spec/45_rle_decoder.md R229: decoding what ENCODE wrote gives the image back: with the palette embedded, or, without,
with XPAL holding the palette that ENCODE left. -/
def Obligations.EncodeDecodeRoundTrip : Prop :=
  ∀ s t u : State, EncodeReady s [] → exec .encode s = .next t →
    u.mem.wf → u.eng.disturbed = false →
    u.eng.ops.srcLen = t.resultLo →
    u.mem.readBytes u.eng.ops.srcAddr t.resultLo.toNat = t.mem.readBytes s.eng.ops.dstAddr t.resultLo.toNat →
    noWrap u.eng.ops.srcAddr u.eng.ops.srcLen.toNat → noWrap u.eng.ops.dstAddr u.eng.ops.dstCap.toNat →
    apart u.eng.ops.dstAddr u.eng.ops.dstCap.toNat u.eng.ops.srcAddr u.eng.ops.srcLen.toNat →
    s.eng.ops.pixels * strideOf s.eng.ops.flags ≤ u.eng.ops.dstCap.toNat →
    (embedBit s.eng.ops.flags = false →
      u.eng.ops.xpalLen.toNat = t.palLen.val ∧
      noWrap u.eng.ops.xpalAddr (t.palLen.val * strideOf s.eng.ops.flags) ∧
      apart u.eng.ops.dstAddr u.eng.ops.dstCap.toNat u.eng.ops.xpalAddr (t.palLen.val * strideOf s.eng.ops.flags) ∧
      u.mem.readBytes u.eng.ops.xpalAddr (t.palLen.val * strideOf s.eng.ops.flags) =
        t.palette.flatMap (colorBytes (strideOf s.eng.ops.flags))) →
    ∃ v, exec .decode u = .next v ∧ statusErr v.status = 0 ∧
      v.mem.readBytes u.eng.ops.dstAddr (s.eng.ops.pixels * strideOf s.eng.ops.flags) =
        s.mem.readBytes s.eng.ops.srcAddr (s.eng.ops.pixels * strideOf s.eng.ops.flags)

/-! ### The illegal word (spec/40_command_protocol.md) -/

/-- spec/40_command_protocol.md R146: an illegal word completes with IllegalCommand: STATUS is 0x00000B02, RESULT and
WR_CURSOR are 0, nothing else changes. -/
def Obligations.IllegalCommand : Prop :=
  decode 0x00000000#32 = .illegal 0x00000000#32 ∧ decode 0x00000201#32 = .illegal 0x00000201#32 ∧
  decode 0x00000107#32 = .illegal 0x00000107#32 ∧ decode 0x00000008#32 = .illegal 0x00000008#32 ∧
  ∀ (w : Word) (s : State), ∃ t, exec (.illegal w) s = .next t ∧
    t = { s with status := 0x00000B02#32, resultLo := 0, resultHi := 0, wrCursor := 0, eng := t.eng }

end
end

