-- ==== Sys2Proof/Laws/Operands.lean ====
section
/-! SUPPORT. The laws of the operand forms: byte sequences and numbers (spec/00_scope.md R11), colours
(spec/43_palette_table.md R191, R192), the header (spec/42_header_codec.md R170, R174), strides
(spec/30_encoding.md R114). -/

namespace Sys2Proof.Machine

/-- spec/30_encoding.md R114: the stride is 3 or 4. -/
theorem strideOf_cases (f : Word) : strideOf f = 3 ∨ strideOf f = 4 := by
  unfold strideOf
  cases alphaBit f <;> simp

@[simp] theorem length_le16 (v : BitVec 16) : (le16 v).length = 2 := rfl

@[simp] theorem length_le32 (v : Word) : (le32 v).length = 4 := rfl

@[simp] theorem length_serializeHeader (w h : BitVec 16) (f p : Word) : (serializeHeader w h f p).length = 16 := rfl

theorem ofNat_fromLE_le16 (v : BitVec 16) : BitVec.ofNat 16 (fromLE (le16 v)) = v := by
  apply BitVec.eq_of_toNat_eq
  have := v.isLt
  simp [le16, fromLE, BitVec.extractLsb'_toNat, Nat.shiftRight_eq_div_pow]
  omega

theorem fromLE_le32 (v : Word) : fromLE (le32 v) = v.toNat := by
  have := v.isLt
  simp [le32, fromLE, BitVec.extractLsb'_toNat, Nat.shiftRight_eq_div_pow]
  omega

theorem ofNat_fromLE_le32 (v : Word) : BitVec.ofNat 32 (fromLE (le32 v)) = v := by
  rw [fromLE_le32, BitVec.ofNat_toNat, BitVec.setWidth_eq]

/-- Reading the header that the serializer wrote gives its fields back. -/
theorem headerOfBytes_serializeHeader (w h : BitVec 16) (f p : Word) :
    headerOfBytes (serializeHeader w h f p) =
      { magic := Config.pieMagic, version := Config.pieVersion, flags := f, width := w, height := h,
        pairCount := p } := by
  have h1 : ((serializeHeader w h f p).drop 4).take 4 = le32 f := rfl
  have h2 : ((serializeHeader w h f p).drop 8).take 2 = le16 w := rfl
  have h3 : ((serializeHeader w h f p).drop 10).take 2 = le16 h := rfl
  have h4 : ((serializeHeader w h f p).drop 12).take 4 = le32 p := rfl
  simp only [headerOfBytes, h1, h2, h3, h4, ofNat_fromLE_le16, ofNat_fromLE_le32]
  rfl

/-- A header depends on the first 16 bytes only. -/
theorem headerOfBytes_append (hb rest : List Byte) (h : hb.length = 16) :
    headerOfBytes ((hb ++ rest).take 16) = headerOfBytes hb := by
  rw [← h, List.take_left]

@[simp] theorem length_colorBytes (st : Nat) (c : Word) : (colorBytes st c).length = min st 4 := by
  simp [colorBytes]

theorem length_colorBytes_of_stride {st : Nat} (h : st = 3 ∨ st = 4) (c : Word) :
    (colorBytes st c).length = st := by
  rcases h with rfl | rfl <;> rfl

theorem byte_eq_of_toNat {a b : Byte} (h : a.toNat = b.toNat) : a = b := BitVec.eq_of_toNat_eq h

/-- The bytes of a colour made of st bytes are those bytes. -/
theorem colorBytes_colorOfBytes {st : Nat} (hst : st = 3 ∨ st = 4) {bs : List Byte} (h : bs.length = st) :
    colorBytes st (colorOfBytes bs) = bs := by
  rcases hst with rfl | rfl
  · match bs, h with
    | [a, b, c], _ =>
      have ha := a.isLt
      have hb := b.isLt
      have hc := c.isLt
      simp only [colorBytes, le32, colorOfBytes, fromLE, List.take_succ_cons, List.take_zero, List.cons.injEq,
        and_true]
      refine ⟨?_, ?_, ?_⟩ <;> apply byte_eq_of_toNat <;>
        simp [BitVec.extractLsb'_toNat, Nat.shiftRight_eq_div_pow] <;> omega
  · match bs, h with
    | [a, b, c, d], _ =>
      have ha := a.isLt
      have hb := b.isLt
      have hc := c.isLt
      have hd := d.isLt
      simp only [colorBytes, le32, colorOfBytes, fromLE, List.take_succ_cons, List.take_zero, List.cons.injEq,
        and_true]
      refine ⟨?_, ?_, ?_, ?_⟩ <;> apply byte_eq_of_toNat <;>
        simp [BitVec.extractLsb'_toNat, Nat.shiftRight_eq_div_pow] <;> omega

/-- Storing a colour under a stride keeps its first st bytes (spec/43_palette_table.md R192). -/
theorem colorBytes_stored {st : Nat} (hst : st = 3 ∨ st = 4) (c : Word) :
    colorBytes st (colorOfBytes (colorBytes st c)) = colorBytes st c :=
  colorBytes_colorOfBytes hst (length_colorBytes_of_stride hst c)

end Sys2Proof.Machine
end

