-- ==== Sys2Proof/Laws/State.lean ====
section
/-! SUPPORT. What each named update of the state does to each field, one lemma a field, each true by rfl. -/

namespace Sys2Proof.Machine

/-! ### writerInit -/

@[simp] theorem writerInit_cmd (s : State) : (writerInit s).cmd = s.cmd := rfl
@[simp] theorem writerInit_status (s : State) : (writerInit s).status = s.status := rfl
@[simp] theorem writerInit_srcAddr (s : State) : (writerInit s).srcAddr = s.srcAddr := rfl
@[simp] theorem writerInit_srcLen (s : State) : (writerInit s).srcLen = s.srcLen := rfl
@[simp] theorem writerInit_dstAddr (s : State) : (writerInit s).dstAddr = s.dstAddr := rfl
@[simp] theorem writerInit_dstCap (s : State) : (writerInit s).dstCap = s.dstCap := rfl
@[simp] theorem writerInit_xpalAddr (s : State) : (writerInit s).xpalAddr = s.xpalAddr := rfl
@[simp] theorem writerInit_xpalLen (s : State) : (writerInit s).xpalLen = s.xpalLen := rfl
@[simp] theorem writerInit_dim (s : State) : (writerInit s).dim = s.dim := rfl
@[simp] theorem writerInit_flags (s : State) : (writerInit s).flags = s.flags := rfl
@[simp] theorem writerInit_pairCount (s : State) : (writerInit s).pairCount = s.pairCount := rfl
@[simp] theorem writerInit_resultLo (s : State) : (writerInit s).resultLo = s.resultLo := rfl
@[simp] theorem writerInit_resultHi (s : State) : (writerInit s).resultHi = s.resultHi := rfl
@[simp] theorem writerInit_palLen (s : State) : (writerInit s).palLen = s.palLen := rfl
@[simp] theorem writerInit_palColor (s : State) : (writerInit s).palColor = s.palColor := rfl
@[simp] theorem writerInit_wrCursor (s : State) : (writerInit s).wrCursor = s.wrCursor := rfl
@[simp] theorem writerInit_pal (s : State) : (writerInit s).pal = s.pal := rfl
@[simp] theorem writerInit_mem (s : State) : (writerInit s).mem = s.mem := rfl
@[simp] theorem writerInit_host (s : State) : (writerInit s).host = s.host := rfl
@[simp] theorem writerInit_hostData (s : State) : (writerInit s).hostData = s.hostData := rfl
@[simp] theorem writerInit_draws (s : State) : (writerInit s).draws = s.draws := rfl
@[simp] theorem writerInit_eng_ops (s : State) : (writerInit s).eng.ops = s.eng.ops := rfl
@[simp] theorem writerInit_eng_runColor (s : State) : (writerInit s).eng.runColor = s.eng.runColor := rfl
@[simp] theorem writerInit_eng_runLen (s : State) : (writerInit s).eng.runLen = s.eng.runLen := rfl
@[simp] theorem writerInit_eng_i (s : State) : (writerInit s).eng.i = s.eng.i := rfl
@[simp] theorem writerInit_eng_p (s : State) : (writerInit s).eng.p = s.eng.p := rfl
@[simp] theorem writerInit_eng_wrBase (s : State) : (writerInit s).eng.wrBase = s.eng.ops.dstAddr := rfl
@[simp] theorem writerInit_eng_wrCap (s : State) : (writerInit s).eng.wrCap = s.eng.ops.dstCap.toNat := rfl
@[simp] theorem writerInit_eng_out (s : State) : (writerInit s).eng.out = [] := rfl
@[simp] theorem writerInit_eng_k (s : State) : (writerInit s).eng.k = s.eng.k := rfl
@[simp] theorem writerInit_eng_cur (s : State) : (writerInit s).eng.cur = s.eng.cur := rfl
@[simp] theorem writerInit_eng_palBase (s : State) : (writerInit s).eng.palBase = s.eng.palBase := rfl
@[simp] theorem writerInit_eng_pl (s : State) : (writerInit s).eng.pl = s.eng.pl := rfl
@[simp] theorem writerInit_eng_strideOut (s : State) : (writerInit s).eng.strideOut = s.eng.strideOut := rfl
@[simp] theorem writerInit_eng_busyLeft (s : State) : (writerInit s).eng.busyLeft = s.eng.busyLeft := rfl
@[simp] theorem writerInit_eng_disturbed (s : State) : (writerInit s).eng.disturbed = s.eng.disturbed := rfl

/-! ### startCommand -/

@[simp] theorem startCommand_cmd (s : State) : (startCommand s).cmd = s.cmd := rfl
@[simp] theorem startCommand_status (s : State) : (startCommand s).status = s.status := rfl
@[simp] theorem startCommand_srcAddr (s : State) : (startCommand s).srcAddr = s.srcAddr := rfl
@[simp] theorem startCommand_srcLen (s : State) : (startCommand s).srcLen = s.srcLen := rfl
@[simp] theorem startCommand_dstAddr (s : State) : (startCommand s).dstAddr = s.dstAddr := rfl
@[simp] theorem startCommand_dstCap (s : State) : (startCommand s).dstCap = s.dstCap := rfl
@[simp] theorem startCommand_xpalAddr (s : State) : (startCommand s).xpalAddr = s.xpalAddr := rfl
@[simp] theorem startCommand_xpalLen (s : State) : (startCommand s).xpalLen = s.xpalLen := rfl
@[simp] theorem startCommand_dim (s : State) : (startCommand s).dim = s.dim := rfl
@[simp] theorem startCommand_flags (s : State) : (startCommand s).flags = s.flags := rfl
@[simp] theorem startCommand_pairCount (s : State) : (startCommand s).pairCount = s.pairCount := rfl
@[simp] theorem startCommand_resultLo (s : State) : (startCommand s).resultLo = s.resultLo := rfl
@[simp] theorem startCommand_resultHi (s : State) : (startCommand s).resultHi = s.resultHi := rfl
@[simp] theorem startCommand_palLen (s : State) : (startCommand s).palLen = s.palLen := rfl
@[simp] theorem startCommand_palColor (s : State) : (startCommand s).palColor = s.palColor := rfl
@[simp] theorem startCommand_wrCursor (s : State) : (startCommand s).wrCursor = s.wrCursor := rfl
@[simp] theorem startCommand_pal (s : State) : (startCommand s).pal = s.pal := rfl
@[simp] theorem startCommand_mem (s : State) : (startCommand s).mem = s.mem := rfl
@[simp] theorem startCommand_host (s : State) : (startCommand s).host = s.host := rfl
@[simp] theorem startCommand_hostData (s : State) : (startCommand s).hostData = s.hostData := rfl
@[simp] theorem startCommand_draws (s : State) : (startCommand s).draws = s.draws := rfl
@[simp] theorem startCommand_eng_ops (s : State) : (startCommand s).eng.ops = s.eng.ops := rfl
@[simp] theorem startCommand_eng_runColor (s : State) : (startCommand s).eng.runColor = 0 := rfl
@[simp] theorem startCommand_eng_runLen (s : State) : (startCommand s).eng.runLen = 0 := rfl
@[simp] theorem startCommand_eng_i (s : State) : (startCommand s).eng.i = 0 := rfl
@[simp] theorem startCommand_eng_p (s : State) : (startCommand s).eng.p = 0 := rfl
@[simp] theorem startCommand_eng_wrBase (s : State) : (startCommand s).eng.wrBase = 0 := rfl
@[simp] theorem startCommand_eng_wrCap (s : State) : (startCommand s).eng.wrCap = 0 := rfl
@[simp] theorem startCommand_eng_out (s : State) : (startCommand s).eng.out = [] := rfl
@[simp] theorem startCommand_eng_k (s : State) : (startCommand s).eng.k = 0 := rfl
@[simp] theorem startCommand_eng_cur (s : State) : (startCommand s).eng.cur = 0 := rfl
@[simp] theorem startCommand_eng_palBase (s : State) : (startCommand s).eng.palBase = 0 := rfl
@[simp] theorem startCommand_eng_pl (s : State) : (startCommand s).eng.pl = 0 := rfl
@[simp] theorem startCommand_eng_strideOut (s : State) : (startCommand s).eng.strideOut = 0 := rfl
@[simp] theorem startCommand_eng_busyLeft (s : State) : (startCommand s).eng.busyLeft = 0 := rfl
@[simp] theorem startCommand_eng_disturbed (s : State) : (startCommand s).eng.disturbed = false := rfl

/-! ### setResult -/

@[simp] theorem setResult_cmd (n : Nat) (s : State) : (setResult n s).cmd = s.cmd := rfl
@[simp] theorem setResult_status (n : Nat) (s : State) : (setResult n s).status = s.status := rfl
@[simp] theorem setResult_srcAddr (n : Nat) (s : State) : (setResult n s).srcAddr = s.srcAddr := rfl
@[simp] theorem setResult_srcLen (n : Nat) (s : State) : (setResult n s).srcLen = s.srcLen := rfl
@[simp] theorem setResult_dstAddr (n : Nat) (s : State) : (setResult n s).dstAddr = s.dstAddr := rfl
@[simp] theorem setResult_dstCap (n : Nat) (s : State) : (setResult n s).dstCap = s.dstCap := rfl
@[simp] theorem setResult_xpalAddr (n : Nat) (s : State) : (setResult n s).xpalAddr = s.xpalAddr := rfl
@[simp] theorem setResult_xpalLen (n : Nat) (s : State) : (setResult n s).xpalLen = s.xpalLen := rfl
@[simp] theorem setResult_dim (n : Nat) (s : State) : (setResult n s).dim = s.dim := rfl
@[simp] theorem setResult_flags (n : Nat) (s : State) : (setResult n s).flags = s.flags := rfl
@[simp] theorem setResult_pairCount (n : Nat) (s : State) : (setResult n s).pairCount = s.pairCount := rfl
@[simp] theorem setResult_resultLo (n : Nat) (s : State) : (setResult n s).resultLo = BitVec.ofNat 32 n := rfl
@[simp] theorem setResult_resultHi (n : Nat) (s : State) : (setResult n s).resultHi = BitVec.ofNat 32 (n / 4294967296) := rfl
@[simp] theorem setResult_palLen (n : Nat) (s : State) : (setResult n s).palLen = s.palLen := rfl
@[simp] theorem setResult_palColor (n : Nat) (s : State) : (setResult n s).palColor = s.palColor := rfl
@[simp] theorem setResult_wrCursor (n : Nat) (s : State) : (setResult n s).wrCursor = s.wrCursor := rfl
@[simp] theorem setResult_pal (n : Nat) (s : State) : (setResult n s).pal = s.pal := rfl
@[simp] theorem setResult_mem (n : Nat) (s : State) : (setResult n s).mem = s.mem := rfl
@[simp] theorem setResult_host (n : Nat) (s : State) : (setResult n s).host = s.host := rfl
@[simp] theorem setResult_hostData (n : Nat) (s : State) : (setResult n s).hostData = s.hostData := rfl
@[simp] theorem setResult_draws (n : Nat) (s : State) : (setResult n s).draws = s.draws := rfl
@[simp] theorem setResult_eng (n : Nat) (s : State) : (setResult n s).eng = s.eng := rfl

/-! ### loadHeader -/

@[simp] theorem loadHeader_cmd (h : Header) (s : State) : (loadHeader h s).cmd = s.cmd := rfl
@[simp] theorem loadHeader_status (h : Header) (s : State) : (loadHeader h s).status = s.status := rfl
@[simp] theorem loadHeader_srcAddr (h : Header) (s : State) : (loadHeader h s).srcAddr = s.srcAddr := rfl
@[simp] theorem loadHeader_srcLen (h : Header) (s : State) : (loadHeader h s).srcLen = s.srcLen := rfl
@[simp] theorem loadHeader_dstAddr (h : Header) (s : State) : (loadHeader h s).dstAddr = s.dstAddr := rfl
@[simp] theorem loadHeader_dstCap (h : Header) (s : State) : (loadHeader h s).dstCap = s.dstCap := rfl
@[simp] theorem loadHeader_xpalAddr (h : Header) (s : State) : (loadHeader h s).xpalAddr = s.xpalAddr := rfl
@[simp] theorem loadHeader_xpalLen (h : Header) (s : State) : (loadHeader h s).xpalLen = s.xpalLen := rfl
@[simp] theorem loadHeader_dim (h : Header) (s : State) : (loadHeader h s).dim = dimWord h.width h.height := rfl
@[simp] theorem loadHeader_flags (h : Header) (s : State) : (loadHeader h s).flags = h.flags := rfl
@[simp] theorem loadHeader_pairCount (h : Header) (s : State) : (loadHeader h s).pairCount = h.pairCount := rfl
@[simp] theorem loadHeader_resultLo (h : Header) (s : State) : (loadHeader h s).resultLo = s.resultLo := rfl
@[simp] theorem loadHeader_resultHi (h : Header) (s : State) : (loadHeader h s).resultHi = s.resultHi := rfl
@[simp] theorem loadHeader_palLen (h : Header) (s : State) : (loadHeader h s).palLen = s.palLen := rfl
@[simp] theorem loadHeader_palColor (h : Header) (s : State) : (loadHeader h s).palColor = s.palColor := rfl
@[simp] theorem loadHeader_wrCursor (h : Header) (s : State) : (loadHeader h s).wrCursor = s.wrCursor := rfl
@[simp] theorem loadHeader_pal (h : Header) (s : State) : (loadHeader h s).pal = s.pal := rfl
@[simp] theorem loadHeader_mem (h : Header) (s : State) : (loadHeader h s).mem = s.mem := rfl
@[simp] theorem loadHeader_host (h : Header) (s : State) : (loadHeader h s).host = s.host := rfl
@[simp] theorem loadHeader_hostData (h : Header) (s : State) : (loadHeader h s).hostData = s.hostData := rfl
@[simp] theorem loadHeader_draws (h : Header) (s : State) : (loadHeader h s).draws = s.draws := rfl
@[simp] theorem loadHeader_eng_ops (h : Header) (s : State) : (loadHeader h s).eng.ops = s.eng.ops := rfl
@[simp] theorem loadHeader_eng_runColor (h : Header) (s : State) : (loadHeader h s).eng.runColor = s.eng.runColor := rfl
@[simp] theorem loadHeader_eng_runLen (h : Header) (s : State) : (loadHeader h s).eng.runLen = s.eng.runLen := rfl
@[simp] theorem loadHeader_eng_i (h : Header) (s : State) : (loadHeader h s).eng.i = s.eng.i := rfl
@[simp] theorem loadHeader_eng_p (h : Header) (s : State) : (loadHeader h s).eng.p = s.eng.p := rfl
@[simp] theorem loadHeader_eng_wrBase (h : Header) (s : State) : (loadHeader h s).eng.wrBase = s.eng.wrBase := rfl
@[simp] theorem loadHeader_eng_wrCap (h : Header) (s : State) : (loadHeader h s).eng.wrCap = s.eng.wrCap := rfl
@[simp] theorem loadHeader_eng_out (h : Header) (s : State) : (loadHeader h s).eng.out = s.eng.out := rfl
@[simp] theorem loadHeader_eng_k (h : Header) (s : State) : (loadHeader h s).eng.k = s.eng.k := rfl
@[simp] theorem loadHeader_eng_cur (h : Header) (s : State) : (loadHeader h s).eng.cur = s.eng.cur := rfl
@[simp] theorem loadHeader_eng_palBase (h : Header) (s : State) : (loadHeader h s).eng.palBase = s.eng.palBase := rfl
@[simp] theorem loadHeader_eng_pl (h : Header) (s : State) : (loadHeader h s).eng.pl = s.eng.pl := rfl
@[simp] theorem loadHeader_eng_strideOut (h : Header) (s : State) : (loadHeader h s).eng.strideOut = strideOf h.flags := rfl
@[simp] theorem loadHeader_eng_busyLeft (h : Header) (s : State) : (loadHeader h s).eng.busyLeft = s.eng.busyLeft := rfl
@[simp] theorem loadHeader_eng_disturbed (h : Header) (s : State) : (loadHeader h s).eng.disturbed = s.eng.disturbed := rfl

/-! ### issueFor -/

@[simp] theorem issueFor_cmd (busy : Nat) (w : Word) (s : State) : (issueFor busy w s).cmd = w := rfl
@[simp] theorem issueFor_status (busy : Nat) (w : Word) (s : State) : (issueFor busy w s).status = statusIssued := rfl
@[simp] theorem issueFor_srcAddr (busy : Nat) (w : Word) (s : State) : (issueFor busy w s).srcAddr = s.srcAddr := rfl
@[simp] theorem issueFor_srcLen (busy : Nat) (w : Word) (s : State) : (issueFor busy w s).srcLen = s.srcLen := rfl
@[simp] theorem issueFor_dstAddr (busy : Nat) (w : Word) (s : State) : (issueFor busy w s).dstAddr = s.dstAddr := rfl
@[simp] theorem issueFor_dstCap (busy : Nat) (w : Word) (s : State) : (issueFor busy w s).dstCap = s.dstCap := rfl
@[simp] theorem issueFor_xpalAddr (busy : Nat) (w : Word) (s : State) : (issueFor busy w s).xpalAddr = s.xpalAddr := rfl
@[simp] theorem issueFor_xpalLen (busy : Nat) (w : Word) (s : State) : (issueFor busy w s).xpalLen = s.xpalLen := rfl
@[simp] theorem issueFor_dim (busy : Nat) (w : Word) (s : State) : (issueFor busy w s).dim = s.dim := rfl
@[simp] theorem issueFor_flags (busy : Nat) (w : Word) (s : State) : (issueFor busy w s).flags = s.flags := rfl
@[simp] theorem issueFor_pairCount (busy : Nat) (w : Word) (s : State) : (issueFor busy w s).pairCount = s.pairCount := rfl
@[simp] theorem issueFor_resultLo (busy : Nat) (w : Word) (s : State) : (issueFor busy w s).resultLo = 0 := rfl
@[simp] theorem issueFor_resultHi (busy : Nat) (w : Word) (s : State) : (issueFor busy w s).resultHi = 0 := rfl
@[simp] theorem issueFor_palLen (busy : Nat) (w : Word) (s : State) : (issueFor busy w s).palLen = s.palLen := rfl
@[simp] theorem issueFor_palColor (busy : Nat) (w : Word) (s : State) : (issueFor busy w s).palColor = s.palColor := rfl
@[simp] theorem issueFor_wrCursor (busy : Nat) (w : Word) (s : State) : (issueFor busy w s).wrCursor = 0 := rfl
@[simp] theorem issueFor_pal (busy : Nat) (w : Word) (s : State) : (issueFor busy w s).pal = s.pal := rfl
@[simp] theorem issueFor_mem (busy : Nat) (w : Word) (s : State) : (issueFor busy w s).mem = s.mem := rfl
@[simp] theorem issueFor_host (busy : Nat) (w : Word) (s : State) : (issueFor busy w s).host = s.host := rfl
@[simp] theorem issueFor_hostData (busy : Nat) (w : Word) (s : State) : (issueFor busy w s).hostData = s.hostData := rfl
@[simp] theorem issueFor_draws (busy : Nat) (w : Word) (s : State) : (issueFor busy w s).draws = s.draws := rfl
@[simp] theorem issueFor_eng_ops (busy : Nat) (w : Word) (s : State) : (issueFor busy w s).eng.ops = latchOperands s := rfl
@[simp] theorem issueFor_eng_runColor (busy : Nat) (w : Word) (s : State) : (issueFor busy w s).eng.runColor = 0 := rfl
@[simp] theorem issueFor_eng_runLen (busy : Nat) (w : Word) (s : State) : (issueFor busy w s).eng.runLen = 0 := rfl
@[simp] theorem issueFor_eng_i (busy : Nat) (w : Word) (s : State) : (issueFor busy w s).eng.i = 0 := rfl
@[simp] theorem issueFor_eng_p (busy : Nat) (w : Word) (s : State) : (issueFor busy w s).eng.p = 0 := rfl
@[simp] theorem issueFor_eng_wrBase (busy : Nat) (w : Word) (s : State) : (issueFor busy w s).eng.wrBase = 0 := rfl
@[simp] theorem issueFor_eng_wrCap (busy : Nat) (w : Word) (s : State) : (issueFor busy w s).eng.wrCap = 0 := rfl
@[simp] theorem issueFor_eng_out (busy : Nat) (w : Word) (s : State) : (issueFor busy w s).eng.out = [] := rfl
@[simp] theorem issueFor_eng_k (busy : Nat) (w : Word) (s : State) : (issueFor busy w s).eng.k = 0 := rfl
@[simp] theorem issueFor_eng_cur (busy : Nat) (w : Word) (s : State) : (issueFor busy w s).eng.cur = 0 := rfl
@[simp] theorem issueFor_eng_palBase (busy : Nat) (w : Word) (s : State) : (issueFor busy w s).eng.palBase = 0 := rfl
@[simp] theorem issueFor_eng_pl (busy : Nat) (w : Word) (s : State) : (issueFor busy w s).eng.pl = 0 := rfl
@[simp] theorem issueFor_eng_strideOut (busy : Nat) (w : Word) (s : State) : (issueFor busy w s).eng.strideOut = 0 := rfl
@[simp] theorem issueFor_eng_busyLeft (busy : Nat) (w : Word) (s : State) : (issueFor busy w s).eng.busyLeft = busy := rfl
@[simp] theorem issueFor_eng_disturbed (busy : Nat) (w : Word) (s : State) : (issueFor busy w s).eng.disturbed = false := rfl

/-! ### popHost -/

@[simp] theorem popHost_cmd (s : State) : (popHost s).cmd = s.cmd := rfl
@[simp] theorem popHost_status (s : State) : (popHost s).status = s.status := rfl
@[simp] theorem popHost_srcAddr (s : State) : (popHost s).srcAddr = s.srcAddr := rfl
@[simp] theorem popHost_srcLen (s : State) : (popHost s).srcLen = s.srcLen := rfl
@[simp] theorem popHost_dstAddr (s : State) : (popHost s).dstAddr = s.dstAddr := rfl
@[simp] theorem popHost_dstCap (s : State) : (popHost s).dstCap = s.dstCap := rfl
@[simp] theorem popHost_xpalAddr (s : State) : (popHost s).xpalAddr = s.xpalAddr := rfl
@[simp] theorem popHost_xpalLen (s : State) : (popHost s).xpalLen = s.xpalLen := rfl
@[simp] theorem popHost_dim (s : State) : (popHost s).dim = s.dim := rfl
@[simp] theorem popHost_flags (s : State) : (popHost s).flags = s.flags := rfl
@[simp] theorem popHost_pairCount (s : State) : (popHost s).pairCount = s.pairCount := rfl
@[simp] theorem popHost_resultLo (s : State) : (popHost s).resultLo = s.resultLo := rfl
@[simp] theorem popHost_resultHi (s : State) : (popHost s).resultHi = s.resultHi := rfl
@[simp] theorem popHost_palLen (s : State) : (popHost s).palLen = s.palLen := rfl
@[simp] theorem popHost_palColor (s : State) : (popHost s).palColor = s.palColor := rfl
@[simp] theorem popHost_wrCursor (s : State) : (popHost s).wrCursor = s.wrCursor := rfl
@[simp] theorem popHost_pal (s : State) : (popHost s).pal = s.pal := rfl
@[simp] theorem popHost_mem (s : State) : (popHost s).mem = s.mem := rfl
@[simp] theorem popHost_host (s : State) : (popHost s).host = s.host.tail := rfl
@[simp] theorem popHost_hostData (s : State) : (popHost s).hostData = s.hostData := rfl
@[simp] theorem popHost_draws (s : State) : (popHost s).draws = s.draws := rfl
@[simp] theorem popHost_eng (s : State) : (popHost s).eng = s.eng := rfl

/-! ### spendBusy -/

@[simp] theorem spendBusy_cmd (s : State) : (spendBusy s).cmd = s.cmd := rfl
@[simp] theorem spendBusy_status (s : State) : (spendBusy s).status = s.status := rfl
@[simp] theorem spendBusy_srcAddr (s : State) : (spendBusy s).srcAddr = s.srcAddr := rfl
@[simp] theorem spendBusy_srcLen (s : State) : (spendBusy s).srcLen = s.srcLen := rfl
@[simp] theorem spendBusy_dstAddr (s : State) : (spendBusy s).dstAddr = s.dstAddr := rfl
@[simp] theorem spendBusy_dstCap (s : State) : (spendBusy s).dstCap = s.dstCap := rfl
@[simp] theorem spendBusy_xpalAddr (s : State) : (spendBusy s).xpalAddr = s.xpalAddr := rfl
@[simp] theorem spendBusy_xpalLen (s : State) : (spendBusy s).xpalLen = s.xpalLen := rfl
@[simp] theorem spendBusy_dim (s : State) : (spendBusy s).dim = s.dim := rfl
@[simp] theorem spendBusy_flags (s : State) : (spendBusy s).flags = s.flags := rfl
@[simp] theorem spendBusy_pairCount (s : State) : (spendBusy s).pairCount = s.pairCount := rfl
@[simp] theorem spendBusy_resultLo (s : State) : (spendBusy s).resultLo = s.resultLo := rfl
@[simp] theorem spendBusy_resultHi (s : State) : (spendBusy s).resultHi = s.resultHi := rfl
@[simp] theorem spendBusy_palLen (s : State) : (spendBusy s).palLen = s.palLen := rfl
@[simp] theorem spendBusy_palColor (s : State) : (spendBusy s).palColor = s.palColor := rfl
@[simp] theorem spendBusy_wrCursor (s : State) : (spendBusy s).wrCursor = s.wrCursor := rfl
@[simp] theorem spendBusy_pal (s : State) : (spendBusy s).pal = s.pal := rfl
@[simp] theorem spendBusy_mem (s : State) : (spendBusy s).mem = s.mem := rfl
@[simp] theorem spendBusy_host (s : State) : (spendBusy s).host = s.host := rfl
@[simp] theorem spendBusy_hostData (s : State) : (spendBusy s).hostData = s.hostData := rfl
@[simp] theorem spendBusy_draws (s : State) : (spendBusy s).draws = s.draws := rfl
@[simp] theorem spendBusy_eng_ops (s : State) : (spendBusy s).eng.ops = s.eng.ops := rfl
@[simp] theorem spendBusy_eng_runColor (s : State) : (spendBusy s).eng.runColor = s.eng.runColor := rfl
@[simp] theorem spendBusy_eng_runLen (s : State) : (spendBusy s).eng.runLen = s.eng.runLen := rfl
@[simp] theorem spendBusy_eng_i (s : State) : (spendBusy s).eng.i = s.eng.i := rfl
@[simp] theorem spendBusy_eng_p (s : State) : (spendBusy s).eng.p = s.eng.p := rfl
@[simp] theorem spendBusy_eng_wrBase (s : State) : (spendBusy s).eng.wrBase = s.eng.wrBase := rfl
@[simp] theorem spendBusy_eng_wrCap (s : State) : (spendBusy s).eng.wrCap = s.eng.wrCap := rfl
@[simp] theorem spendBusy_eng_out (s : State) : (spendBusy s).eng.out = s.eng.out := rfl
@[simp] theorem spendBusy_eng_k (s : State) : (spendBusy s).eng.k = s.eng.k := rfl
@[simp] theorem spendBusy_eng_cur (s : State) : (spendBusy s).eng.cur = s.eng.cur := rfl
@[simp] theorem spendBusy_eng_palBase (s : State) : (spendBusy s).eng.palBase = s.eng.palBase := rfl
@[simp] theorem spendBusy_eng_pl (s : State) : (spendBusy s).eng.pl = s.eng.pl := rfl
@[simp] theorem spendBusy_eng_strideOut (s : State) : (spendBusy s).eng.strideOut = s.eng.strideOut := rfl
@[simp] theorem spendBusy_eng_busyLeft (s : State) : (spendBusy s).eng.busyLeft = s.eng.busyLeft - 1 := rfl
@[simp] theorem spendBusy_eng_disturbed (s : State) : (spendBusy s).eng.disturbed = s.eng.disturbed := rfl

/-! ### startScan -/

@[simp] theorem startScan_cmd (s : State) : (startScan s).cmd = s.cmd := rfl
@[simp] theorem startScan_status (s : State) : (startScan s).status = s.status := rfl
@[simp] theorem startScan_srcAddr (s : State) : (startScan s).srcAddr = s.srcAddr := rfl
@[simp] theorem startScan_srcLen (s : State) : (startScan s).srcLen = s.srcLen := rfl
@[simp] theorem startScan_dstAddr (s : State) : (startScan s).dstAddr = s.dstAddr := rfl
@[simp] theorem startScan_dstCap (s : State) : (startScan s).dstCap = s.dstCap := rfl
@[simp] theorem startScan_xpalAddr (s : State) : (startScan s).xpalAddr = s.xpalAddr := rfl
@[simp] theorem startScan_xpalLen (s : State) : (startScan s).xpalLen = s.xpalLen := rfl
@[simp] theorem startScan_dim (s : State) : (startScan s).dim = s.dim := rfl
@[simp] theorem startScan_flags (s : State) : (startScan s).flags = s.flags := rfl
@[simp] theorem startScan_pairCount (s : State) : (startScan s).pairCount = 0 := rfl
@[simp] theorem startScan_resultLo (s : State) : (startScan s).resultLo = s.resultLo := rfl
@[simp] theorem startScan_resultHi (s : State) : (startScan s).resultHi = s.resultHi := rfl
@[simp] theorem startScan_palLen (s : State) : (startScan s).palLen = s.palLen := rfl
@[simp] theorem startScan_palColor (s : State) : (startScan s).palColor = s.palColor := rfl
@[simp] theorem startScan_wrCursor (s : State) : (startScan s).wrCursor = s.wrCursor := rfl
@[simp] theorem startScan_pal (s : State) : (startScan s).pal = s.pal := rfl
@[simp] theorem startScan_mem (s : State) : (startScan s).mem = s.mem := rfl
@[simp] theorem startScan_host (s : State) : (startScan s).host = s.host := rfl
@[simp] theorem startScan_hostData (s : State) : (startScan s).hostData = s.hostData := rfl
@[simp] theorem startScan_draws (s : State) : (startScan s).draws = s.draws := rfl
@[simp] theorem startScan_eng_ops (s : State) : (startScan s).eng.ops = s.eng.ops := rfl
@[simp] theorem startScan_eng_runColor (s : State) : (startScan s).eng.runColor = pixelAt s.eng.ops s.mem 0 := rfl
@[simp] theorem startScan_eng_runLen (s : State) : (startScan s).eng.runLen = 1 := rfl
@[simp] theorem startScan_eng_i (s : State) : (startScan s).eng.i = 1 := rfl
@[simp] theorem startScan_eng_p (s : State) : (startScan s).eng.p = 0 := rfl
@[simp] theorem startScan_eng_wrBase (s : State) : (startScan s).eng.wrBase = s.eng.wrBase := rfl
@[simp] theorem startScan_eng_wrCap (s : State) : (startScan s).eng.wrCap = s.eng.wrCap := rfl
@[simp] theorem startScan_eng_out (s : State) : (startScan s).eng.out = s.eng.out := rfl
@[simp] theorem startScan_eng_k (s : State) : (startScan s).eng.k = s.eng.k := rfl
@[simp] theorem startScan_eng_cur (s : State) : (startScan s).eng.cur = s.eng.cur := rfl
@[simp] theorem startScan_eng_palBase (s : State) : (startScan s).eng.palBase = s.eng.palBase := rfl
@[simp] theorem startScan_eng_pl (s : State) : (startScan s).eng.pl = s.eng.pl := rfl
@[simp] theorem startScan_eng_strideOut (s : State) : (startScan s).eng.strideOut = s.eng.strideOut := rfl
@[simp] theorem startScan_eng_busyLeft (s : State) : (startScan s).eng.busyLeft = s.eng.busyLeft := rfl
@[simp] theorem startScan_eng_disturbed (s : State) : (startScan s).eng.disturbed = s.eng.disturbed := rfl

/-! ### completeOk -/

@[simp] theorem completeOk_cmd (s : State) : (completeOk s).cmd = s.cmd := rfl
@[simp] theorem completeOk_status (s : State) : (completeOk s).status = statusWord s.eng.strideOut 0 := rfl
@[simp] theorem completeOk_srcAddr (s : State) : (completeOk s).srcAddr = s.srcAddr := rfl
@[simp] theorem completeOk_srcLen (s : State) : (completeOk s).srcLen = s.srcLen := rfl
@[simp] theorem completeOk_dstAddr (s : State) : (completeOk s).dstAddr = s.dstAddr := rfl
@[simp] theorem completeOk_dstCap (s : State) : (completeOk s).dstCap = s.dstCap := rfl
@[simp] theorem completeOk_xpalAddr (s : State) : (completeOk s).xpalAddr = s.xpalAddr := rfl
@[simp] theorem completeOk_xpalLen (s : State) : (completeOk s).xpalLen = s.xpalLen := rfl
@[simp] theorem completeOk_dim (s : State) : (completeOk s).dim = s.dim := rfl
@[simp] theorem completeOk_flags (s : State) : (completeOk s).flags = s.flags := rfl
@[simp] theorem completeOk_pairCount (s : State) : (completeOk s).pairCount = s.pairCount := rfl
@[simp] theorem completeOk_resultLo (s : State) : (completeOk s).resultLo = s.resultLo := rfl
@[simp] theorem completeOk_resultHi (s : State) : (completeOk s).resultHi = s.resultHi := rfl
@[simp] theorem completeOk_palLen (s : State) : (completeOk s).palLen = s.palLen := rfl
@[simp] theorem completeOk_palColor (s : State) : (completeOk s).palColor = s.palColor := rfl
@[simp] theorem completeOk_wrCursor (s : State) : (completeOk s).wrCursor = BitVec.ofNat 32 s.eng.cursor := rfl
@[simp] theorem completeOk_pal (s : State) : (completeOk s).pal = s.pal := rfl
@[simp] theorem completeOk_eng (s : State) : (completeOk s).eng = Engine.idle := rfl
@[simp] theorem completeOk_mem (s : State) : (completeOk s).mem = s.mem.writeBytes s.eng.ops.dstAddr s.eng.out := rfl
@[simp] theorem completeOk_host (s : State) : (completeOk s).host = s.host := rfl
@[simp] theorem completeOk_hostData (s : State) : (completeOk s).hostData = s.hostData := rfl
@[simp] theorem completeOk_draws (s : State) : (completeOk s).draws = s.draws := rfl

/-! ### raiseError -/

@[simp] theorem raiseError_cmd (e : ErrCode) (s : State) : (raiseError e s).cmd = s.cmd := rfl
@[simp] theorem raiseError_status (e : ErrCode) (s : State) : (raiseError e s).status = statusWord s.eng.strideOut e.code := rfl
@[simp] theorem raiseError_srcAddr (e : ErrCode) (s : State) : (raiseError e s).srcAddr = s.srcAddr := rfl
@[simp] theorem raiseError_srcLen (e : ErrCode) (s : State) : (raiseError e s).srcLen = s.srcLen := rfl
@[simp] theorem raiseError_dstAddr (e : ErrCode) (s : State) : (raiseError e s).dstAddr = s.dstAddr := rfl
@[simp] theorem raiseError_dstCap (e : ErrCode) (s : State) : (raiseError e s).dstCap = s.dstCap := rfl
@[simp] theorem raiseError_xpalAddr (e : ErrCode) (s : State) : (raiseError e s).xpalAddr = s.xpalAddr := rfl
@[simp] theorem raiseError_xpalLen (e : ErrCode) (s : State) : (raiseError e s).xpalLen = s.xpalLen := rfl
@[simp] theorem raiseError_dim (e : ErrCode) (s : State) : (raiseError e s).dim = s.dim := rfl
@[simp] theorem raiseError_flags (e : ErrCode) (s : State) : (raiseError e s).flags = s.flags := rfl
@[simp] theorem raiseError_pairCount (e : ErrCode) (s : State) : (raiseError e s).pairCount = s.pairCount := rfl
@[simp] theorem raiseError_resultLo (e : ErrCode) (s : State) : (raiseError e s).resultLo = 0 := rfl
@[simp] theorem raiseError_resultHi (e : ErrCode) (s : State) : (raiseError e s).resultHi = 0 := rfl
@[simp] theorem raiseError_palLen (e : ErrCode) (s : State) : (raiseError e s).palLen = s.palLen := rfl
@[simp] theorem raiseError_palColor (e : ErrCode) (s : State) : (raiseError e s).palColor = s.palColor := rfl
@[simp] theorem raiseError_wrCursor (e : ErrCode) (s : State) : (raiseError e s).wrCursor = BitVec.ofNat 32 s.eng.cursor := rfl
@[simp] theorem raiseError_pal (e : ErrCode) (s : State) : (raiseError e s).pal = s.pal := rfl
@[simp] theorem raiseError_eng (e : ErrCode) (s : State) : (raiseError e s).eng = Engine.idle := rfl
@[simp] theorem raiseError_mem (e : ErrCode) (s : State) : (raiseError e s).mem = if s.eng.cursor = 0 then s.mem
      else s.mem.havoc s.eng.ops.dstAddr s.eng.ops.dstCap.toNat s.draws := rfl
@[simp] theorem raiseError_host (e : ErrCode) (s : State) : (raiseError e s).host = s.host := rfl
@[simp] theorem raiseError_hostData (e : ErrCode) (s : State) : (raiseError e s).hostData = s.hostData := rfl
@[simp] theorem raiseError_draws (e : ErrCode) (s : State) : (raiseError e s).draws = if s.eng.cursor = 0 then s.draws else s.draws + s.eng.ops.dstCap.toNat := rfl

/-! ### The dead engine -/

@[simp] theorem idle_ops : Engine.idle.ops = Operands.idle := rfl
@[simp] theorem idle_runColor : Engine.idle.runColor = 0 := rfl
@[simp] theorem idle_runLen : Engine.idle.runLen = 0 := rfl
@[simp] theorem idle_i : Engine.idle.i = 0 := rfl
@[simp] theorem idle_p : Engine.idle.p = 0 := rfl
@[simp] theorem idle_wrBase : Engine.idle.wrBase = 0 := rfl
@[simp] theorem idle_wrCap : Engine.idle.wrCap = 0 := rfl
@[simp] theorem idle_out : Engine.idle.out = [] := rfl
@[simp] theorem idle_k : Engine.idle.k = 0 := rfl
@[simp] theorem idle_cur : Engine.idle.cur = 0 := rfl
@[simp] theorem idle_palBase : Engine.idle.palBase = 0 := rfl
@[simp] theorem idle_pl : Engine.idle.pl = 0 := rfl
@[simp] theorem idle_strideOut : Engine.idle.strideOut = 0 := rfl
@[simp] theorem idle_busyLeft : Engine.idle.busyLeft = 0 := rfl
@[simp] theorem idle_disturbed : Engine.idle.disturbed = false := rfl

end Sys2Proof.Machine
end

