-- ==== Sys2Proof/Laws/Palette.lean ====
section
/-! SUPPORT. The laws of the palette table: what find-or-insert does to the palette as a list
(spec/43_palette_table.md R190 to R193). -/

namespace Sys2Proof.Machine

@[simp] theorem palLenOf_val (n : Nat) : (palLenOf n).val = min n 256 := rfl

@[simp] theorem State.length_palette (s : State) : s.palette.length = s.palLen.val := by
  simp [State.palette]

theorem State.palette_length_le (s : State) : s.palette.length ≤ 256 := by
  have := s.palLen.isLt
  simp
  omega

theorem sameColor_trans {st : Nat} {a b c : Word} (h : sameColor st a b = true) (h' : sameColor st b c = true) :
    sameColor st a c = true := by
  simp only [sameColor, beq_iff_eq] at *
  exact h.trans h'

theorem sameColor_stored {st : Nat} (hst : st = 3 ∨ st = 4) (c : Word) :
    sameColor st (colorOfBytes (colorBytes st c)) c = true := by
  simp [sameColor, colorBytes_stored hst]

/-! ### Palettes as lists -/

theorem offerColor_of_mem {st : Nat} {pal : List Word} {c : Word} (h : pal.any (fun e => sameColor st e c) = true) :
    offerColor st pal c = pal := by
  simp only [offerColor, h, if_true]

theorem offerColor_of_not_mem {st : Nat} {pal : List Word} {c : Word}
    (h : pal.any (fun e => sameColor st e c) = false) :
    offerColor st pal c = pal ++ [colorOfBytes (colorBytes st c)] := by
  simp [offerColor, h]

/-- A colour just offered is in the palette. -/
theorem offerColor_any {st : Nat} (hst : st = 3 ∨ st = 4) (pal : List Word) (c : Word) :
    (offerColor st pal c).any (fun e => sameColor st e c) = true := by
  cases h : pal.any (fun e => sameColor st e c)
  · rw [offerColor_of_not_mem h, List.any_append]
    simp [sameColor_stored hst]
  · rw [offerColor_of_mem h, h]

/-- Offering a colour twice is offering it once. -/
theorem offerColor_idem {st : Nat} (hst : st = 3 ∨ st = 4) (pal : List Word) (c : Word) :
    offerColor st (offerColor st pal c) c = offerColor st pal c :=
  offerColor_of_mem (offerColor_any hst pal c)

theorem offerColor_prefix (st : Nat) (pal : List Word) (c : Word) : pal <+: offerColor st pal c := by
  cases h : pal.any (fun e => sameColor st e c)
  · rw [offerColor_of_not_mem h]
    exact List.prefix_append _ _
  · rw [offerColor_of_mem h]

theorem growPalette_prefix (st : Nat) (pal cs : List Word) : pal <+: growPalette st pal cs := by
  induction cs generalizing pal with
  | nil => exact List.prefix_rfl
  | cons c cs ih => exact (offerColor_prefix st pal c).trans (ih _)

theorem growPalette_length_le (st : Nat) (pal cs : List Word) :
    pal.length ≤ (growPalette st pal cs).length := (growPalette_prefix st pal cs).length_le

/-- An entry found in a palette is found at the same index in every longer one. -/
theorem colorIndex_of_prefix {st : Nat} {pal pal' : List Word} {c : Word} (h : pal <+: pal')
    (hc : pal.any (fun e => sameColor st e c) = true) : colorIndex st pal' c = colorIndex st pal c := by
  obtain ⟨t, rfl⟩ := h
  have hlt : pal.findIdx (fun e => sameColor st e c) < pal.length := by
    rw [List.findIdx_lt_length]
    simpa using hc
  simp only [colorIndex, List.findIdx_append, if_pos hlt]

theorem colorIndex_lt {st : Nat} {pal : List Word} {c : Word}
    (hc : pal.any (fun e => sameColor st e c) = true) : colorIndex st pal c < pal.length := by
  unfold colorIndex
  rw [List.findIdx_lt_length]
  simpa using hc

/-- A colour offered to a palette keeps its index when more colours follow. -/
theorem colorIndex_grow {st : Nat} (hst : st = 3 ∨ st = 4) (pal cs : List Word) (c : Word) :
    colorIndex st (growPalette st (offerColor st pal c) cs) c = colorIndex st (offerColor st pal c) c :=
  colorIndex_of_prefix (growPalette_prefix st _ cs) (offerColor_any hst pal c)

/-- The colours of an image's runs, in order, build the palette its pixels build (spec/44_rle_encoder.md R211). -/
theorem growPalette_runsFrom {st : Nat} (hst : st = 3 ∨ st = 4) (c : Word) (n : Nat) (ds pal : List Word) :
    growPalette st pal ((runsFrom c n ds).map Prod.snd) = growPalette st pal (c :: ds) := by
  induction ds generalizing c n pal with
  | nil => rfl
  | cons d ds ih =>
    unfold runsFrom
    split
    · next h =>
      rw [ih]
      simp only [growPalette, List.foldl_cons, h.1, offerColor_idem hst]
    · simp only [List.map_cons]
      show growPalette st (offerColor st pal c) _ = _
      rw [ih]
      rfl

/-! ### Find-or-insert on the table -/

/-- The first index below n that satisfies p, found in the list of the n values. -/
theorem find_range_eq (p : Nat → Bool) (n : Nat) :
    (List.range n).find? p =
      if (List.range n).any p then some ((List.range n).findIdx p) else none := by
  induction n with
  | zero => rfl
  | succ n ih =>
    rw [List.range_succ, List.find?_append, ih, List.any_append, List.findIdx_append]
    by_cases h : (List.range n).any p = true
    · have hlt : (List.range n).findIdx p < (List.range n).length := by
        rw [List.findIdx_lt_length]
        simpa using h
      rw [List.length_range] at hlt
      simp only [h, if_true, Option.some_or, Bool.true_or, List.length_range, if_pos hlt]
    · have hnlt : ¬ (List.range n).findIdx p < (List.range n).length := by
        rw [List.findIdx_lt_length]
        simpa using h
      rw [List.length_range] at hnlt
      simp only [h, hnlt, if_false, Bool.false_eq_true, Option.none_or, Bool.false_or, List.length_range]
      by_cases hn : p n = true <;> simp [hn]

/-- `palFindIndex` is the search of the palette list. -/
theorem palFindIndex_eq (st : Nat) (c : Word) (s : State) :
    palFindIndex st c s =
      if s.palette.any (fun e => sameColor st e c) then some (colorIndex st s.palette c) else none := by
  unfold palFindIndex
  rw [find_range_eq]
  simp only [State.palette, colorIndex, List.any_map, List.findIdx_map]
  rfl

/-- The state that inserts colour c at the end of the palette. -/
def insertAtEnd (st : Nat) (c : Word) (s : State) : State :=
  { s with
    pal := s.pal.setIfInBounds s.palLen.val (colorOfBytes (colorBytes st c))
    palLen := palLenOf (s.palLen.val + 1) }

theorem insertAtEnd_palEntry_of_ne (st : Nat) (c : Word) (s : State) {j : Nat} (h : j ≠ s.palLen.val) :
    (insertAtEnd st c s).palEntry j = s.palEntry j := by
  simp [State.palEntry, insertAtEnd, h.symm]

theorem insertAtEnd_palette {st : Nat} {c : Word} {s : State} (h : s.palLen.val < 256) :
    (insertAtEnd st c s).palette = s.palette ++ [colorOfBytes (colorBytes st c)] := by
  have hl : (insertAtEnd st c s).palLen.val = s.palLen.val + 1 := by
    simp [insertAtEnd]
    omega
  unfold State.palette
  rw [hl, List.range_succ, List.map_append]
  congr 1
  · refine List.map_congr_left fun j hj => insertAtEnd_palEntry_of_ne st c s ?_
    have := List.mem_range.1 hj
    omega
  · simp [State.palEntry, insertAtEnd, h]

/-- What find-or-insert answers, all of it (spec/43_palette_table.md R191): the index of a colour present; an
insertion at the end of a table that has room; nothing from a full table that lacks the colour. -/
theorem findOrInsert_eq (st : Nat) (c : Word) (s : State) :
    findOrInsert st c s =
      if s.palette.any (fun e => sameColor st e c) then some (colorIndex st s.palette c, s)
      else if s.palLen.val = 256 then none
      else some (s.palLen.val, insertAtEnd st c s) := by
  unfold findOrInsert
  rw [palFindIndex_eq]
  by_cases h : s.palette.any (fun e => sameColor st e c) = true
  · simp [h]
  · simp only [h, if_false, Bool.false_eq_true]
    rfl

/-- Find-or-insert where the table has room for the colour: the palette grows as the list does, the index is the
colour's lowest, entries past the palette are left alone. -/
theorem findOrInsert_some {st : Nat} (hst : st = 3 ∨ st = 4) (c : Word) (s : State)
    (h : (offerColor st s.palette c).length ≤ 256) :
    ∃ pal palLen, findOrInsert st c s =
        some (colorIndex st (offerColor st s.palette c) c, { s with pal := pal, palLen := palLen }) ∧
      ({ s with pal := pal, palLen := palLen } : State).palette = offerColor st s.palette c ∧
      ∀ j, (offerColor st s.palette c).length ≤ j →
        ({ s with pal := pal, palLen := palLen } : State).palEntry j = s.palEntry j := by
  rw [findOrInsert_eq]
  cases hc : s.palette.any (fun e => sameColor st e c)
  · rw [offerColor_of_not_mem hc] at h ⊢
    simp only [List.length_append, State.length_palette, List.length_singleton] at h
    have hidx : colorIndex st (s.palette ++ [colorOfBytes (colorBytes st c)]) c = s.palLen.val := by
      have hn : ¬ s.palette.findIdx (fun e => sameColor st e c) < s.palette.length := by
        rw [List.findIdx_lt_length]
        simpa using hc
      simp only [colorIndex, List.findIdx_append, if_neg hn]
      simp [sameColor_stored hst]
    have h256 : s.palLen.val ≠ 256 := by omega
    refine ⟨_, _, ?_, insertAtEnd_palette (st := st) (c := c) (by omega), fun j hj => ?_⟩
    · simp only [Bool.false_eq_true, if_false, if_neg h256, hidx]
      rfl
    · simp only [List.length_append, State.length_palette, List.length_singleton] at hj
      exact insertAtEnd_palEntry_of_ne st c s (by omega)
  · rw [offerColor_of_mem hc]
    exact ⟨s.pal, s.palLen, by simp, rfl, fun j _ => rfl⟩

/-- Find-or-insert where the colour would be the 257th. -/
theorem findOrInsert_none {st : Nat} (c : Word) (s : State) (h : 256 < (offerColor st s.palette c).length) :
    findOrInsert st c s = none := by
  have hle := s.palLen.isLt
  rw [findOrInsert_eq]
  cases hc : s.palette.any (fun e => sameColor st e c)
  · rw [offerColor_of_not_mem hc] at h
    simp only [List.length_append, State.length_palette, List.length_singleton] at h
    have h256 : s.palLen.val = 256 := by omega
    simp [h256]
  · rw [offerColor_of_mem hc, State.length_palette] at h
    omega

end Sys2Proof.Machine
end

