-- ==== Sys2Proof/Laws/Encoder.lean ====
section
/-! SUPPORT. The laws of the writer and of the encoder's scan (spec/41_buffer_writer.md, spec/44_rle_encoder.md): what
each can do, said once. -/

namespace Sys2Proof.Machine

/-! ### The writer -/

/-- A put that fits appends its unit (spec/41_buffer_writer.md R161). -/
theorem writerPut_ok {b : List Byte} {s : State} (h : s.eng.out.length + b.length ≤ s.eng.wrCap) :
    writerPut b s = .ok { s with eng := { s.eng with out := s.eng.out ++ b } } :=
  if_neg (Nat.not_lt.2 h)

/-- A put that does not fit appends nothing and raises (spec/41_buffer_writer.md R161). -/
theorem writerPut_raise {b : List Byte} {s : State} (h : s.eng.wrCap < s.eng.out.length + b.length) :
    writerPut b s = .raise .outputTooLarge s :=
  if_pos h

/-- What a put can do. -/
theorem writerPut_cases (b : List Byte) (s : State) :
    (s.eng.out.length + b.length ≤ s.eng.wrCap ∧
      writerPut b s = .ok { s with eng := { s.eng with out := s.eng.out ++ b } }) ∨
    (s.eng.wrCap < s.eng.out.length + b.length ∧ writerPut b s = .raise .outputTooLarge s) := by
  rcases Nat.lt_or_ge s.eng.wrCap (s.eng.out.length + b.length) with h | h
  · exact .inr ⟨h, writerPut_raise h⟩
  · exact .inl ⟨h, writerPut_ok h⟩

@[simp] theorem Flow.ok_andThen (s : State) (f : State → Flow) : (Flow.ok s).andThen f = f s := rfl

@[simp] theorem Flow.raise_andThen (e : ErrCode) (s : State) (f : State → Flow) :
    (Flow.raise e s).andThen f = .raise e s := rfl

theorem Flow.andThen_assoc (x : Flow) (f g : State → Flow) :
    (x.andThen f).andThen g = x.andThen fun s => (f s).andThen g := by
  cases x <;> rfl

/-! ### What the scan leaves alone -/

/-- What no step of the encoder's body changes from one state to the next. -/
structure ScanFrame (s t : State) : Prop where
  host : KeepsHostRegisters s t
  dim : t.dim = s.dim
  flags : t.flags = s.flags
  mem : t.mem = s.mem
  draws : t.draws = s.draws
  ops : t.eng.ops = s.eng.ops
  wrCap : t.eng.wrCap = s.eng.wrCap
  strideOut : t.eng.strideOut = s.eng.strideOut

theorem ScanFrame.refl (s : State) : ScanFrame s s := by
  constructor <;> first | rfl | (constructor <;> rfl)

theorem ScanFrame.trans {s t u : State} (h : ScanFrame s t) (h' : ScanFrame t u) : ScanFrame s u where
  host := ⟨h'.host.cmd.trans h.host.cmd, h'.host.srcAddr.trans h.host.srcAddr, h'.host.srcLen.trans h.host.srcLen,
    h'.host.dstAddr.trans h.host.dstAddr, h'.host.dstCap.trans h.host.dstCap,
    h'.host.xpalAddr.trans h.host.xpalAddr, h'.host.xpalLen.trans h.host.xpalLen,
    h'.host.palColor.trans h.host.palColor, h'.host.host.trans h.host.host,
    h'.host.hostData.trans h.host.hostData⟩
  dim := h'.dim.trans h.dim
  flags := h'.flags.trans h.flags
  mem := h'.mem.trans h.mem
  draws := h'.draws.trans h.draws
  ops := h'.ops.trans h.ops
  wrCap := h'.wrCap.trans h.wrCap
  strideOut := h'.strideOut.trans h.strideOut

/-! ### One pair -/

theorem length_pairBytes (p : Nat × Nat) : (pairBytes p).length = 2 := rfl

/-- EmitPair where the table and the destination have room (spec/44_rle_encoder.md R203). -/
theorem emitPair_ok (s : State)
    (hc : (offerColor (strideOf s.eng.ops.flags) s.palette s.eng.runColor).length ≤ 256)
    (hr : s.eng.out.length + 2 ≤ s.eng.wrCap) :
    ∃ t, emitPair s = .ok t ∧ ScanFrame s t ∧
      t.palette = offerColor (strideOf s.eng.ops.flags) s.palette s.eng.runColor ∧
      (∀ j, t.palette.length ≤ j → t.palEntry j = s.palEntry j) ∧
      t.eng.out = s.eng.out ++
        pairBytes (s.eng.runLen, colorIndex (strideOf s.eng.ops.flags) t.palette s.eng.runColor) ∧
      t.eng.p = s.eng.p + 1 ∧ t.pairCount = BitVec.ofNat 32 (s.eng.p + 1) ∧ t.eng.i = s.eng.i := by
  obtain ⟨pal, palLen, hf, hp, hb⟩ := findOrInsert_some (strideOf_cases _) s.eng.runColor s hc
  unfold emitPair
  rw [hf]
  dsimp only
  rw [writerPut_ok (by simpa using hr)]
  refine ⟨_, rfl, ?_, ?_, ?_, ?_, rfl, rfl, rfl⟩
  · constructor <;> first | rfl | (constructor <;> rfl)
  · exact hp
  · intro j hj
    exact hb j (hp ▸ hj)
  · show s.eng.out ++ _ = s.eng.out ++ _
    rw [← hp]
    rfl

/-- EmitPair where the colour would be the 257th (spec/44_rle_encoder.md R212). -/
theorem emitPair_full (s : State)
    (hc : 256 < (offerColor (strideOf s.eng.ops.flags) s.palette s.eng.runColor).length) :
    emitPair s = .raise .tooManyColors s := by
  unfold emitPair
  rw [findOrInsert_none _ _ hc]

/-- EmitPair where the colour has its entry and the pair does not fit (spec/44_rle_encoder.md R212). -/
theorem emitPair_big (s : State)
    (hc : (offerColor (strideOf s.eng.ops.flags) s.palette s.eng.runColor).length ≤ 256)
    (hr : s.eng.wrCap < s.eng.out.length + 2) :
    ∃ t, emitPair s = .raise .outputTooLarge t ∧ ScanFrame s t ∧ t.eng.out = s.eng.out ∧ t.eng.p = s.eng.p ∧
      t.pairCount = s.pairCount ∧
      t.palette = offerColor (strideOf s.eng.ops.flags) s.palette s.eng.runColor := by
  obtain ⟨pal, palLen, hf, hp, -⟩ := findOrInsert_some (strideOf_cases _) s.eng.runColor s hc
  unfold emitPair
  rw [hf]
  dsimp only
  rw [writerPut_raise (by simpa using hr)]
  refine ⟨_, rfl, ?_, rfl, rfl, rfl, hp⟩
  constructor <;> first | rfl | (constructor <;> rfl)

/-! ### The scan -/

/-- The n pixels from number i on. -/
def pixelsFrom (o : Operands) (m : Memory) (i n : Nat) : List Word := (List.range' i n).map (pixelAt o m)

theorem pixelsFrom_succ (o : Operands) (m : Memory) (i n : Nat) :
    pixelsFrom o m i (n + 1) = pixelAt o m i :: pixelsFrom o m (i + 1) n := by
  simp [pixelsFrom, List.range'_succ]

/-- The runs the rest of the scan closes, the current one and the final one among them. -/
def scanRuns (n : Nat) (s : State) : List (Nat × Word) :=
  runsFrom s.eng.runColor s.eng.runLen (pixelsFrom s.eng.ops s.mem s.eng.i n)

/-- The palette the rest of the scan builds. -/
def scanPalette (n : Nat) (s : State) : List Word :=
  growPalette (strideOf s.eng.ops.flags) s.palette ((scanRuns n s).map Prod.snd)

/-- The pairs the rest of the scan writes. -/
def scanPairs (n : Nat) (s : State) : List (Nat × Nat) :=
  (scanRuns n s).map fun r => (r.1, colorIndex (strideOf s.eng.ops.flags) (scanPalette n s) r.2)

/-- The state in which pixel number s.eng.i has joined the run. -/
def joinRun (s : State) : State :=
  { s with eng := { s.eng with runLen := s.eng.runLen + 1, i := s.eng.i + 1 } }

/-- The state in which pixel number i, of colour c, has started a run. -/
def newRun (c : Word) (s : State) : State :=
  { s with eng := { s.eng with runColor := c, runLen := 1, i := s.eng.i + 1 } }

theorem joinRun_frame (s : State) : ScanFrame s (joinRun s) := by
  constructor <;> first | rfl | (constructor <;> rfl)

theorem newRun_frame (c : Word) (s : State) : ScanFrame s (newRun c s) := by
  constructor <;> first | rfl | (constructor <;> rfl)

/-- A pixel joins the current run exactly when it equals run_color and run_len < 255 (spec/44_rle_encoder.md R202). -/
abbrev joins (s : State) : Prop := pixelAt s.eng.ops s.mem s.eng.i = s.eng.runColor ∧ s.eng.runLen < 255

theorem encodeScan_succ_join {n : Nat} {s : State} (h : joins s) :
    encodeScan (n + 1) s = encodeScan n (joinRun s) := by
  rw [encodeScan]
  exact if_pos h

theorem encodeScan_succ_close {n : Nat} {s : State} (h : ¬ joins s) :
    encodeScan (n + 1) s =
      (emitPair s).andThen fun t => encodeScan n (newRun (pixelAt s.eng.ops s.mem s.eng.i) t) := by
  rw [encodeScan]
  simp only [if_neg h]
  cases emitPair s <;> rfl

theorem scanRuns_succ_join {n : Nat} {s : State} (h : joins s) : scanRuns (n + 1) s = scanRuns n (joinRun s) := by
  unfold scanRuns
  rw [pixelsFrom_succ, runsFrom, if_pos h]
  rfl

theorem scanRuns_succ_close {n : Nat} {s t : State} (h : ¬ joins s) (hf : ScanFrame s t) (hi : t.eng.i = s.eng.i) :
    scanRuns (n + 1) s = (s.eng.runLen, s.eng.runColor) ::
      scanRuns n (newRun (pixelAt s.eng.ops s.mem s.eng.i) t) := by
  unfold scanRuns
  rw [pixelsFrom_succ, runsFrom, if_neg h]
  simp only [newRun, hf.ops, hf.mem, hi]

theorem scanPalette_succ_join {n : Nat} {s : State} (h : joins s) :
    scanPalette (n + 1) s = scanPalette n (joinRun s) := by
  unfold scanPalette
  rw [scanRuns_succ_join h]
  rfl

theorem scanPalette_succ_close {n : Nat} {s t : State} (h : ¬ joins s) (hf : ScanFrame s t)
    (hi : t.eng.i = s.eng.i)
    (hp : t.palette = offerColor (strideOf s.eng.ops.flags) s.palette s.eng.runColor) :
    scanPalette (n + 1) s = scanPalette n (newRun (pixelAt s.eng.ops s.mem s.eng.i) t) := by
  unfold scanPalette
  rw [scanRuns_succ_close h hf hi]
  have h1 : (newRun (pixelAt s.eng.ops s.mem s.eng.i) t).palette = t.palette := rfl
  have h2 : (newRun (pixelAt s.eng.ops s.mem s.eng.i) t).eng.ops = s.eng.ops := hf.ops
  rw [h1, h2, hp]
  rfl

theorem scanPalette_zero (s : State) :
    scanPalette 0 s = offerColor (strideOf s.eng.ops.flags) s.palette s.eng.runColor := rfl

theorem scanPairs_zero (s : State) :
    scanPairs 0 s = [(s.eng.runLen, colorIndex (strideOf s.eng.ops.flags) (scanPalette 0 s) s.eng.runColor)] := rfl

theorem scanPairs_succ_join {n : Nat} {s : State} (h : joins s) : scanPairs (n + 1) s = scanPairs n (joinRun s) := by
  unfold scanPairs
  rw [scanRuns_succ_join h, scanPalette_succ_join h]
  rfl

theorem scanPairs_succ_close {n : Nat} {s t : State} (h : ¬ joins s) (hf : ScanFrame s t)
    (hi : t.eng.i = s.eng.i)
    (hp : t.palette = offerColor (strideOf s.eng.ops.flags) s.palette s.eng.runColor) :
    scanPairs (n + 1) s =
      (s.eng.runLen, colorIndex (strideOf s.eng.ops.flags) t.palette s.eng.runColor) ::
        scanPairs n (newRun (pixelAt s.eng.ops s.mem s.eng.i) t) := by
  have hidx : colorIndex (strideOf s.eng.ops.flags) (scanPalette (n + 1) s) s.eng.runColor =
      colorIndex (strideOf s.eng.ops.flags) t.palette s.eng.runColor := by
    rw [scanPalette, scanRuns_succ_close h hf hi, hp]
    exact colorIndex_grow (strideOf_cases _) _ _ _
  have hops : (newRun (pixelAt s.eng.ops s.mem s.eng.i) t).eng.ops = s.eng.ops := hf.ops
  rw [← hidx]
  unfold scanPairs
  rw [scanPalette_succ_close h hf hi hp, scanRuns_succ_close h hf hi, List.map_cons, hops,
    ← scanPalette_succ_close h hf hi hp]

theorem offerColor_length_le_scan (n : Nat) (s : State) :
    (offerColor (strideOf s.eng.ops.flags) s.palette s.eng.runColor).length ≤ (scanPalette n s).length := by
  have h := growPalette_runsFrom (strideOf_cases s.eng.ops.flags) s.eng.runColor s.eng.runLen
    (pixelsFrom s.eng.ops s.mem s.eng.i n) s.palette
  unfold scanPalette scanRuns
  rw [h]
  exact growPalette_length_le _ _ _

theorem scanPairs_length_pos (n : Nat) (s : State) : 0 < (scanPairs n s).length := by
  have : ∀ c k ds, 0 < (runsFrom c k ds).length := by
    intro c k ds
    induction ds generalizing c k with
    | nil => simp [runsFrom]
    | cons d ds ih =>
      unfold runsFrom
      split
      · exact ih _ _
      · simp
  simpa [scanPairs, scanRuns] using this _ _ _

/-- The scan and the final flush where the table and the destination have room for all of it: every run's pair is
appended, the palette is the one its colours build (spec/44_rle_encoder.md R202, R203, R205, R211). -/
theorem scan_emit_ok (n : Nat) (s : State) (hc : (scanPalette n s).length ≤ 256)
    (hr : s.eng.out.length + 2 * (scanPairs n s).length ≤ s.eng.wrCap) :
    ∃ t, (encodeScan n s).andThen emitPair = .ok t ∧ ScanFrame s t ∧ t.palette = scanPalette n s ∧
      (∀ j, t.palette.length ≤ j → t.palEntry j = s.palEntry j) ∧
      t.eng.out = s.eng.out ++ (scanPairs n s).flatMap pairBytes ∧
      t.eng.p = s.eng.p + (scanPairs n s).length ∧ t.pairCount = BitVec.ofNat 32 t.eng.p := by
  induction n generalizing s with
  | zero =>
    obtain ⟨t, h1, h2, h3, h4, h5, h6, h7, -⟩ := emitPair_ok s hc (by simpa [scanPairs_zero] using hr)
    refine ⟨t, h1, h2, h3, h4, ?_, by rw [h6]; rfl, by rw [h7, h6]⟩
    rw [h5, h3, scanPairs_zero, scanPalette_zero]
    simp
  | succ n ih =>
    by_cases hj : joins s
    · rw [encodeScan_succ_join hj, scanPalette_succ_join hj, scanPairs_succ_join hj] at *
      obtain ⟨t, h1, h2, h3, h4, h5, h6, h7⟩ := ih (joinRun s) hc hr
      exact ⟨t, h1, (joinRun_frame s).trans h2, h3, h4, h5, h6, h7⟩
    · have hpos := scanPairs_length_pos (n + 1) s
      obtain ⟨t, h1, h2, h3, h4, h5, h6, h7, h8⟩ :=
        emitPair_ok s ((offerColor_length_le_scan (n + 1) s).trans hc) (by omega)
      have hpc := scanPairs_succ_close (n := n) hj h2 h8 h3
      have hpal := scanPalette_succ_close (n := n) hj h2 h8 h3
      rw [hpal] at hc
      rw [hpc, List.length_cons] at hr
      obtain ⟨u, g1, g2, g3, g4, g5, g6, g7⟩ := ih (newRun (pixelAt s.eng.ops s.mem s.eng.i) t) hc (by
        show t.eng.out.length + _ ≤ t.eng.wrCap
        rw [h5, h2.wrCap, List.length_append, length_pairBytes]
        omega)
      refine ⟨u, ?_, h2.trans ((newRun_frame _ t).trans g2), g3.trans hpal.symm, fun j hj' => ?_, ?_, ?_, g7⟩
      · rw [encodeScan_succ_close hj, h1, Flow.ok_andThen]
        exact g1
      · rw [g4 j hj']
        refine h4 j (Nat.le_trans ?_ hj')
        rw [g3]
        exact growPalette_length_le _ _ _
      · rw [g5, hpc]
        show t.eng.out ++ _ = _
        rw [h5]
        simp
      · rw [g6, hpc, List.length_cons]
        show t.eng.p + _ = _
        omega

/-- The scan and the final flush where the table has room for every colour and the destination does not have room for
every pair: OutputTooLarge, the cursor at the last pair that fitted (spec/44_rle_encoder.md R212). -/
theorem scan_emit_big (n : Nat) (s : State) (hc : (scanPalette n s).length ≤ 256)
    (h0 : s.eng.out.length ≤ s.eng.wrCap)
    (hr : s.eng.wrCap < s.eng.out.length + 2 * (scanPairs n s).length) :
    ∃ t, (encodeScan n s).andThen emitPair = .raise .outputTooLarge t ∧ ScanFrame s t ∧
      s.eng.out.length ≤ t.eng.out.length ∧ t.eng.out.length ≤ s.eng.wrCap := by
  induction n generalizing s with
  | zero =>
    obtain ⟨t, h1, h2, h3, -⟩ := emitPair_big s hc (by simpa [scanPairs_zero] using hr)
    exact ⟨t, h1, h2, by rw [h3], by rw [h3]; exact h0⟩
  | succ n ih =>
    by_cases hj : joins s
    · rw [encodeScan_succ_join hj, scanPalette_succ_join hj, scanPairs_succ_join hj] at *
      obtain ⟨t, h1, h2, h3, h4⟩ := ih (joinRun s) hc h0 hr
      exact ⟨t, h1, (joinRun_frame s).trans h2, h3, h4⟩
    · have hc' := (offerColor_length_le_scan (n + 1) s).trans hc
      rcases Nat.lt_or_ge s.eng.wrCap (s.eng.out.length + 2) with hb | hb
      · obtain ⟨t, h1, h2, h3, -⟩ := emitPair_big s hc' hb
        refine ⟨t, ?_, h2, by rw [h3], by rw [h3]; exact h0⟩
        rw [encodeScan_succ_close hj, h1]
        rfl
      · obtain ⟨t, h1, h2, h3, h4, h5, h6, h7, h8⟩ := emitPair_ok s hc' hb
        have hpc := scanPairs_succ_close (n := n) hj h2 h8 h3
        have hpal := scanPalette_succ_close (n := n) hj h2 h8 h3
        rw [hpal] at hc
        rw [hpc, List.length_cons] at hr
        have hlen : t.eng.out.length = s.eng.out.length + 2 := by
          rw [h5, List.length_append, length_pairBytes]
        have hcap : t.eng.wrCap = s.eng.wrCap := h2.wrCap
        obtain ⟨u, g1, g2, g3, g4⟩ := ih (newRun (pixelAt s.eng.ops s.mem s.eng.i) t) hc
          (by show t.eng.out.length ≤ t.eng.wrCap; omega)
          (by show t.eng.wrCap < t.eng.out.length + _; omega)
        refine ⟨u, ?_, h2.trans ((newRun_frame _ t).trans g2), ?_, ?_⟩
        · rw [encodeScan_succ_close hj, h1, Flow.ok_andThen]
          exact g1
        · have : t.eng.out.length ≤ u.eng.out.length := g3
          omega
        · have : u.eng.out.length ≤ t.eng.wrCap := g4
          omega

/-- A palette that one more colour would make too long has 256 entries. -/
theorem palette_full {st : Nat} {c : Word} {s : State} (hc : 256 < (offerColor st s.palette c).length) :
    s.palette.length = 256 := by
  have := s.palette_length_le
  cases h : s.palette.any fun e => sameColor st e c
  · rw [offerColor_of_not_mem h, List.length_append, List.length_singleton] at hc
    omega
  · rw [offerColor_of_mem h] at hc
    omega

/-- The scan and the final flush where the colours are too many for the table and the destination has room for every
pair: TooManyColors, the table full of the first 256 entries, the pairs before the raise written
(spec/44_rle_encoder.md R212). -/
theorem scan_emit_full (n : Nat) (s : State) (hc : 256 < (scanPalette n s).length)
    (hr : s.eng.out.length + 2 * (scanPairs n s).length ≤ s.eng.wrCap)
    (hp : s.pairCount = BitVec.ofNat 32 s.eng.p) :
    ∃ t q, (encodeScan n s).andThen emitPair = .raise .tooManyColors t ∧ ScanFrame s t ∧
      t.palette = (scanPalette n s).take 256 ∧ q ≤ (scanPairs n s).length ∧
      t.eng.out.length = s.eng.out.length + 2 * q ∧ t.pairCount = BitVec.ofNat 32 (s.eng.p + q) := by
  have full : ∀ n s, 256 < (offerColor (strideOf s.eng.ops.flags) s.palette s.eng.runColor).length →
      s.palette = (scanPalette n s).take 256 := by
    intro n s h
    rw [← palette_full h]
    exact List.prefix_iff_eq_take.1 (growPalette_prefix _ _ _)
  induction n generalizing s with
  | zero => exact ⟨s, 0, emitPair_full s hc, ScanFrame.refl s, full 0 s hc, Nat.zero_le _, rfl, hp⟩
  | succ n ih =>
    by_cases hj : joins s
    · rw [encodeScan_succ_join hj, scanPalette_succ_join hj, scanPairs_succ_join hj] at *
      obtain ⟨t, q, h1, h2, h3⟩ := ih (joinRun s) hc hr hp
      exact ⟨t, q, h1, (joinRun_frame s).trans h2, h3⟩
    · rw [encodeScan_succ_close hj]
      rcases Nat.lt_or_ge 256 (offerColor (strideOf s.eng.ops.flags) s.palette s.eng.runColor).length with hf | hf
      · exact ⟨s, 0, by rw [emitPair_full s hf]; rfl, ScanFrame.refl s, full _ s hf, Nat.zero_le _, rfl, hp⟩
      · have hpos := scanPairs_length_pos (n + 1) s
        obtain ⟨t, h1, h2, h3, -, h5, h6, h7, h8⟩ := emitPair_ok s hf (by omega)
        have hpc := scanPairs_succ_close (n := n) hj h2 h8 h3
        have hpal := scanPalette_succ_close (n := n) hj h2 h8 h3
        have hlen : t.eng.out.length = s.eng.out.length + 2 := by rw [h5, List.length_append, length_pairBytes]
        have hcap : t.eng.wrCap = s.eng.wrCap := h2.wrCap
        rw [hpal] at hc ⊢
        rw [hpc, List.length_cons] at hr ⊢
        obtain ⟨u, q, g1, g2, g3, g4, g5, g6⟩ := ih (newRun (pixelAt s.eng.ops s.mem s.eng.i) t) hc
          (by show t.eng.out.length + _ ≤ t.eng.wrCap; omega) (by show t.pairCount = BitVec.ofNat 32 t.eng.p; rw [h7, h6])
        refine ⟨u, q + 1, ?_, h2.trans ((newRun_frame _ t).trans g2), g3, by omega, ?_, ?_⟩
        · rw [h1, Flow.ok_andThen]
          exact g1
        · rw [g5]
          show t.eng.out.length + _ = _
          omega
        · rw [g6]
          show BitVec.ofNat 32 (t.eng.p + q) = _
          rw [h6, Nat.add_assoc, Nat.add_comm 1]

/-- What the scan and the flush can do, whatever the operands: they change nothing outside `ScanFrame`, append to what
was written, never past the capacity, and raise only TooManyColors and OutputTooLarge. -/
theorem scan_emit_frame (n : Nat) (s : State) (h0 : s.eng.out.length ≤ s.eng.wrCap) :
    (∃ t, (encodeScan n s).andThen emitPair = .ok t ∧ ScanFrame s t ∧ s.eng.out.length ≤ t.eng.out.length ∧
      t.eng.out.length ≤ s.eng.wrCap) ∨
    ∃ e t, (e = .tooManyColors ∨ e = .outputTooLarge) ∧ (encodeScan n s).andThen emitPair = .raise e t ∧
      ScanFrame s t ∧ s.eng.out.length ≤ t.eng.out.length ∧ t.eng.out.length ≤ s.eng.wrCap := by
  have one : ∀ s : State, s.eng.out.length ≤ s.eng.wrCap →
      (∃ t, emitPair s = .ok t ∧ ScanFrame s t ∧ s.eng.out.length ≤ t.eng.out.length ∧
        t.eng.out.length ≤ s.eng.wrCap ∧ t.eng.i = s.eng.i) ∨
      ∃ e t, (e = .tooManyColors ∨ e = .outputTooLarge) ∧ emitPair s = .raise e t ∧ ScanFrame s t ∧
        s.eng.out.length ≤ t.eng.out.length ∧ t.eng.out.length ≤ s.eng.wrCap := by
    intro s h0
    rcases Nat.lt_or_ge 256 (offerColor (strideOf s.eng.ops.flags) s.palette s.eng.runColor).length with hc | hc
    · exact .inr ⟨_, s, .inl rfl, emitPair_full s hc, ScanFrame.refl s, le_refl _, h0⟩
    · rcases Nat.lt_or_ge s.eng.wrCap (s.eng.out.length + 2) with hb | hb
      · obtain ⟨t, h1, h2, h3, -⟩ := emitPair_big s hc hb
        exact .inr ⟨_, t, .inr rfl, h1, h2, by rw [h3], by rw [h3]; exact h0⟩
      · obtain ⟨t, h1, h2, -, -, h5, -, -, h8⟩ := emitPair_ok s hc hb
        have hl : t.eng.out.length = s.eng.out.length + 2 := by rw [h5, List.length_append, length_pairBytes]
        exact .inl ⟨t, h1, h2, by omega, by omega, h8⟩
  induction n generalizing s with
  | zero =>
    rcases one s h0 with ⟨t, h1, h2, h3, h4, -⟩ | h
    · exact .inl ⟨t, h1, h2, h3, h4⟩
    · exact .inr h
  | succ n ih =>
    by_cases hj : joins s
    · rw [encodeScan_succ_join hj]
      rcases ih (joinRun s) h0 with ⟨t, h1, h2, h3, h4⟩ | ⟨e, t, he, h1, h2, h3, h4⟩
      · exact .inl ⟨t, h1, (joinRun_frame s).trans h2, h3, h4⟩
      · exact .inr ⟨e, t, he, h1, (joinRun_frame s).trans h2, h3, h4⟩
    · rw [encodeScan_succ_close hj]
      rcases one s h0 with ⟨t, h1, h2, h3, h4, -⟩ | ⟨e, t, he, h1, h2, h3, h4⟩
      · rw [h1, Flow.ok_andThen]
        have hcap : t.eng.wrCap = s.eng.wrCap := h2.wrCap
        rcases ih (newRun (pixelAt s.eng.ops s.mem s.eng.i) t)
            (by show t.eng.out.length ≤ t.eng.wrCap; omega) with
          ⟨u, g1, g2, g3, g4⟩ | ⟨e, u, he, g1, g2, g3, g4⟩
        · have g3' : t.eng.out.length ≤ u.eng.out.length := g3
          have g4' : u.eng.out.length ≤ t.eng.wrCap := g4
          exact .inl ⟨u, g1, h2.trans ((newRun_frame _ t).trans g2), by omega, by omega⟩
        · have g3' : t.eng.out.length ≤ u.eng.out.length := g3
          have g4' : u.eng.out.length ≤ t.eng.wrCap := g4
          exact .inr ⟨e, u, he, g1, h2.trans ((newRun_frame _ t).trans g2), by omega, by omega⟩
      · rw [h1]
        exact .inr ⟨e, t, he, rfl, h2, h3, h4⟩

/-! ### The embedded palette -/

/-- The n palette entries from j on, as bytes. -/
def entryBytes (st n j : Nat) (s : State) : List Byte :=
  (List.range' j n).flatMap fun k => colorBytes st (s.palEntry k)

theorem entryBytes_all (st : Nat) (s : State) :
    entryBytes st s.palLen.val 0 s = s.palette.flatMap (colorBytes st) := by
  simp [entryBytes, State.palette, List.range_eq_range', List.flatMap_map]

theorem length_entryBytes {st : Nat} (hst : st = 3 ∨ st = 4) (n j : Nat) (s : State) :
    (entryBytes st n j s).length = n * st := by
  induction n generalizing j with
  | zero => simp [entryBytes]
  | succ n ih =>
    have := ih (j + 1)
    simp only [entryBytes, List.range'_succ, List.flatMap_cons, List.length_append] at this ⊢
    rw [this, length_colorBytes_of_stride hst]
    ring

/-- Appending entries that fit (spec/44_rle_encoder.md R206). -/
theorem putPalette_ok (n j : Nat) (s : State)
    (hr : s.eng.out.length + n * strideOf s.eng.ops.flags ≤ s.eng.wrCap) :
    putPalette n j s =
      .ok { s with eng := { s.eng with out := s.eng.out ++ entryBytes (strideOf s.eng.ops.flags) n j s } } := by
  induction n generalizing j s with
  | zero => simp [putPalette, entryBytes]
  | succ n ih =>
    have hl := length_colorBytes_of_stride (strideOf_cases s.eng.ops.flags) (s.palEntry j)
    have hmul : (n + 1) * strideOf s.eng.ops.flags = n * strideOf s.eng.ops.flags + strideOf s.eng.ops.flags := by
      ring
    rw [putPalette, writerPut_ok (by rw [hl]; omega), Flow.ok_andThen, ih]
    · simp [entryBytes, List.range'_succ, State.palEntry, List.append_assoc]
    · simp only [List.length_append, hl]
      omega

/-- Appending entries that do not all fit raises OutputTooLarge within the capacity (spec/44_rle_encoder.md R212). -/
theorem putPalette_big (n j : Nat) (s : State) (h0 : s.eng.out.length ≤ s.eng.wrCap)
    (hr : s.eng.wrCap < s.eng.out.length + n * strideOf s.eng.ops.flags) :
    ∃ out, putPalette n j s = .raise .outputTooLarge { s with eng := { s.eng with out := out } } ∧
      s.eng.out.length ≤ out.length ∧ out.length ≤ s.eng.wrCap := by
  induction n generalizing j s with
  | zero => simp only [Nat.zero_mul, Nat.add_zero] at hr; omega
  | succ n ih =>
    have hl := length_colorBytes_of_stride (strideOf_cases s.eng.ops.flags) (s.palEntry j)
    have hmul : (n + 1) * strideOf s.eng.ops.flags = n * strideOf s.eng.ops.flags + strideOf s.eng.ops.flags := by
      ring
    rw [putPalette]
    rcases writerPut_cases (colorBytes (strideOf s.eng.ops.flags) (s.palEntry j)) s with ⟨hf, h⟩ | ⟨hf, h⟩
    · rw [h, Flow.ok_andThen]
      rw [hl] at hf
      obtain ⟨out, h1, h2, h3⟩ := ih (j + 1)
        { s with eng := { s.eng with out := s.eng.out ++ colorBytes (strideOf s.eng.ops.flags) (s.palEntry j) } }
        (by simp only [List.length_append, hl]; omega) (by simp only [List.length_append, hl]; omega)
      simp only [List.length_append, hl] at h2
      exact ⟨out, h1, by omega, h3⟩
    · rw [h]
      exact ⟨s.eng.out, rfl, le_refl _, h0⟩

/-- What appending entries can do, whatever the capacity. -/
theorem putPalette_frame (n j : Nat) (s : State) (h0 : s.eng.out.length ≤ s.eng.wrCap) :
    ∃ out, s.eng.out.length ≤ out.length ∧ out.length ≤ s.eng.wrCap ∧
      (putPalette n j s = .ok { s with eng := { s.eng with out := out } } ∨
        putPalette n j s = .raise .outputTooLarge { s with eng := { s.eng with out := out } }) := by
  rcases Nat.lt_or_ge s.eng.wrCap (s.eng.out.length + n * strideOf s.eng.ops.flags) with h | h
  · obtain ⟨out, h1, h2, h3⟩ := putPalette_big n j s h0 h
    exact ⟨out, h2, h3, .inr h1⟩
  · refine ⟨_, ?_, ?_, .inl (putPalette_ok n j s h)⟩
    · simp
    · rw [List.length_append, length_entryBytes (strideOf_cases _)]
      exact h

end Sys2Proof.Machine
end

