-- ==== Sys2Proof/Laws/Memory.lean ====
section
/-! SUPPORT. The laws of the memory: a read after a write of the same byte gives the value written, a write leaves
every other byte alone, and every operation keeps the canonical form (spec/00_scope.md R13, spec/20_memory.md R80). -/

namespace Sys2Proof.Machine

/-- The canonical form without the bound on addresses, in the shape the inductions below use. -/
def Memory.sorted (m : Memory) : Prop :=
  m.Pairwise (fun x y => x.1 < y.1) ∧ ∀ c ∈ m, c.2 ≠ unlistedByte

theorem Memory.wf_sorted {m : Memory} (h : m.wf) : m.sorted := ⟨h.1, fun c hc => (h.2 c hc).2⟩

theorem Memory.nil_wf : Memory.wf [] := ⟨List.Pairwise.nil, by simp⟩

theorem Memory.lookup_of_lt {m : Memory} {a : Nat} (h : ∀ c ∈ m, a < c.1) : m.lookup a = unlistedByte := by
  induction m with
  | nil => rfl
  | cons c t ih =>
    obtain ⟨k, b⟩ := c
    have hk : a < k := h (k, b) (by simp)
    simp only [Memory.lookup, if_neg (Nat.ne_of_gt hk)]
    exact ih fun c hc => h c (by simp [hc])

/-- Storing at one address leaves every other address alone, whatever the form of the memory. -/
theorem Memory.lookup_store_of_ne (m : Memory) {a x : Nat} (v : Byte) (h : x ≠ a) :
    (m.store a v).lookup x = m.lookup x := by
  induction m with
  | nil =>
    unfold Memory.store
    split
    · rfl
    · simp [Memory.lookup, h.symm]
  | cons c t ih =>
    obtain ⟨k, b⟩ := c
    unfold Memory.store
    split
    · split
      · rfl
      · simp [Memory.lookup, h.symm]
    · split
      · next hk =>
        subst hk
        split <;> simp [Memory.lookup, h.symm]
      · simp only [Memory.lookup, ih]

/-- Storing at an address makes it read the value stored. -/
theorem Memory.lookup_store_same {m : Memory} (hm : m.sorted) (a : Nat) (v : Byte) :
    (m.store a v).lookup a = v := by
  induction m with
  | nil =>
    unfold Memory.store
    split
    · next h => simp [Memory.lookup, h]
    · simp [Memory.lookup]
  | cons c t ih =>
    obtain ⟨k, b⟩ := c
    obtain ⟨hp, hv⟩ := hm
    rw [List.pairwise_cons] at hp
    have ht : Memory.sorted t := ⟨hp.2, fun c hc => hv c (by simp [hc])⟩
    unfold Memory.store
    split
    · next hak =>
      split
      · next hvu =>
        have : ∀ c ∈ (k, b) :: t, a < c.1 := by
          intro c hc
          rcases List.mem_cons.1 hc with rfl | hc
          · exact hak
          · exact hak.trans (hp.1 c hc)
        rw [Memory.lookup_of_lt this, hvu]
      · simp [Memory.lookup]
    · split
      · next hak =>
        subst hak
        split
        · next hvu => rw [Memory.lookup_of_lt hp.1, hvu]
        · simp [Memory.lookup]
      · next hne => simp only [Memory.lookup, if_neg (Ne.symm hne), ih ht]

theorem Memory.mem_store {m : Memory} {a : Nat} {v : Byte} {c : Host.Cell} (h : c ∈ m.store a v) :
    (c = (a, v) ∧ v ≠ unlistedByte) ∨ c ∈ m := by
  induction m with
  | nil =>
    unfold Memory.store at h
    split at h
    · simp at h
    · next hv => exact .inl ⟨by simpa using h, hv⟩
  | cons d t ih =>
    obtain ⟨k, b⟩ := d
    unfold Memory.store at h
    split at h
    · split at h
      · exact .inr h
      · next hv =>
        rcases List.mem_cons.1 h with h | h
        · exact .inl ⟨h, hv⟩
        · exact .inr h
    · split at h
      · split at h
        · exact .inr (by simp [h])
        · next hv =>
          rcases List.mem_cons.1 h with h | h
          · exact .inl ⟨h, hv⟩
          · exact .inr (by simp [h])
      · rcases List.mem_cons.1 h with h | h
        · exact .inr (by simp [h])
        · rcases ih h with h | h
          · exact .inl h
          · exact .inr (by simp [h])

/-- A store inside the address space keeps the canonical form. -/
theorem Memory.store_wf {m : Memory} (hm : m.wf) {a : Nat} (ha : a < 4294967296) (v : Byte) :
    (m.store a v).wf := by
  refine ⟨?_, fun c hc => ?_⟩
  · obtain ⟨hp, -⟩ := hm
    induction m with
    | nil =>
      unfold Memory.store
      split <;> simp
    | cons c t ih =>
      obtain ⟨k, b⟩ := c
      rw [List.pairwise_cons] at hp
      unfold Memory.store
      split
      · next hak =>
        split
        · exact List.pairwise_cons.2 hp
        · refine List.pairwise_cons.2 ⟨fun c hc => ?_, List.pairwise_cons.2 hp⟩
          rcases List.mem_cons.1 hc with rfl | hc
          · exact hak
          · exact hak.trans (hp.1 c hc)
      · next hnk =>
        split
        · next hak =>
          split
          · exact hp.2
          · exact List.pairwise_cons.2 ⟨fun c hc => by rw [hak]; exact hp.1 c hc, hp.2⟩
        · next hne =>
          refine List.pairwise_cons.2 ⟨fun c hc => ?_, ih hp.2⟩
          rcases Memory.mem_store hc with ⟨rfl, -⟩ | hc
          · show k < a
            omega
          · exact hp.1 c hc
  · rcases Memory.mem_store hc with ⟨rfl, hv⟩ | hc
    · exact ⟨ha, hv⟩
    · exact hm.2 c hc

theorem Memory.writeByte_wf {m : Memory} (hm : m.wf) (a : Word) (v : Byte) : (m.writeByte a v).wf :=
  Memory.store_wf hm a.isLt v

theorem Memory.readByte_writeByte_of_ne (m : Memory) {a x : Word} (v : Byte) (h : x ≠ a) :
    (m.writeByte a v).readByte x = m.readByte x :=
  Memory.lookup_store_of_ne m v fun hx => h (BitVec.eq_of_toNat_eq hx)

theorem Memory.readByte_writeByte_same {m : Memory} (hm : m.wf) (a : Word) (v : Byte) :
    (m.writeByte a v).readByte a = v :=
  Memory.lookup_store_same (Memory.wf_sorted hm) a.toNat v

theorem Memory.writeBytes_wf {m : Memory} (hm : m.wf) (a : Word) (bs : List Byte) : (m.writeBytes a bs).wf := by
  induction bs generalizing m a with
  | nil => exact hm
  | cons b bs ih => exact ih (Memory.writeByte_wf hm a b) (a + 1)

theorem Memory.havoc_wf {m : Memory} (hm : m.wf) (a : Word) (n d : Nat) : (m.havoc a n d).wf := by
  induction n generalizing m a d with
  | zero => exact hm
  | succ n ih => exact ih (Memory.writeByte_wf hm a _) (a + 1) (d + 1)

/-- How far x lies past a + 1, given how far it lies past a. -/
theorem offset_succ {x a : Word} (h : x ≠ a) : (x - (a + 1)).toNat = (x - a).toNat - 1 := by
  have : x.toNat ≠ a.toNat := fun hx => h (BitVec.eq_of_toNat_eq hx)
  bv_omega

theorem offset_pos {x a : Word} (h : x ≠ a) : 0 < (x - a).toNat := by
  have : x.toNat ≠ a.toNat := fun hx => h (BitVec.eq_of_toNat_eq hx)
  simp only [BitVec.toNat_sub]
  omega

/-- A write leaves every byte outside it alone. -/
theorem Memory.readByte_writeBytes_outside (m : Memory) (a x : Word) (bs : List Byte)
    (h : bs.length ≤ (x - a).toNat) : (m.writeBytes a bs).readByte x = m.readByte x := by
  induction bs generalizing m a with
  | nil => rfl
  | cons b bs ih =>
    have hx : x ≠ a := by
      rintro rfl
      simp at h
    have := offset_succ hx
    simp only [List.length_cons] at h
    rw [Memory.writeBytes, ih _ _ (by omega), Memory.readByte_writeByte_of_ne m b hx]

/-- A write of at most 2^32 bytes makes each of its addresses read the byte written there. -/
theorem Memory.readByte_writeBytes_inside {m : Memory} (hm : m.wf) (a x : Word) (bs : List Byte)
    (hlen : bs.length ≤ 4294967296) (h : (x - a).toNat < bs.length) :
    (m.writeBytes a bs).readByte x = bs[(x - a).toNat] := by
  induction bs generalizing m a with
  | nil => simp at h
  | cons b bs ih =>
    simp only [List.length_cons] at h hlen
    by_cases hx : x = a
    · subst hx
      have h0 : (x - x).toNat = 0 := by simp
      have hout : bs.length ≤ (x - (x + 1)).toNat := by
        bv_omega
      rw [Memory.writeBytes, Memory.readByte_writeBytes_outside _ _ _ _ hout,
        Memory.readByte_writeByte_same hm]
      simp
    · have h1 := offset_succ hx
      have h2 := offset_pos hx
      have h3 : (x - (a + 1)).toNat < bs.length := by omega
      rw [Memory.writeBytes, ih (Memory.writeByte_wf hm a b) (a + 1) (by omega) h3]
      have h4 : (x - a).toNat = (x - (a + 1)).toNat + 1 := by omega
      simp [h4]

/-- Free values leave every byte outside their range alone. -/
theorem Memory.readByte_havoc_outside (m : Memory) (a x : Word) (n d : Nat)
    (h : n ≤ (x - a).toNat) : (m.havoc a n d).readByte x = m.readByte x := by
  induction n generalizing m a d with
  | zero => rfl
  | succ n ih =>
    have hx : x ≠ a := by
      rintro rfl
      simp at h
    have := offset_succ hx
    rw [Memory.havoc, ih _ _ _ (by omega), Memory.readByte_writeByte_of_ne m _ hx]

@[simp] theorem Memory.length_readBytes (m : Memory) (a : Word) (n : Nat) : (m.readBytes a n).length = n := by
  simp [Memory.readBytes]

/-- Byte i of a read. -/
theorem Memory.getElem_readBytes (m : Memory) (a : Word) (n i : Nat) (h : i < (m.readBytes a n).length) :
    (m.readBytes a n)[i] = m.readByte (a + BitVec.ofNat 32 i) := by
  simp [Memory.readBytes]

theorem offset_add (a : Word) {i : Nat} (h : i < 4294967296) : (a + BitVec.ofNat 32 i - a).toNat = i := by
  have : (BitVec.ofNat 32 i).toNat = i := by simp only [BitVec.toNat_ofNat]; omega
  bv_omega

/-- Reading what was just written gives it back. -/
theorem Memory.readBytes_writeBytes {m : Memory} (hm : m.wf) (a : Word) (bs : List Byte)
    (hlen : bs.length ≤ 4294967296) : (m.writeBytes a bs).readBytes a bs.length = bs := by
  apply List.ext_getElem (by simp)
  intro i h1 h2
  have h3 : (a + BitVec.ofNat 32 i - a).toNat = i := offset_add a (by omega)
  rw [Memory.getElem_readBytes, Memory.readByte_writeBytes_inside hm _ _ _ hlen (by omega)]
  simp only [h3]

/-- Two memories that agree on a range read the same bytes there. -/
theorem Memory.readBytes_congr {m m' : Memory} {a : Word} {n : Nat}
    (h : ∀ i < n, m.readByte (a + BitVec.ofNat 32 i) = m'.readByte (a + BitVec.ofNat 32 i)) :
    m.readBytes a n = m'.readBytes a n := by
  simp only [Memory.readBytes]
  exact List.map_congr_left fun i hi => h i (List.mem_range.1 hi)

/-- Reading n bytes and then k more is reading n + k bytes. -/
theorem Memory.readBytes_add (m : Memory) (a : Word) (n k : Nat) :
    m.readBytes a (n + k) = m.readBytes a n ++ m.readBytes (a + BitVec.ofNat 32 n) k := by
  simp only [Memory.readBytes, List.range_add, List.map_append, List.map_map]
  congr 1
  refine List.map_congr_left fun i _ => ?_
  simp [BitVec.ofNat_add, BitVec.add_assoc]

/-- A stretch inside a read is the read of that stretch. -/
theorem Memory.readBytes_slice (m : Memory) (a : Word) (n off k : Nat) (h : off + k ≤ n) :
    ((m.readBytes a n).drop off).take k = m.readBytes (a + BitVec.ofNat 32 off) k := by
  obtain ⟨r, rfl⟩ := Nat.exists_eq_add_of_le h
  rw [Nat.add_assoc, Memory.readBytes_add, Memory.readBytes_add, List.drop_left' (by simp),
    List.take_left' (by simp)]

end Sys2Proof.Machine
end

