-- ==== Sys2Proof/Laws/Decoder.lean ====
section
/-! SUPPORT. The laws of the header codec, the validator and the decoder's replay (spec/42_header_codec.md,
spec/46_format_validator.md, spec/45_rle_decoder.md): what each can do, said once. -/

namespace Sys2Proof.Machine

/-! ### ParseHeader and Validate -/

/-- What ParseHeader can do (spec/42_header_codec.md R170): a source too short changes nothing; else the header is
loaded, and the first check that fails is reported. -/
theorem parseHeader_cases (s : State) :
    (s.eng.ops.srcLen.toNat < 16 ∧ parseHeader s = .raise .truncatedStream s) ∨
    (16 ≤ s.eng.ops.srcLen.toNat ∧ ∃ e, headerError (readHeader s.eng.ops s.mem) = some e ∧
      parseHeader s = .raise e (loadHeader (readHeader s.eng.ops s.mem) s)) ∨
    (16 ≤ s.eng.ops.srcLen.toNat ∧ headerError (readHeader s.eng.ops s.mem) = none ∧
      parseHeader s = .ok (loadHeader (readHeader s.eng.ops s.mem) s)) := by
  unfold parseHeader
  by_cases h : s.eng.ops.srcLen.toNat < 16
  · exact .inl ⟨h, if_pos h⟩
  · rw [if_neg h]
    dsimp only
    cases hh : headerError (readHeader s.eng.ops s.mem) with
    | none => exact .inr (.inr ⟨Nat.le_of_not_lt h, rfl, rfl⟩)
    | some e => exact .inr (.inl ⟨Nat.le_of_not_lt h, e, rfl, rfl⟩)

theorem parseHeader_ok {s : State} (h : 16 ≤ s.eng.ops.srcLen.toNat)
    (hh : headerError (readHeader s.eng.ops s.mem) = none) :
    parseHeader s = .ok (loadHeader (readHeader s.eng.ops s.mem) s) := by
  unfold parseHeader
  rw [if_neg (Nat.not_lt.2 h)]
  dsimp only
  rw [hh]

/-- The errors of ParseHeader's checks. -/
theorem headerError_some {h : Header} {e : ErrCode} (he : headerError h = some e) :
    e = .invalidMagic ∨ e = .unsupportedVersion ∨ e = .invalidDimensions := by
  unfold headerError at he
  split at he
  · exact .inl (Option.some.inj he).symm
  · split at he
    · exact .inr (.inl (Option.some.inj he).symm)
    · split at he
      · exact .inr (.inr (Option.some.inj he).symm)
      · cases he

/-- The errors of the validator's own checks. -/
theorem validatorError_some {o : Operands} {h : Header} {e : ErrCode} (he : validatorError o h = some e) :
    e = .invalidFlags ∨ e = .invalidPairCount ∨ e = .truncatedStream := by
  unfold validatorError at he
  split at he
  · exact .inl (Option.some.inj he).symm
  · split at he
    · exact .inr (.inl (Option.some.inj he).symm)
    · split at he
      · exact .inr (.inr (Option.some.inj he).symm)
      · split at he
        · exact .inr (.inr (Option.some.inj he).symm)
        · cases he

/-- What Validate can do (spec/46_format_validator.md R240, R241). -/
theorem validate_cases (s : State) :
    (s.eng.ops.srcLen.toNat < 16 ∧ validate s = .raise .truncatedStream s) ∨
    (16 ≤ s.eng.ops.srcLen.toNat ∧ ∃ e, headerError (readHeader s.eng.ops s.mem) = some e ∧
      validate s = .raise e (loadHeader (readHeader s.eng.ops s.mem) s)) ∨
    (16 ≤ s.eng.ops.srcLen.toNat ∧ headerError (readHeader s.eng.ops s.mem) = none ∧
      ∃ e, validatorError s.eng.ops (readHeader s.eng.ops s.mem) = some e ∧
        validate s = .raise e (loadHeader (readHeader s.eng.ops s.mem) s)) ∨
    (StreamValid s.eng.ops s.mem ∧ validate s = .ok (loadHeader (readHeader s.eng.ops s.mem) s)) := by
  unfold validate
  rcases parseHeader_cases s with ⟨h, hp⟩ | ⟨h, e, he, hp⟩ | ⟨h, he, hp⟩
  · exact .inl ⟨h, by rw [hp]; rfl⟩
  · exact .inr (.inl ⟨h, e, he, by rw [hp]; rfl⟩)
  · rw [hp, Flow.ok_andThen]
    simp only [loadHeader_eng_ops, loadHeader_mem]
    cases hv : validatorError s.eng.ops (readHeader s.eng.ops s.mem) with
    | none => exact .inr (.inr (.inr ⟨⟨h, he, hv⟩, rfl⟩))
    | some e => exact .inr (.inr (.inl ⟨h, he, e, rfl, rfl⟩))

theorem validate_ok {s : State} (h : StreamValid s.eng.ops s.mem) :
    validate s = .ok (loadHeader (readHeader s.eng.ops s.mem) s) := by
  unfold validate
  rw [parseHeader_ok h.length h.header, Flow.ok_andThen]
  simp only [loadHeader_eng_ops, loadHeader_mem, h.validator]

/-- A header with no error has dimensions (spec/42_header_codec.md R170). -/
theorem headerError_none {h : Header} (he : headerError h = none) :
    h.magic = Config.pieMagic ∧ h.version = Config.pieVersion ∧ h.width ≠ 0 ∧ h.height ≠ 0 := by
  unfold headerError at he
  split at he
  · cases he
  · next hm =>
    split at he
    · cases he
    · next hv =>
      split at he
      · cases he
      · next hd =>
        rw [not_or] at hd
        exact ⟨not_not.1 hm, not_not.1 hv, hd.1, hd.2⟩

theorem headerError_eq_none {h : Header} (hm : h.magic = Config.pieMagic) (hv : h.version = Config.pieVersion)
    (hw : h.width ≠ 0) (hh : h.height ≠ 0) : headerError h = none := by
  unfold headerError
  rw [if_neg (not_not.2 hm), if_neg (not_not.2 hv), if_neg (by rw [not_or]; exact ⟨hw, hh⟩)]

/-! ### The replay -/

/-- The n pairs from number k on. -/
def pairsFrom (o : Operands) (m : Memory) (k n : Nat) : List (Nat × Nat) :=
  (List.range' k n).map fun j => (pairRun o m j, pairIndex o m j)

theorem pairsFrom_succ (o : Operands) (m : Memory) (k n : Nat) :
    pairsFrom o m k (n + 1) = (pairRun o m k, pairIndex o m k) :: pairsFrom o m (k + 1) n := by
  simp [pairsFrom, List.range'_succ]

theorem streamPairs_eq (o : Operands) (m : Memory) :
    streamPairs o m = pairsFrom o m 0 (readHeader o m).pairCount.toNat := by
  simp [streamPairs, pairsFrom, List.range_eq_range']

/-- The state after replaying the pairs ps. -/
def afterPairs (ps : List (Nat × Nat)) (s : State) : State :=
  { s with eng := { s.eng with
      out := s.eng.out ++ replayedBytes s.mem s.eng.palBase s.eng.strideOut ps
      cur := s.eng.cur + runTotal ps
      k := s.eng.k + ps.length } }

theorem soundPairs_prefix (total pl cur : Nat) (ps : List (Nat × Nat)) : soundPairs total pl cur ps <+: ps := by
  induction ps generalizing cur with
  | nil => exact List.prefix_rfl
  | cons p ps ih =>
    obtain ⟨n, idx⟩ := p
    unfold soundPairs
    split
    · exact List.nil_prefix
    · exact List.cons_prefix_cons.2 ⟨rfl, ih _⟩

/-- The sound pairs never take the cursor past N. -/
theorem runTotal_soundPairs_le (total pl cur : Nat) (ps : List (Nat × Nat)) (h : cur ≤ total) :
    cur + runTotal (soundPairs total pl cur ps) ≤ total := by
  induction ps generalizing cur with
  | nil => simpa [soundPairs, runTotal] using h
  | cons p ps ih =>
    obtain ⟨n, idx⟩ := p
    unfold soundPairs
    split
    · simpa [runTotal] using h
    · next hc =>
      have := ih (cur + n) (by omega)
      simp only [runTotal, List.map_cons, List.sum_cons] at this ⊢
      omega

/-- What the replay can do (spec/45_rle_decoder.md R225, R227): it replays the sound pairs, and raises CorruptStream
at the first pair that is not. -/
theorem replay_eq (total n : Nat) (s : State) :
    replay total n s =
      if soundPairs total s.eng.pl s.eng.cur (pairsFrom s.eng.ops s.mem s.eng.k n)
          = pairsFrom s.eng.ops s.mem s.eng.k n then
        .ok (afterPairs (pairsFrom s.eng.ops s.mem s.eng.k n) s)
      else .raise .corruptStream
        (afterPairs (soundPairs total s.eng.pl s.eng.cur (pairsFrom s.eng.ops s.mem s.eng.k n)) s) := by
  induction n generalizing s with
  | zero => simp [replay, pairsFrom, soundPairs, afterPairs, replayedBytes, runTotal]
  | succ n ih =>
    rw [pairsFrom_succ, replay, soundPairs]
    dsimp only
    by_cases hc : pairRun s.eng.ops s.mem s.eng.k = 0 ∨ total < s.eng.cur + pairRun s.eng.ops s.mem s.eng.k ∨
        s.eng.pl ≤ pairIndex s.eng.ops s.mem s.eng.k
    · rw [if_pos hc, if_pos hc, if_neg (by simp)]
      simp [afterPairs, replayedBytes, runTotal]
    · rw [if_neg hc, if_neg hc, ih]
      simp only [List.cons.injEq, true_and]
      split
      · simp [afterPairs, replayedBytes, runTotal, Nat.add_assoc, Nat.add_comm 1]
      · simp [afterPairs, replayedBytes, runTotal, Nat.add_assoc, Nat.add_comm 1]

/-- A sound stretch of pairs gives s bytes a pixel. -/
theorem length_replayedBytes (m : Memory) (base : Word) (st : Nat) (ps : List (Nat × Nat)) :
    (replayedBytes m base st ps).length = runTotal ps * st := by
  induction ps with
  | nil => simp [replayedBytes, runTotal]
  | cons p ps ih =>
    simp only [replayedBytes, runTotal, List.flatMap_cons, List.length_append, List.map_cons, List.sum_cons] at ih ⊢
    rw [ih, Nat.add_mul]
    congr 1
    simp [sliceColor, Memory.length_readBytes]

end Sys2Proof.Machine
end

