-- ==== Sys2Proof/Laws/Commands.lean ====
section
/-! SUPPORT. What each command body can do, said once: which errors it raises, what it leaves alone, how far its output
gets; and what completion and error do with that (spec/40_command_protocol.md R144, spec/60_exceptions.md R253). -/

namespace Sys2Proof.Machine

theorem KeepsHostRegisters.refl (s : State) : KeepsHostRegisters s s := by constructor <;> rfl

theorem KeepsHostRegisters.trans {s t u : State} (h : KeepsHostRegisters s t) (h' : KeepsHostRegisters t u) :
    KeepsHostRegisters s u :=
  ⟨h'.cmd.trans h.cmd, h'.srcAddr.trans h.srcAddr, h'.srcLen.trans h.srcLen, h'.dstAddr.trans h.dstAddr,
    h'.dstCap.trans h.dstCap, h'.xpalAddr.trans h.xpalAddr, h'.xpalLen.trans h.xpalLen,
    h'.palColor.trans h.palColor, h'.host.trans h.host, h'.hostData.trans h.hostData⟩

/-- The commands that load DIM, FLAGS and PAIR_COUNT from a header (spec/10_state.md R42 to R44). -/
def loadsHeader (i : Instr) : Bool := i == .decode || i == .decodeXpal || i == .validate || i == .hdrParse

/-- The commands that run the encoder. -/
def encodes (i : Instr) : Bool := i == .encode || i == .encodeKeep

/-- The commands that write the palette table (spec/10_state.md R46). -/
def writesTable (i : Instr) : Bool := encodes i || i == .palClear || i == .palFind || i == .palFindA

/-- The commands that write memory (spec/20_memory.md R88). -/
def writesMemory (i : Instr) : Bool := encodes i || i == .decode || i == .decodeXpal || i == .hdrWrite

/-- What the body of command i keeps while it runs from s to t: the host's registers, memory, the draws, the latched
operands, and the registers i does not write; its stride is 0, 3 or 4 and its output fits the destination. -/
structure BodyFrame (i : Instr) (s t : State) : Prop where
  host : KeepsHostRegisters s t
  mem : t.mem = s.mem
  draws : t.draws = s.draws
  ops : t.eng.ops = s.eng.ops
  stride : t.eng.strideOut ∈ [0, 3, 4]
  room : t.eng.out.length ≤ s.eng.ops.dstCap.toNat
  header : loadsHeader i = false → t.dim = s.dim ∧ t.flags = s.flags
  pairs : loadsHeader i = false → encodes i = false → t.pairCount = s.pairCount
  table : writesTable i = false → t.pal = s.pal ∧ t.palLen = s.palLen
  output : writesMemory i = false → t.eng.out = []

/-- The body of command i from s ends inside its frame and raises none but i's errors. -/
def Ends (i : Instr) (s : State) : Flow → Prop
  | .ok t => BodyFrame i s t
  | .raise e t => e ∈ raisable i ∧ BodyFrame i s t

theorem stride_mem (f : Word) : strideOf f ∈ [0, 3, 4] := by
  rcases strideOf_cases f with h | h <;> simp [h]

theorem startCommand_frame (i : Instr) (s : State) : BodyFrame i (startCommand s) (startCommand s) :=
  ⟨KeepsHostRegisters.refl _, rfl, rfl, rfl, by simp, by simp, fun _ => ⟨rfl, rfl⟩, fun _ _ => rfl,
    fun _ => ⟨rfl, rfl⟩, fun _ => rfl⟩

theorem startCommand_keeps (s : State) : KeepsHostRegisters s (startCommand s) := by constructor <;> rfl

/-- Loading a header and giving a result is within the frame of a command that loads headers. -/
theorem loadHeader_frame {i : Instr} (hi : loadsHeader i = true) (h : Header) (s : State) :
    BodyFrame i (startCommand s) (loadHeader h (startCommand s)) :=
  ⟨by constructor <;> rfl, rfl, rfl, rfl, stride_mem _, by simp, fun h => by simp [hi] at h, fun h => by simp [hi] at h,
    fun _ => ⟨rfl, rfl⟩, fun _ => rfl⟩

theorem setResult_frame {i : Instr} {s t : State} (n : Nat) (h : BodyFrame i s t) : BodyFrame i s (setResult n t) :=
  ⟨⟨h.host.cmd, h.host.srcAddr, h.host.srcLen, h.host.dstAddr, h.host.dstCap, h.host.xpalAddr, h.host.xpalLen,
    h.host.palColor, h.host.host, h.host.hostData⟩, h.mem, h.draws, h.ops, h.stride, h.room, h.header, h.pairs, h.table,
    h.output⟩

/-! ### Header and validator -/

theorem ends_hdrParse (s : State) : Ends .hdrParse (startCommand s) (hdrParseBody (startCommand s)) := by
  unfold hdrParseBody
  rcases parseHeader_cases (startCommand s) with ⟨-, h⟩ | ⟨-, e, he, h⟩ | ⟨-, -, h⟩ <;> rw [h]
  · exact ⟨by simp [raisable], startCommand_frame _ s⟩
  · refine ⟨?_, loadHeader_frame rfl _ s⟩
    rcases headerError_some he with rfl | rfl | rfl <;> simp [raisable]
  · exact setResult_frame _ (loadHeader_frame rfl _ s)

theorem ends_validateBody (s : State) : Ends .validate (startCommand s) (validateBody (startCommand s)) := by
  unfold validateBody
  rcases validate_cases (startCommand s) with ⟨-, h⟩ | ⟨-, e, he, h⟩ | ⟨-, -, e, he, h⟩ | ⟨-, h⟩ <;> rw [h]
  · exact ⟨by simp [raisable], startCommand_frame _ s⟩
  · refine ⟨?_, loadHeader_frame rfl _ s⟩
    rcases headerError_some he with rfl | rfl | rfl <;> simp [raisable]
  · refine ⟨?_, loadHeader_frame rfl _ s⟩
    rcases validatorError_some he with rfl | rfl | rfl <;> simp [raisable]
  · exact setResult_frame _ (loadHeader_frame rfl _ s)

/-- What HDR_WRITE's body can do (spec/42_header_codec.md R175). -/
theorem hdrWriteBody_cases (s : State) :
    (reservedFlags s.eng.ops.flags ≠ 0 ∧ hdrWriteBody s = .raise .invalidFlags s) ∨
    (reservedFlags s.eng.ops.flags = 0 ∧ s.eng.ops.dstCap.toNat < 16 ∧
      hdrWriteBody s = .raise .outputTooLarge
        (writerInit { s with eng := { s.eng with strideOut := strideOf s.eng.ops.flags } })) ∨
    (reservedFlags s.eng.ops.flags = 0 ∧ 16 ≤ s.eng.ops.dstCap.toNat ∧
      hdrWriteBody s = .ok (setResult 16 { s with eng := { s.eng with
        strideOut := strideOf s.eng.ops.flags
        wrBase := s.eng.ops.dstAddr
        wrCap := s.eng.ops.dstCap.toNat
        out := serializeHeader (dimWidth s.eng.ops.dim) (dimHeight s.eng.ops.dim) s.eng.ops.flags
          s.eng.ops.pairCount } })) := by
  unfold hdrWriteBody
  dsimp only
  by_cases hf : reservedFlags s.eng.ops.flags ≠ 0
  · exact .inl ⟨hf, if_pos hf⟩
  · rw [if_neg hf]
    refine .inr ?_
    rcases writerPut_cases (serializeHeader (dimWidth s.eng.ops.dim) (dimHeight s.eng.ops.dim) s.eng.ops.flags
        s.eng.ops.pairCount) (writerInit { s with eng := { s.eng with strideOut := strideOf s.eng.ops.flags } })
      with ⟨h, hw⟩ | ⟨h, hw⟩
    · exact .inr ⟨not_not.1 hf, by simpa using h, by rw [hw, Flow.ok_andThen]; rfl⟩
    · exact .inl ⟨not_not.1 hf, by simpa using h, by rw [hw]; rfl⟩

theorem ends_hdrWrite (s : State) : Ends .hdrWrite (startCommand s) (hdrWriteBody (startCommand s)) := by
  rcases hdrWriteBody_cases (startCommand s) with ⟨-, h⟩ | ⟨-, -, h⟩ | ⟨-, hc, h⟩ <;> rw [h]
  · exact ⟨by simp [raisable], startCommand_frame _ s⟩
  · exact ⟨by simp [raisable], by constructor <;> rfl, rfl, rfl, rfl, stride_mem _, by simp, fun _ => ⟨rfl, rfl⟩,
      fun _ _ => rfl, fun _ => ⟨rfl, rfl⟩, fun _ => rfl⟩
  · exact ⟨by constructor <;> rfl, rfl, rfl, rfl, stride_mem _, hc, fun _ => ⟨rfl, rfl⟩, fun _ _ => rfl,
      fun _ => ⟨rfl, rfl⟩, fun h => by cases h⟩

/-! ### Palette table -/

theorem ends_palClear (s : State) : Ends .palClear (startCommand s) (palClearBody (startCommand s)) :=
  ⟨by constructor <;> rfl, rfl, rfl, rfl, by simp [setResult], by simp [setResult], fun _ => ⟨rfl, rfl⟩, fun _ _ => rfl,
    fun h => (by cases h), fun _ => rfl⟩

/-- What find-or-insert keeps. -/
theorem findOrInsert_shape {st : Nat} {c : Word} {s t : State} {j : Nat} (h : findOrInsert st c s = some (j, t)) :
    ∃ pal palLen, t = { s with pal := pal, palLen := palLen } := by
  rw [findOrInsert_eq] at h
  split at h
  · obtain ⟨-, rfl⟩ := Prod.mk.injEq .. ▸ Option.some.inj h
    exact ⟨s.pal, s.palLen, rfl⟩
  · split at h
    · cases h
    · obtain ⟨-, rfl⟩ := Prod.mk.injEq .. ▸ Option.some.inj h
      exact ⟨_, _, rfl⟩

theorem ends_palFind {i : Instr} (hi : i = .palFind ∨ i = .palFindA) {st : Nat} (hst : st ∈ [0, 3, 4]) (s : State) :
    Ends i (startCommand s) (palFindBody st (startCommand s)) := by
  have hr : raisable i = [.tooManyColors] := by rcases hi with rfl | rfl <;> rfl
  have ht : writesTable i = true := by rcases hi with rfl | rfl <;> rfl
  unfold palFindBody
  dsimp only
  split
  · next j t h =>
    obtain ⟨pal, palLen, rfl⟩ := findOrInsert_shape h
    exact ⟨by constructor <;> rfl, rfl, rfl, rfl, hst, by simp [setResult], fun _ => ⟨rfl, rfl⟩, fun _ _ => rfl,
      fun h => by simp [ht] at h, fun _ => rfl⟩
  · exact ⟨by simp [hr], by constructor <;> rfl, rfl, rfl, rfl, hst, by simp, fun _ => ⟨rfl, rfl⟩, fun _ _ => rfl,
      fun h => by simp [ht] at h, fun _ => rfl⟩

theorem ends_illegal (w : Word) (s : State) : Ends (.illegal w) (startCommand s) (illegalBody (startCommand s)) :=
  ⟨by simp [raisable], startCommand_frame _ s⟩

/-! ### Encoder -/

/-- The state in which ENCODE has put its header and starts to scan. -/
def afterHeader (keep : Bool) (s : State) : State :=
  let o := s.eng.ops
  startScan { s with
    palLen := if keep then s.palLen else 0
    eng := { s.eng with
      strideOut := strideOf o.flags
      wrBase := o.dstAddr
      wrCap := o.dstCap.toNat
      out := serializeHeader (dimWidth o.dim) (dimHeight o.dim) o.flags 0 } }

/-- What ENCODE's body can do before its scan (spec/44_rle_encoder.md R200, R212). -/
theorem encodeBody_cases (keep : Bool) (s : State) :
    (reservedFlags s.eng.ops.flags ≠ 0 ∧ encodeBody keep s = .raise .invalidFlags s) ∨
    (reservedFlags s.eng.ops.flags = 0 ∧ (dimWidth s.eng.ops.dim = 0 ∨ dimHeight s.eng.ops.dim = 0) ∧
      encodeBody keep s = .raise .invalidDimensions s) ∨
    (reservedFlags s.eng.ops.flags = 0 ∧ ¬ (dimWidth s.eng.ops.dim = 0 ∨ dimHeight s.eng.ops.dim = 0) ∧
      s.eng.ops.dstCap.toNat < 16 ∧
      encodeBody keep s = .raise .outputTooLarge (writerInit { s with
        palLen := if keep then s.palLen else 0
        eng := { s.eng with strideOut := strideOf s.eng.ops.flags } })) ∨
    (reservedFlags s.eng.ops.flags = 0 ∧ ¬ (dimWidth s.eng.ops.dim = 0 ∨ dimHeight s.eng.ops.dim = 0) ∧
      16 ≤ s.eng.ops.dstCap.toNat ∧
      encodeBody keep s = ((encodeScan (s.eng.ops.pixels - 1) (afterHeader keep s)).andThen emitPair).andThen
        encodeTail) := by
  unfold encodeBody
  dsimp only
  by_cases hf : reservedFlags s.eng.ops.flags ≠ 0
  · exact .inl ⟨hf, if_pos hf⟩
  · rw [if_neg hf]
    refine .inr ?_
    by_cases hd : dimWidth s.eng.ops.dim = 0 ∨ dimHeight s.eng.ops.dim = 0
    · exact .inl ⟨not_not.1 hf, hd, if_pos hd⟩
    · rw [if_neg hd]
      refine .inr ?_
      rcases writerPut_cases (serializeHeader (dimWidth s.eng.ops.dim) (dimHeight s.eng.ops.dim) s.eng.ops.flags 0)
          (writerInit { s with
            palLen := if keep then s.palLen else 0
            eng := { s.eng with strideOut := strideOf s.eng.ops.flags } }) with ⟨h, hw⟩ | ⟨h, hw⟩
      · refine .inr ⟨not_not.1 hf, hd, by simpa using h, ?_⟩
        rw [hw, Flow.ok_andThen, Flow.andThen_assoc]
        rfl
      · exact .inl ⟨not_not.1 hf, hd, by simpa using h, by rw [hw]; rfl⟩

theorem afterHeader_out (keep : Bool) (s : State) :
    (afterHeader keep s).eng.out =
      serializeHeader (dimWidth s.eng.ops.dim) (dimHeight s.eng.ops.dim) s.eng.ops.flags 0 := rfl

/-- A state the encoder reaches from its start, within the frame of ENCODE. -/
theorem encoder_frame {i : Instr} (hi : encodes i = true) {s t u : State} (h : ScanFrame t u)
    (ht : KeepsHostRegisters (startCommand s) t) (hd : t.dim = s.dim) (hf : t.flags = s.flags) (hm : t.mem = s.mem)
    (hw : t.draws = s.draws) (ho : t.eng.ops = s.eng.ops) (hs : t.eng.strideOut = strideOf s.eng.ops.flags)
    (hr : u.eng.out.length ≤ s.eng.ops.dstCap.toNat) : BodyFrame i (startCommand s) u :=
  ⟨ht.trans h.host, h.mem.trans hm, h.draws.trans hw, h.ops.trans ho, (h.strideOut.trans hs) ▸ stride_mem _, hr,
    fun _ => ⟨h.dim.trans hd, h.flags.trans hf⟩, fun _ h => by simp [hi] at h,
    fun h => by simp [writesTable, hi] at h, fun h => by simp [writesMemory, hi] at h⟩

theorem length_patched {out : List Byte} (b : List Byte) {off : Nat} (h : off + b.length ≤ out.length) :
    (out.take off ++ b ++ out.drop (off + b.length)).length = out.length := by
  simp only [List.length_append, List.length_take, List.length_drop]
  omega

/-- What ENCODE's tail can do (spec/44_rle_encoder.md R204, R206). -/
theorem encodeTail_cases (s : State) (h16 : 16 ≤ s.eng.out.length) (hcap : s.eng.out.length ≤ s.eng.wrCap) :
    (∃ t, encodeTail s = .ok t ∧ t.eng.out.length ≤ s.eng.wrCap ∧
      t = setResult t.eng.out.length { s with eng := { s.eng with out := t.eng.out } }) ∨
    ∃ t, encodeTail s = .raise .outputTooLarge t ∧ t.eng.out.length ≤ s.eng.wrCap ∧
      t = { s with eng := { s.eng with out := t.eng.out } } := by
  have hl : (writerPatch 12 (le32 (BitVec.ofNat 32 s.eng.p)) s).eng.out.length = s.eng.out.length :=
    length_patched _ (by simpa using h16)
  unfold encodeTail
  dsimp only
  split
  · obtain ⟨out, h1, h2, h3 | h3⟩ := putPalette_frame
      (writerPatch 12 (le32 (BitVec.ofNat 32 s.eng.p)) s).palLen.val 0
      (writerPatch 12 (le32 (BitVec.ofNat 32 s.eng.p)) s) (by rw [hl]; exact hcap) <;> rw [h3]
    · exact .inl ⟨_, rfl, h2, rfl⟩
    · exact .inr ⟨_, rfl, h2, rfl⟩
  · exact .inl ⟨_, rfl, by show List.length _ ≤ _; exact hl.trans_le hcap, rfl⟩

theorem ends_encode {i : Instr} (hi : encodes i = true) (keep : Bool) (s : State) :
    Ends i (startCommand s) (encodeBody keep (startCommand s)) := by
  have hr : raisable i = [.invalidFlags, .invalidDimensions, .tooManyColors, .outputTooLarge] := by
    cases i <;> first | rfl | cases hi
  have fr : ∀ u, ScanFrame (afterHeader keep (startCommand s)) u → u.eng.out.length ≤ s.eng.ops.dstCap.toNat →
      BodyFrame i (startCommand s) u := fun u h hu =>
    encoder_frame hi h (by constructor <;> rfl) rfl rfl rfl rfl rfl rfl hu
  rcases encodeBody_cases keep (startCommand s) with ⟨-, h⟩ | ⟨-, -, h⟩ | ⟨-, -, -, h⟩ | ⟨-, -, hc, h⟩ <;> rw [h]
  · exact ⟨by simp [hr], startCommand_frame _ s⟩
  · exact ⟨by simp [hr], startCommand_frame _ s⟩
  · exact ⟨by simp [hr], encoder_frame hi (ScanFrame.refl _) (by constructor <;> rfl) rfl rfl rfl rfl rfl rfl (by simp)⟩
  · rcases scan_emit_frame ((startCommand s).eng.ops.pixels - 1) (afterHeader keep (startCommand s)) hc with
      ⟨t, h1, h2, h3, h4⟩ | ⟨e, t, he, h1, h2, h3, h4⟩ <;> rw [h1]
    · rw [Flow.ok_andThen]
      have hcap : t.eng.wrCap = s.eng.ops.dstCap.toNat := h2.wrCap
      have h3' : 16 ≤ t.eng.out.length := h3
      have hout : ∀ out : List Byte, ScanFrame (afterHeader keep (startCommand s))
          { t with eng := { t.eng with out := out } } := fun out =>
        h2.trans (by constructor <;> first | rfl | (constructor <;> rfl))
      rcases encodeTail_cases t h3' (by rw [hcap]; exact h4) with ⟨u, g1, g2, g3⟩ | ⟨u, g1, g2, g3⟩ <;> rw [g1]
      · rw [hcap] at g2
        show BodyFrame i _ u
        rw [g3]
        exact setResult_frame _ (fr _ (hout _) g2)
      · rw [hcap] at g2
        refine ⟨by simp [hr], ?_⟩
        rw [g3]
        exact fr _ (hout _) g2
    · exact ⟨by rcases he with rfl | rfl <;> simp [hr], fr _ h2 h4⟩

/-! ### Decoder -/

/-- The state in which DECODE starts its replay. -/
def beforeReplay (ext : Bool) (s : State) : State :=
  { s with eng := { s.eng with
      palBase := (streamSlice ext s.eng.ops s.mem).1
      pl := (streamSlice ext s.eng.ops s.mem).2
      k := 0
      cur := 0
      out := [] } }

/-- What DECODE's body does with a stream that Validate accepts (spec/45_rle_decoder.md R220, R223, R227). -/
theorem decodeBody_valid (ext : Bool) (s : State) (hv : StreamValid s.eng.ops s.mem) :
    decodeBody ext s =
      let s1 := loadHeader (readHeader s.eng.ops s.mem) s
      if s.eng.ops.dstCap.toNat < decodedSize (readHeader s.eng.ops s.mem) then .raise .destinationTooSmall s1
      else if replayedPairs ext s.eng.ops s.mem = streamPairs s.eng.ops s.mem then
        if runTotal (streamPairs s.eng.ops s.mem) ≠ streamPixels s.eng.ops s.mem then
          .raise .corruptStream (afterPairs (streamPairs s.eng.ops s.mem) (beforeReplay ext s1))
        else .ok { afterPairs (streamPairs s.eng.ops s.mem) (beforeReplay ext s1) with
          resultLo := BitVec.ofNat 32 (decodedSize (readHeader s.eng.ops s.mem)), resultHi := 0 }
      else .raise .corruptStream (afterPairs (replayedPairs ext s.eng.ops s.mem) (beforeReplay ext s1)) := by
  have hgo : decodeBody ext s =
      (if s.eng.ops.dstCap.toNat < decodedSize (readHeader s.eng.ops s.mem) then
        .raise .destinationTooSmall (loadHeader (readHeader s.eng.ops s.mem) s)
      else (replay (streamPixels s.eng.ops s.mem) (readHeader s.eng.ops s.mem).pairCount.toNat
          (beforeReplay ext (loadHeader (readHeader s.eng.ops s.mem) s))).andThen fun s3 =>
        if s3.eng.cur ≠ streamPixels s.eng.ops s.mem then .raise .corruptStream s3
        else .ok { s3 with
          resultLo := BitVec.ofNat 32 (decodedSize (readHeader s.eng.ops s.mem)), resultHi := 0 }) := by
    unfold decodeBody
    rw [validate_ok hv, Flow.ok_andThen]
    rfl
  rw [hgo]
  dsimp only
  by_cases hc : s.eng.ops.dstCap.toNat < decodedSize (readHeader s.eng.ops s.mem)
  · rw [if_pos hc, if_pos hc]
  · rw [if_neg hc, if_neg hc, replay_eq]
    have hpairs : pairsFrom (beforeReplay ext (loadHeader (readHeader s.eng.ops s.mem) s)).eng.ops
        (beforeReplay ext (loadHeader (readHeader s.eng.ops s.mem) s)).mem
        (beforeReplay ext (loadHeader (readHeader s.eng.ops s.mem) s)).eng.k
        (readHeader s.eng.ops s.mem).pairCount.toNat = streamPairs s.eng.ops s.mem :=
      (streamPairs_eq _ _).symm
    have hsound : soundPairs (streamPixels s.eng.ops s.mem)
        (beforeReplay ext (loadHeader (readHeader s.eng.ops s.mem) s)).eng.pl
        (beforeReplay ext (loadHeader (readHeader s.eng.ops s.mem) s)).eng.cur
        (streamPairs s.eng.ops s.mem) = replayedPairs ext s.eng.ops s.mem := rfl
    rw [hpairs, hsound]
    by_cases hp : replayedPairs ext s.eng.ops s.mem = streamPairs s.eng.ops s.mem
    · rw [if_pos hp, if_pos hp, Flow.ok_andThen]
      have hcur : (afterPairs (streamPairs s.eng.ops s.mem)
          (beforeReplay ext (loadHeader (readHeader s.eng.ops s.mem) s))).eng.cur =
          runTotal (streamPairs s.eng.ops s.mem) := Nat.zero_add _
      rw [hcur]
    · rw [if_neg hp, if_neg hp, Flow.raise_andThen]

theorem afterPairs_out (ext : Bool) (s : State) (ps : List (Nat × Nat)) :
    (afterPairs ps (beforeReplay ext (loadHeader (readHeader s.eng.ops s.mem) s))).eng.out =
      replayedBytes s.mem (streamSlice ext s.eng.ops s.mem).1 (strideOf (readHeader s.eng.ops s.mem).flags) ps := by
  simp [afterPairs, beforeReplay]

/-- What DECODE's body ends in where the destination has room and every pair is sound
(spec/45_rle_decoder.md R220, R225). -/
theorem decodeBody_ok (ext : Bool) (s : State) (hv : StreamValid s.eng.ops s.mem)
    (hr : decodedSize (readHeader s.eng.ops s.mem) ≤ s.eng.ops.dstCap.toNat) (hp : PairsSound ext s.eng.ops s.mem) :
    ∃ t, decodeBody ext s = .ok t ∧
      t = { loadHeader (readHeader s.eng.ops s.mem) s with
        resultLo := BitVec.ofNat 32 (decodedSize (readHeader s.eng.ops s.mem)), resultHi := 0, eng := t.eng } ∧
      t.eng.ops = s.eng.ops ∧ t.eng.strideOut = strideOf (readHeader s.eng.ops s.mem).flags ∧
      t.eng.out = replayedBytes s.mem (streamSlice ext s.eng.ops s.mem).1
        (strideOf (readHeader s.eng.ops s.mem).flags) (streamPairs s.eng.ops s.mem) ∧
      t.eng.out.length = decodedSize (readHeader s.eng.ops s.mem) := by
  have hbody := decodeBody_valid ext s hv
  dsimp only at hbody
  rw [if_neg (Nat.not_lt.2 hr), if_pos hp.1, if_neg (not_not.2 hp.2)] at hbody
  have hout := afterPairs_out ext s (streamPairs s.eng.ops s.mem)
  refine ⟨_, hbody, rfl, rfl, rfl, hout, ?_⟩
  show List.length (afterPairs _ _).eng.out = _
  rw [hout, length_replayedBytes, hp.2]
  rfl

/-- What DECODE's body ends in where the destination has room and a pair is not sound, or the runs do not sum to N
(spec/45_rle_decoder.md R226, R227). -/
theorem decodeBody_corrupt (ext : Bool) (s : State) (hv : StreamValid s.eng.ops s.mem)
    (hr : decodedSize (readHeader s.eng.ops s.mem) ≤ s.eng.ops.dstCap.toNat)
    (hp : ¬ PairsSound ext s.eng.ops s.mem) :
    ∃ t, decodeBody ext s = .raise .corruptStream t ∧
      t = { loadHeader (readHeader s.eng.ops s.mem) s with eng := t.eng } ∧
      t.eng.ops = s.eng.ops ∧ t.eng.strideOut = strideOf (readHeader s.eng.ops s.mem).flags ∧
      t.eng.out = replayedBytes s.mem (streamSlice ext s.eng.ops s.mem).1
        (strideOf (readHeader s.eng.ops s.mem).flags) (replayedPairs ext s.eng.ops s.mem) := by
  have hbody := decodeBody_valid ext s hv
  dsimp only at hbody
  rw [if_neg (Nat.not_lt.2 hr)] at hbody
  have hb : decodeBody ext s = .raise .corruptStream (afterPairs (replayedPairs ext s.eng.ops s.mem)
      (beforeReplay ext (loadHeader (readHeader s.eng.ops s.mem) s))) := by
    rw [hbody]
    by_cases hq : replayedPairs ext s.eng.ops s.mem = streamPairs s.eng.ops s.mem
    · rw [if_pos hq, if_pos (fun h => hp ⟨hq, h⟩), hq]
    · rw [if_neg hq]
  exact ⟨_, hb, rfl, rfl, rfl, afterPairs_out ext s _⟩

/-- The bytes DECODE appends never pass the destination. -/
theorem afterPairs_frame {i : Instr} (hi : i = .decode ∨ i = .decodeXpal) (ext : Bool) (s : State)
    (ps : List (Nat × Nat)) (hcap : decodedSize (readHeader s.eng.ops s.mem) ≤ s.eng.ops.dstCap.toNat)
    (hps : runTotal ps ≤ streamPixels s.eng.ops s.mem) :
    BodyFrame i (startCommand s)
      (afterPairs ps (beforeReplay ext (loadHeader (readHeader s.eng.ops s.mem) (startCommand s)))) := by
  have hl : loadsHeader i = true := by rcases hi with rfl | rfl <;> rfl
  have hw : writesMemory i = true := by rcases hi with rfl | rfl <;> rfl
  refine ⟨by constructor <;> rfl, rfl, rfl, rfl, stride_mem _, ?_, fun h => by simp [hl] at h,
    fun h => by simp [hl] at h, fun _ => ⟨rfl, rfl⟩, fun h => by simp [hw] at h⟩
  have h1 := afterPairs_out ext (startCommand s) ps
  rw [show (startCommand s).eng.ops = s.eng.ops from rfl, show (startCommand s).mem = s.mem from rfl] at h1
  rw [h1, length_replayedBytes]
  exact (Nat.mul_le_mul_right _ hps).trans hcap

theorem runTotal_replayedPairs_le (ext : Bool) (o : Operands) (m : Memory) :
    runTotal (replayedPairs ext o m) ≤ streamPixels o m := by
  have := runTotal_soundPairs_le (streamPixels o m) (streamSlice ext o m).2 0 (streamPairs o m) (Nat.zero_le _)
  simpa [replayedPairs] using this

theorem ends_decode {i : Instr} (hi : i = .decode ∨ i = .decodeXpal) (ext : Bool) (s : State) :
    Ends i (startCommand s) (decodeBody ext (startCommand s)) := by
  have hr : raisable i = [.truncatedStream, .invalidMagic, .unsupportedVersion, .invalidDimensions, .invalidFlags,
      .invalidPairCount, .destinationTooSmall, .corruptStream] := by rcases hi with rfl | rfl <;> rfl
  have hl : loadsHeader i = true := by rcases hi with rfl | rfl <;> rfl
  by_cases hv : StreamValid (startCommand s).eng.ops (startCommand s).mem
  · rw [decodeBody_valid ext _ hv]
    dsimp only
    split
    · exact ⟨by simp [hr], loadHeader_frame hl _ s⟩
    · next hc =>
      have hle := runTotal_replayedPairs_le ext s.eng.ops s.mem
      split
      · next hp =>
        have hp' : replayedPairs ext s.eng.ops s.mem = streamPairs s.eng.ops s.mem := hp
        have hf := afterPairs_frame hi ext s (streamPairs s.eng.ops s.mem) (Nat.le_of_not_lt hc) (hp' ▸ hle)
        split
        · exact ⟨by simp [hr], hf⟩
        · exact ⟨⟨hf.host.cmd, hf.host.srcAddr, hf.host.srcLen, hf.host.dstAddr, hf.host.dstCap, hf.host.xpalAddr,
            hf.host.xpalLen, hf.host.palColor, hf.host.host, hf.host.hostData⟩, hf.mem, hf.draws, hf.ops, hf.stride,
            hf.room, hf.header, hf.pairs, hf.table, hf.output⟩
      · exact ⟨by simp [hr], afterPairs_frame hi ext s _ (Nat.le_of_not_lt hc) hle⟩
  · unfold decodeBody
    rcases validate_cases (startCommand s) with ⟨-, h'⟩ | ⟨-, e, he, h'⟩ | ⟨-, -, e, he, h'⟩ | ⟨h', -⟩
    · rw [h']
      exact ⟨by simp [hr], startCommand_frame _ s⟩
    · rw [h']
      exact ⟨by rcases headerError_some he with rfl | rfl | rfl <;> simp [hr], loadHeader_frame hl _ s⟩
    · rw [h']
      exact ⟨by rcases validatorError_some he with rfl | rfl | rfl <;> simp [hr], loadHeader_frame hl _ s⟩
    · exact absurd h' hv

/-! ### Completion and error -/

theorem runCommand_ok {body : State → Flow} {s t : State} (h : body (startCommand s) = .ok t) :
    runCommand body s = completeOk t := by
  rw [runCommand, h]
  rfl

theorem runCommand_raise {body : State → Flow} {s t : State} {e : ErrCode}
    (h : body (startCommand s) = .raise e t) : runCommand body s = raiseError e t := by
  rw [runCommand, h]
  rfl

/-- A command whose host keeps its duties runs its body. -/
theorem runGuarded_false {broken : Bool} (h : broken = false) (i : Instr) (hdr tbl wr : Bool) (body : State → Flow)
    (s : State) : runGuarded broken i hdr tbl wr body s = runCommand body s := by
  rw [runGuarded, h]
  rfl

/-- Completion leaves every byte past the output alone (spec/20_memory.md R88). -/
theorem completeOk_outside (s : State) (a : Word) (h : s.eng.out.length ≤ (a - s.eng.ops.dstAddr).toNat) :
    (completeOk s).mem.readByte a = s.mem.readByte a :=
  Memory.readByte_writeBytes_outside _ _ _ _ h

/-- An error leaves every byte outside the destination alone, and all of memory where nothing was written
(spec/20_memory.md R89, spec/60_exceptions.md R253 item 6). -/
theorem raiseError_outside (e : ErrCode) (s : State) (a : Word)
    (h : s.eng.out = [] ∨ s.eng.ops.dstCap.toNat ≤ (a - s.eng.ops.dstAddr).toNat) :
    (raiseError e s).mem.readByte a = s.mem.readByte a := by
  rw [raiseError_mem]
  split
  · rfl
  · next hc =>
    rcases h with h | h
    · exact absurd (by simp [Engine.cursor, h]) hc
    · exact Memory.readByte_havoc_outside _ _ _ _ _ h

theorem completeOk_wf {s : State} (h : s.mem.wf) : (completeOk s).mem.wf := Memory.writeBytes_wf h _ _

theorem raiseError_wf (e : ErrCode) {s : State} (h : s.mem.wf) : (raiseError e s).mem.wf := by
  rw [raiseError_mem]
  split
  · exact h
  · exact Memory.havoc_wf h _ _ _

theorem completeUnspecified_wf (i : Instr) (hdr tbl wr : Bool) {s : State} (h : s.mem.wf) :
    (completeUnspecified i hdr tbl wr s).mem.wf := by
  show Memory.wf (if wr then _ else _)
  split
  · exact Memory.havoc_wf h _ _ _
  · exact h

theorem completeUnspecified_outside (i : Instr) (hdr tbl wr : Bool) (s : State) (a : Word)
    (h : wr = false ∨ s.eng.ops.dstCap.toNat ≤ (a - s.eng.ops.dstAddr).toNat) :
    (completeUnspecified i hdr tbl wr s).mem.readByte a = s.mem.readByte a := by
  show Memory.readByte (if wr then _ else _) a = _
  split
  · next hw =>
    rcases h with h | h
    · rw [hw] at h; cases h
    · exact Memory.readByte_havoc_outside _ _ _ _ _ h
  · rfl

theorem completeUnspecified_host (i : Instr) (hdr tbl wr : Bool) (s : State) :
    KeepsHostRegisters s (completeUnspecified i hdr tbl wr s) := by constructor <;> rfl

/-- A free choice lies in its list. -/
theorem pick_mem {l : List Nat} (h : l ≠ []) (d : Nat) : pick l d ∈ l := by
  have hl : 0 < l.length := List.length_pos_iff.2 h
  have hlt : (Config.draw d).toNat % l.length < l.length := Nat.mod_lt _ hl
  unfold pick
  rw [List.getD_eq_getElem _ _ hlt]
  exact List.getElem_mem hlt

/-! ### What exec can do -/

/-- How a command can complete: with free results where a host duty is broken, without error, or with one of its
errors. -/
def Completion (i : Instr) (s t : State) : Prop :=
  t = completeUnspecified i (loadsHeader i) (encodes i) (writesMemory i) s ∨
  (∃ u, BodyFrame i (startCommand s) u ∧ t = completeOk u) ∨
  ∃ e u, e ∈ raisable i ∧ BodyFrame i (startCommand s) u ∧ t = raiseError e u

theorem completion_of_ends {i : Instr} {s : State} {body : State → Flow}
    (h : Ends i (startCommand s) (body (startCommand s))) : Completion i s (runCommand body s) := by
  unfold runCommand
  cases hb : body (startCommand s) with
  | ok u =>
    rw [hb] at h
    exact .inr (.inl ⟨u, h, rfl⟩)
  | raise e u =>
    rw [hb] at h
    exact .inr (.inr ⟨e, u, h.1, h.2, rfl⟩)

theorem completion_of_guarded {i : Instr} {s : State} {body : State → Flow} (broken : Bool)
    (h : Ends i (startCommand s) (body (startCommand s))) :
    Completion i s (runGuarded broken i (loadsHeader i) (encodes i) (writesMemory i) body s) := by
  unfold runGuarded
  split
  · exact .inl rfl
  · exact completion_of_ends h

/-- Every command completes, in one of the three ways (spec/40_command_protocol.md R145). -/
theorem exec_completes (i : Instr) (s : State) : ∃ t, exec i s = .next t ∧ Completion i s t := by
  cases i with
  | encode => exact ⟨_, rfl, completion_of_guarded _ (ends_encode rfl false s)⟩
  | encodeKeep => exact ⟨_, rfl, completion_of_guarded _ (ends_encode rfl true s)⟩
  | decode => exact ⟨_, rfl, completion_of_guarded _ (ends_decode (.inl rfl) false s)⟩
  | decodeXpal => exact ⟨_, rfl, completion_of_guarded _ (ends_decode (.inr rfl) true s)⟩
  | validate => exact ⟨_, rfl, completion_of_guarded _ (ends_validateBody s)⟩
  | hdrParse => exact ⟨_, rfl, completion_of_guarded _ (ends_hdrParse s)⟩
  | hdrWrite => exact ⟨_, rfl, completion_of_guarded _ (ends_hdrWrite s)⟩
  | palClear => exact ⟨_, rfl, completion_of_ends (ends_palClear s)⟩
  | palFind => exact ⟨_, rfl, completion_of_ends (ends_palFind (.inl rfl) (by simp) s)⟩
  | palFindA => exact ⟨_, rfl, completion_of_ends (ends_palFind (.inr rfl) (by simp) s)⟩
  | illegal w => exact ⟨_, rfl, completion_of_ends (ends_illegal w s)⟩

/-- STATUS after any completion. -/
theorem Completion.status {i : Instr} {s t : State} (h : Completion i s t) :
    ∃ st ∈ [0, 3, 4], ∃ code ∈ completionCodes i, t.status = statusWord st code := by
  rcases h with rfl | ⟨u, hu, rfl⟩ | ⟨e, u, he, hu, rfl⟩
  · exact ⟨_, pick_mem (by simp) _, _, pick_mem (by simp [completionCodes]) _, rfl⟩
  · exact ⟨_, hu.stride, 0, by simp [completionCodes], rfl⟩
  · exact ⟨_, hu.stride, e.code, List.mem_cons_of_mem _ (List.mem_map_of_mem he), rfl⟩

theorem Completion.host {i : Instr} {s t : State} (h : Completion i s t) : KeepsHostRegisters s t := by
  rcases h with rfl | ⟨u, hu, rfl⟩ | ⟨e, u, he, hu, rfl⟩
  · exact completeUnspecified_host _ _ _ _ _
  · exact ((startCommand_keeps s).trans hu.host).trans (by constructor <;> rfl)
  · exact ((startCommand_keeps s).trans hu.host).trans (by constructor <;> rfl)

theorem Completion.eng {i : Instr} {s t : State} (h : Completion i s t) : t.eng = Engine.idle := by
  rcases h with rfl | ⟨u, hu, rfl⟩ | ⟨e, u, he, hu, rfl⟩ <;> rfl

theorem Completion.wf {i : Instr} {s t : State} (h : Completion i s t) (hm : s.mem.wf) : t.mem.wf := by
  rcases h with rfl | ⟨u, hu, rfl⟩ | ⟨e, u, he, hu, rfl⟩
  · exact completeUnspecified_wf _ _ _ _ hm
  · exact completeOk_wf (by rw [hu.mem]; exact hm)
  · exact raiseError_wf _ (by rw [hu.mem]; exact hm)

/-- Memory outside the destination is left alone (spec/10_state.md R39, spec/20_memory.md R88, R89). -/
theorem Completion.outside {i : Instr} {s t : State} (h : Completion i s t) (a : Word)
    (ha : s.eng.ops.dstCap.toNat ≤ (a - s.eng.ops.dstAddr).toNat) : t.mem.readByte a = s.mem.readByte a := by
  rcases h with rfl | ⟨u, hu, rfl⟩ | ⟨e, u, he, hu, rfl⟩
  · exact completeUnspecified_outside _ _ _ _ _ _ (.inr ha)
  · have ho : u.eng.ops = s.eng.ops := hu.ops
    have hl : u.eng.out.length ≤ s.eng.ops.dstCap.toNat := hu.room
    rw [completeOk_outside u a (by rw [ho]; omega), hu.mem]
    rfl
  · have ho : u.eng.ops = s.eng.ops := hu.ops
    rw [raiseError_outside e u a (.inr (by rw [ho]; exact ha)), hu.mem]
    rfl

/-- A command that writes no memory leaves all of it alone (spec/20_memory.md R88). -/
theorem Completion.mem {i : Instr} {s t : State} (h : Completion i s t) (hi : writesMemory i = false) :
    t.mem = s.mem := by
  rcases h with rfl | ⟨u, hu, rfl⟩ | ⟨e, u, he, hu, rfl⟩
  · show (if writesMemory i then _ else _) = _
    rw [hi]
    rfl
  · rw [completeOk_mem, hu.output hi, hu.mem]
    rfl
  · rw [raiseError_mem, if_pos (by simp [Engine.cursor, hu.output hi]), hu.mem]
    rfl

/-- DIM and FLAGS change only where a header is loaded (spec/10_state.md R42, R43). -/
theorem Completion.header {i : Instr} {s t : State} (h : Completion i s t) (hi : loadsHeader i = false) :
    t.dim = s.dim ∧ t.flags = s.flags := by
  rcases h with rfl | ⟨u, hu, rfl⟩ | ⟨e, u, he, hu, rfl⟩
  · simp [completeUnspecified, hi]
  · exact hu.header hi
  · exact hu.header hi

/-- PAIR_COUNT changes only where a header is loaded or an image encoded (spec/10_state.md R44). -/
theorem Completion.pairs {i : Instr} {s t : State} (h : Completion i s t) (hi : loadsHeader i = false)
    (he : encodes i = false) : t.pairCount = s.pairCount := by
  rcases h with rfl | ⟨u, hu, rfl⟩ | ⟨e, u, -, hu, rfl⟩
  · simp [completeUnspecified, hi, he]
  · exact hu.pairs hi he
  · exact hu.pairs hi he

/-- The palette table changes only under ENCODE, PAL_CLEAR and PAL_FIND (spec/10_state.md R46). -/
theorem Completion.table {i : Instr} {s t : State} (h : Completion i s t) (hi : writesTable i = false) :
    t.pal = s.pal ∧ t.palLen = s.palLen := by
  rcases h with rfl | ⟨u, hu, rfl⟩ | ⟨e, u, -, hu, rfl⟩
  · have he : encodes i = false := by
      cases h : encodes i
      · rfl
      · simp [writesTable, h] at hi
    simp [completeUnspecified, he]
  · exact hu.table hi
  · exact hu.table hi

end Sys2Proof.Machine
end

