-- ==== Sys2Proof/Laws/Decode.lean ====
section
/-! SUPPORT. The laws of the command word (spec/30_encoding.md R101 to R105): its fields make it up, a row matches one
word, and a word that no row matches is the one R104 calls illegal. -/

namespace Sys2Proof

/-- A word is the sum of its fields OP, OPT, ALPHA and RSVD (spec/30_encoding.md R101). -/
theorem word_fields (w : Word) :
    w.toNat = (w.extractLsb' 0 8).toNat + 256 * (w.getLsbD 8).toNat + 512 * (w.getLsbD 9).toNat
      + 1024 * (w.extractLsb' 10 22).toNat := by
  have h8 : (w.getLsbD 8).toNat = w.toNat / 256 % 2 := by simp [BitVec.getLsbD, Nat.toNat_testBit]
  have h9 : (w.getLsbD 9).toNat = w.toNat / 512 % 2 := by simp [BitVec.getLsbD, Nat.toNat_testBit]
  have h0 : (w.extractLsb' 0 8).toNat = w.toNat % 256 := by simp [BitVec.extractLsb'_toNat]
  have h10 : (w.extractLsb' 10 22).toNat = w.toNat / 1024 % 4194304 := by
    simp [BitVec.extractLsb'_toNat, Nat.shiftRight_eq_div_pow]
  have := w.isLt
  omega

theorem word_eq_of_toNat {w : Word} {n : Nat} (h : w.toNat = n) : w = BitVec.ofNat 32 n := by
  rw [← h, BitVec.ofNat_toNat, BitVec.setWidth_eq]

/-- A row matches the one word it is for (spec/30_encoding.md R105). -/
theorem rowMatches_iff {row : Word × Word × Instr} (h : row ∈ opcodeRows) (w : Word) :
    rowMatches w row = true ↔ w = row.1 := by
  have hm : ∀ r ∈ opcodeRows, r.2.1 = BitVec.allOnes 32 := by decide
  unfold rowMatches
  rw [hm row h, BitVec.and_allOnes, beq_iff_eq]

/-- A word that no row matches decodes to the illegal row. -/
theorem decode_of_no_row {w : Word} (h : ∀ row ∈ opcodeRows, w ≠ row.1) : decode w = .illegal w := by
  have : opcodeRows.find? (rowMatches w) = none :=
    List.find?_eq_none.2 fun row hr hm => h row hr ((rowMatches_iff hr w).1 hm)
  simp only [decode, this]

/-- Every word is one of the ten of spec/30_encoding.md R105, or no row's. -/
theorem word_cases (w : Word) :
    w = 0x1#32 ∨ w = 0x101#32 ∨ w = 0x2#32 ∨ w = 0x102#32 ∨ w = 0x3#32 ∨ w = 0x4#32 ∨ w = 0x5#32 ∨ w = 0x6#32 ∨
    w = 0x7#32 ∨ w = 0x207#32 ∨ ∀ row ∈ opcodeRows, w ≠ row.1 := by
  simp only [opcodeRows, List.forall_mem_cons, List.not_mem_nil, false_imp_iff, implies_true, and_true]
  tauto

/-- R104's fields say illegal of exactly the words of no row. -/
theorem illegalFields_iff (w : Word) : illegalFields w = true ↔ ∀ row ∈ opcodeRows, w ≠ row.1 := by
  have hrows : ∀ row ∈ opcodeRows, illegalFields row.1 = false := by decide
  constructor
  · intro h row hr he
    rw [he, hrows row hr] at h
    cases h
  · intro h
    by_contra hn
    have hw := word_fields w
    simp only [illegalFields, Bool.or_eq_true, not_or, Bool.and_eq_true, Bool.not_eq_true', bne_iff_ne, ne_eq,
      Bool.and_eq_false_iff, decide_eq_false_iff_not, Bool.or_eq_false_iff, beq_eq_false_iff_ne, not_and, not_not] at hn
    obtain ⟨⟨⟨hop, hr⟩, hopt⟩, halpha⟩ := hn
    rw [hr] at hw
    simp only [opcodeRows, List.forall_mem_cons, List.not_mem_nil, false_imp_iff, implies_true, and_true] at h
    have hne : ∀ n, w ≠ BitVec.ofNat 32 n → w.toNat ≠ n := fun n h h' => h (word_eq_of_toNat h')
    have h1 := hne _ h.1
    have h2 := hne _ h.2.1
    have h3 := hne _ h.2.2.1
    have h4 := hne _ h.2.2.2.1
    have h5 := hne _ h.2.2.2.2.1
    have h6 := hne _ h.2.2.2.2.2.1
    have h7 := hne _ h.2.2.2.2.2.2.1
    have h8 := hne _ h.2.2.2.2.2.2.2.1
    have h9 := hne _ h.2.2.2.2.2.2.2.2.1
    have h10 := hne _ h.2.2.2.2.2.2.2.2.2
    cases ho : w.getLsbD 8 <;> cases ha : w.getLsbD 9 <;>
      simp only [ho, ha, Bool.toNat_false, Bool.toNat_true, forall_const, Bool.false_eq_true, false_imp_iff,
        BitVec.ofNat_eq_ofNat, BitVec.toNat_ofNat, Nat.zero_mod] at hw hopt halpha <;> omega

/-- Ten words are legal; R104's fields call every other one illegal. -/
theorem decode_of_illegalFields {w : Word} (h : illegalFields w = true) : decode w = .illegal w :=
  decode_of_no_row ((illegalFields_iff w).1 h)

end Sys2Proof
end

