-- ==== Sys2Proof/Laws/Duties.lean ====
section
/-! SUPPORT. A host that keeps the duties of spec/70_reset_and_hazards.md R284 to R288 never meets the free results of
a broken one (log 13, log 14). -/

namespace Sys2Proof.Machine

theorem Span.wraps_eq_false {sp : Span} (h : noWrap sp.base sp.len) : sp.wraps = false :=
  decide_eq_false (by unfold noWrap at h; omega)

theorem Span.meets_eq_false {x y : Span} (h : apart x.base x.len y.base y.len) : x.meets y = false :=
  decide_eq_false (by unfold apart at h; omega)

/-- HDR_PARSE and VALIDATE under the host's duties. -/
theorem headerDutyBroken_eq_false {i : Instr} {s : State} (hi : i = .hdrParse ∨ i = .validate) (h : SourceReady s) :
    headerDutyBroken i s = false := by
  have hw : (sourceSpan i s.eng.ops).wraps = false := by
    rcases hi with rfl | rfl <;> exact Span.wraps_eq_false h.1
  rw [headerDutyBroken, hw, h.2, Bool.or_false, Bool.and_false]

/-- A source of fewer than 16 bytes is not read. -/
theorem headerDutyBroken_of_short {i : Instr} {s : State} (h : s.eng.ops.srcLen.toNat < 16) :
    headerDutyBroken i s = false := by
  rw [headerDutyBroken, decide_eq_false (Nat.not_le.2 h), Bool.false_and]

/-- HDR_WRITE under the host's duties. -/
theorem hdrWriteDutyBroken_eq_false {s : State} (h : DestReady s) : hdrWriteDutyBroken s = false := by
  have hw : (destSpan .hdrWrite s.eng.ops).wraps = false := Span.wraps_eq_false h.1
  simp only [hdrWriteDutyBroken, hw, h.2, Bool.or_false, Bool.and_false]

/-- HDR_WRITE that raises an error does not come to its destination. -/
theorem hdrWriteDutyBroken_of_error {s : State}
    (h : ¬ (reservedFlags s.eng.ops.flags = 0 ∧ 16 ≤ s.eng.ops.dstCap.toNat)) : hdrWriteDutyBroken s = false := by
  simp only [hdrWriteDutyBroken, decide_eq_false h, Bool.false_and]

/-- ENCODE under the host's duties. -/
theorem encodeDutyBroken_eq_false {i : Instr} {s : State} (hi : i = .encode ∨ i = .encodeKeep)
    (h : encodeDuties s.eng.ops) (hd : s.eng.disturbed = false) : encodeDutyBroken i s = false := by
  have h1 : (sourceSpan i s.eng.ops).wraps = false := by rcases hi with rfl | rfl <;> exact Span.wraps_eq_false h.1
  have h2 : (destSpan i s.eng.ops).wraps = false := by rcases hi with rfl | rfl <;> exact Span.wraps_eq_false h.2.1
  have h3 : (destSpan i s.eng.ops).meets (sourceSpan i s.eng.ops) = false := by
    rcases hi with rfl | rfl <;> exact Span.meets_eq_false h.2.2
  simp only [encodeDutyBroken, h1, h2, h3, hd, Bool.or_false, Bool.and_false]

/-- ENCODE that raises before its scan does not come to its buffers. -/
theorem encodeDutyBroken_of_error {i : Instr} {s : State} (h : ¬ (reservedFlags s.eng.ops.flags = 0 ∧
    dimWidth s.eng.ops.dim ≠ 0 ∧ dimHeight s.eng.ops.dim ≠ 0 ∧ 16 ≤ s.eng.ops.dstCap.toNat)) :
    encodeDutyBroken i s = false := by
  simp only [encodeDutyBroken, decide_eq_false h, Bool.false_and]

/-- DECODE that does not come to its replay, its source in order. -/
theorem decodeDutyBroken_of_error {i : Instr} (ext : Bool) {s : State} (hi : i = .decode ∨ i = .decodeXpal)
    (h : SourceReady s) (hn : ¬ (headerError (readHeader s.eng.ops s.mem) = none ∧
      validatorError s.eng.ops (readHeader s.eng.ops s.mem) = none ∧
      decodedSize (readHeader s.eng.ops s.mem) ≤ s.eng.ops.dstCap.toNat)) : decodeDutyBroken i ext s = false := by
  have h1 : (sourceSpan i s.eng.ops).wraps = false := by rcases hi with rfl | rfl <;> exact Span.wraps_eq_false h.1
  simp only [decodeDutyBroken, h1, h.2, decide_eq_false hn, Bool.or_false, Bool.false_and, Bool.and_false]

/-- DECODE of a source of fewer than 16 bytes reads nothing. -/
theorem decodeDutyBroken_of_short {i : Instr} (ext : Bool) {s : State} (h : s.eng.ops.srcLen.toNat < 16) :
    decodeDutyBroken i ext s = false := by
  simp only [decodeDutyBroken, decide_eq_false (Nat.not_le.2 h), Bool.false_and]

/-- The replay stays off the destination where every replayed entry does. -/
theorem replayMeets_eq_false (dst : Span) (o : Operands) (m : Memory) (base : Word) (pl st total : Nat) (r k cur : Nat)
    (h : ∀ p ∈ soundPairs total pl cur (pairsFrom o m k r),
      apart dst.base dst.len (base + BitVec.ofNat 32 (p.2 * st)) st) :
    replayMeets dst o m base pl st total r k cur = false := by
  induction r generalizing k cur with
  | zero => rfl
  | succ r ih =>
    rw [pairsFrom_succ, soundPairs] at h
    rw [replayMeets]
    split
    · rfl
    · next hc =>
      rw [if_neg hc, List.forall_mem_cons] at h
      rw [Span.meets_eq_false h.1, Bool.false_or]
      exact ih _ _ h.2

/-- DECODE under the host's duties. -/
theorem decodeDutyBroken_eq_false {i : Instr} {ext : Bool} {s : State} (hi : i = .decode ∨ i = .decodeXpal)
    (h : decodeDuties ext s.eng.ops s.mem) (hd : s.eng.disturbed = false) : decodeDutyBroken i ext s = false := by
  obtain ⟨h1, h2, h3, h4⟩ := h
  have e1 : (sourceSpan i s.eng.ops).wraps = false := by rcases hi with rfl | rfl <;> exact Span.wraps_eq_false h1
  have ed : destSpan i s.eng.ops = ⟨s.eng.ops.dstAddr, s.eng.ops.dstCap.toNat⟩ := by rcases hi with rfl | rfl <;> rfl
  have e2 : (destSpan i s.eng.ops).wraps = false := by rw [ed]; exact Span.wraps_eq_false h2
  have e3 : (destSpan i s.eng.ops).meets
      ⟨s.eng.ops.srcAddr, 16 + 2 * (readHeader s.eng.ops s.mem).pairCount.toNat⟩ = false := by
    rw [ed]; exact Span.meets_eq_false h3
  have e4 : (externalSpan ext s.eng.ops (readHeader s.eng.ops s.mem).flags).wraps = false ∧
      (destSpan i s.eng.ops).meets (externalSpan ext s.eng.ops (readHeader s.eng.ops s.mem).flags) = false ∧
      (!usesExternal ext (readHeader s.eng.ops s.mem).flags
        && replayMeets (destSpan i s.eng.ops) s.eng.ops s.mem (streamSlice ext s.eng.ops s.mem).1
          (streamSlice ext s.eng.ops s.mem).2 (strideOf (readHeader s.eng.ops s.mem).flags)
          (streamPixels s.eng.ops s.mem) (readHeader s.eng.ops s.mem).pairCount.toNat 0 0) = false := by
    by_cases hu : usesExternal ext (readHeader s.eng.ops s.mem).flags = true
    · rw [if_pos hu] at h4
      refine ⟨Span.wraps_eq_false ?_, Span.meets_eq_false ?_, by rw [hu]; rfl⟩
      · show noWrap _ (if usesExternal ext _ then _ else _)
        rw [if_pos hu]; exact h4.1
      · rw [ed]
        show apart _ _ _ (if usesExternal ext _ then _ else _)
        rw [if_pos hu]; exact h4.2
    · rw [if_neg hu] at h4
      refine ⟨Span.wraps_eq_false ?_, Span.meets_eq_false ?_, ?_⟩
      · show noWrap _ (if usesExternal ext _ then _ else _)
        rw [if_neg hu]
        unfold noWrap
        have := s.eng.ops.xpalAddr.isLt
        show s.eng.ops.xpalAddr.toNat + 0 ≤ _
        omega
      · show apart _ _ _ (if usesExternal ext _ then _ else _)
        rw [if_neg hu]
        exact .inr (.inl rfl)
      · rw [replayMeets_eq_false, Bool.and_false]
        intro p hp
        rw [ed]
        refine h4 p ?_
        rw [replayedPairs, streamPairs_eq]
        exact hp
  have e5 : decodeOverlap i ext s.eng.ops s.mem = false := by
    have := e4.2.2
    unfold decodeOverlap
    simp only [e3, e4.2.1, Bool.false_or]
    exact this
  simp only [decodeDutyBroken, e1, e2, e4.1, e5, hd, Bool.or_false, Bool.and_false]

end Sys2Proof.Machine
end

