-- ==== Sys2Proof/Laws/Encode.lean ====
section
/-! SUPPORT. What ENCODE produces, said on the image: the engine's scan gives the runs, the pairs, the palette and the
stream of Sys2Proof/Safety.lean (spec/44_rle_encoder.md R200 to R213). -/

namespace Sys2Proof.Machine

/-- A state the encoder reaches differs from its start in the fields the encoder writes. -/
theorem ScanFrame.eq {s u : State} (h : ScanFrame s u) :
    u = { s with
      status := u.status, pairCount := u.pairCount, resultLo := u.resultLo, resultHi := u.resultHi
      wrCursor := u.wrCursor, palLen := u.palLen, pal := u.pal, eng := u.eng } := by
  obtain ⟨⟨h1, h2, h3, h4, h5, h6, h7, h8, h9, h10⟩, h11, h12, h13, h14, -, -, -⟩ := h
  cases u
  cases s
  simp only at *
  subst_vars
  rfl

theorem pixels_pos {o : Operands} (hw : dimWidth o.dim ≠ 0) (hh : dimHeight o.dim ≠ 0) : 0 < o.pixels := by
  refine Nat.mul_pos (Nat.pos_of_ne_zero fun h => hw ?_) (Nat.pos_of_ne_zero fun h => hh ?_) <;>
    exact BitVec.eq_of_toNat_eq h

/-- N fits 32 bits (spec/00_scope.md R9). -/
theorem pixels_lt (o : Operands) : o.pixels < 4294967296 := by
  have h1 := (dimWidth o.dim).isLt
  have h2 := (dimHeight o.dim).isLt
  have := Nat.mul_le_mul (Nat.le_of_lt_succ h1) (Nat.le_of_lt_succ h2)
  unfold Operands.pixels pixelCount
  omega

/-- The image is its first pixel and the rest. -/
theorem imagePixels_eq {o : Operands} (m : Memory) (h : 0 < o.pixels) :
    imagePixels o m = pixelAt o m 0 :: pixelsFrom o m 1 (o.pixels - 1) := by
  obtain ⟨n, hn⟩ := Nat.exists_eq_add_of_lt h
  have hn' : o.pixels = n + 1 := by omega
  have : o.pixels - 1 = n := by omega
  rw [this, imagePixels, hn', List.range_eq_range', List.range'_succ]
  rfl

theorem length_imagePixels (o : Operands) (m : Memory) : (imagePixels o m).length = o.pixels := by
  simp [imagePixels]

theorem length_flatMap_pairBytes (ps : List (Nat × Nat)) : (ps.flatMap pairBytes).length = 2 * ps.length := by
  induction ps with
  | nil => rfl
  | cons p ps ih => simp only [List.flatMap_cons, List.length_append, ih, length_pairBytes, List.length_cons]; omega

theorem length_encodedStream (o : Operands) (m : Memory) (seed : List Word) :
    (encodedStream o m seed).length = encodedLength o m seed := by
  have h2 : ∀ cs : List Word, (cs.flatMap (colorBytes (strideOf o.flags))).length = cs.length * strideOf o.flags := by
    intro cs
    induction cs with
    | nil => simp
    | cons c cs ih =>
      rw [List.flatMap_cons, List.length_append, ih, length_colorBytes_of_stride (strideOf_cases _), List.length_cons]
      ring
  simp only [encodedStream, encodedLength, List.length_append, length_serializeHeader, length_flatMap_pairBytes]
  split
  · rw [h2]
  · rfl

/-! ### The scan of an image -/

/-- The palette the scan of ENCODE starts with (spec/44_rle_encoder.md R213). -/
theorem afterHeader_palette (keep : Bool) (s : State) :
    (afterHeader keep s).palette = if keep then s.palette else [] := by
  cases keep <;> rfl

theorem afterHeader_scanRuns (keep : Bool) (s : State) (h : 0 < s.eng.ops.pixels) :
    scanRuns (s.eng.ops.pixels - 1) (afterHeader keep s) = splitRuns (imagePixels s.eng.ops s.mem) := by
  rw [imagePixels_eq _ h]
  rfl

theorem afterHeader_scanPalette (keep : Bool) (s : State) (h : 0 < s.eng.ops.pixels) :
    scanPalette (s.eng.ops.pixels - 1) (afterHeader keep s) =
      encodedPalette s.eng.ops s.mem (if keep then s.palette else []) := by
  rw [scanPalette, afterHeader_scanRuns keep s h, afterHeader_palette, imagePixels_eq _ h, splitRuns,
    encodedPalette, imagePixels_eq _ h]
  exact growPalette_runsFrom (strideOf_cases _) _ _ _ _

theorem afterHeader_scanPairs (keep : Bool) (s : State) (h : 0 < s.eng.ops.pixels) :
    scanPairs (s.eng.ops.pixels - 1) (afterHeader keep s) =
      encodedPairs s.eng.ops s.mem (if keep then s.palette else []) := by
  rw [scanPairs, afterHeader_scanRuns keep s h, afterHeader_scanPalette keep s h]
  rfl

/-! ### The tail -/

/-- The patch turns the placeholder into the pair count (spec/44_rle_encoder.md R204). -/
theorem patched_header (w h : BitVec 16) (f p : Word) (rest : List Byte) :
    (serializeHeader w h f 0 ++ rest).take 12 ++ le32 p ++ (serializeHeader w h f 0 ++ rest).drop (12 + (le32 p).length) =
      serializeHeader w h f p ++ rest := by
  simp [serializeHeader, le32, le16]

/-- ENCODE's tail where the destination has room for the embedded palette (spec/44_rle_encoder.md R204, R206). -/
theorem encodeTail_ok {s : State} {w h : BitVec 16} {f : Word} {rest : List Byte}
    (ho : s.eng.out = serializeHeader w h f 0 ++ rest)
    (hr : s.eng.out.length + (if embedBit s.eng.ops.flags then s.palLen.val * strideOf s.eng.ops.flags else 0) ≤
      s.eng.wrCap) :
    ∃ out, out = serializeHeader w h f (BitVec.ofNat 32 s.eng.p) ++ rest ++
        (if embedBit s.eng.ops.flags then s.palette.flatMap (colorBytes (strideOf s.eng.ops.flags)) else []) ∧
      encodeTail s = .ok (setResult out.length { s with eng := { s.eng with out := out } }) := by
  refine ⟨_, rfl, ?_⟩
  have hp : writerPatch 12 (le32 (BitVec.ofNat 32 s.eng.p)) s = { s with eng := { s.eng with
      out := serializeHeader w h f (BitVec.ofNat 32 s.eng.p) ++ rest } } := by
    rw [writerPatch, ho, patched_header]
  unfold encodeTail
  dsimp only
  rw [hp]
  by_cases he : embedBit s.eng.ops.flags = true
  · rw [if_pos he] at hr
    simp only [he, if_true]
    rw [putPalette_ok _ _ _ (by rw [ho] at hr; simpa using hr), Flow.ok_andThen]
    have : ∀ e : Engine, entryBytes (strideOf s.eng.ops.flags) s.palLen.val 0 { s with eng := e } =
        s.palette.flatMap (colorBytes (strideOf s.eng.ops.flags)) := fun e => entryBytes_all _ { s with eng := e }
    simp only [this]
    rfl
  · simp only [if_neg he, Flow.ok_andThen, List.append_nil]
    rfl

/-! ### The command -/

/-- ENCODE's body where nothing is raised: the state it ends in (spec/44_rle_encoder.md R200, R207). -/
theorem encodeBody_ok (keep : Bool) (s : State) (seed : List Word) (hs : seed = if keep then s.palette else [])
    (hf : reservedFlags s.eng.ops.flags = 0) (hw : dimWidth s.eng.ops.dim ≠ 0) (hh : dimHeight s.eng.ops.dim ≠ 0)
    (hc : (encodedPalette s.eng.ops s.mem seed).length ≤ 256)
    (hr : encodedLength s.eng.ops s.mem seed ≤ s.eng.ops.dstCap.toNat) :
    ∃ t, encodeBody keep s = .ok (setResult (encodedLength s.eng.ops s.mem seed) t) ∧
      ScanFrame (afterHeader keep s) t ∧ t.eng.out = encodedStream s.eng.ops s.mem seed ∧
      t.palette = encodedPalette s.eng.ops s.mem seed ∧ (∀ j, t.palette.length ≤ j → t.palEntry j = s.palEntry j) ∧
      t.pairCount = BitVec.ofNat 32 (encodedPairs s.eng.ops s.mem seed).length := by
  have hpos := pixels_pos hw hh
  have hP := afterHeader_scanPairs keep s hpos
  have hL := afterHeader_scanPalette keep s hpos
  rw [← hs] at hP hL
  have hcap : (afterHeader keep s).eng.wrCap = s.eng.ops.dstCap.toNat := rfl
  have h16 : (afterHeader keep s).eng.out.length = 16 := rfl
  have hlen : 16 + 2 * (encodedPairs s.eng.ops s.mem seed).length ≤ s.eng.ops.dstCap.toNat := by
    unfold encodedLength at hr
    omega
  rcases encodeBody_cases keep s with ⟨h, -⟩ | ⟨-, h, -⟩ | ⟨-, -, h, -⟩ | ⟨-, -, -, hb⟩
  · exact absurd hf h
  · exact absurd h (by rw [not_or]; exact ⟨hw, hh⟩)
  · omega
  · obtain ⟨u, h1, h2, h3, h4, h5, h6, h7⟩ := scan_emit_ok (s.eng.ops.pixels - 1) (afterHeader keep s)
      (by rw [hL]; exact hc) (by rw [hP, hcap, h16]; exact hlen)
    rw [hP] at h5 h6
    rw [hL] at h3
    have hp : u.eng.p = (encodedPairs s.eng.ops s.mem seed).length := by
      rw [h6]
      exact Nat.zero_add _
    have hlenU : u.eng.out.length = 16 + 2 * (encodedPairs s.eng.ops s.mem seed).length := by
      rw [h5, List.length_append, h16]
      congr 1
      exact length_flatMap_pairBytes _
    have hpal : u.palLen.val = (encodedPalette s.eng.ops s.mem seed).length := by rw [← h3, State.length_palette]
    have hops : u.eng.ops = s.eng.ops := h2.ops
    obtain ⟨out, g1, g2⟩ := encodeTail_ok (s := u) h5 (by
      rw [hlenU, hops, hpal, h2.wrCap, hcap]
      exact hr)
    rw [hops, hp, h3] at g1
    have g1' : out = encodedStream s.eng.ops s.mem seed := g1
    refine ⟨{ u with eng := { u.eng with out := out } }, ?_, ?_, g1', h3, fun j hj => ?_, ?_⟩
    · rw [hb, h1, Flow.ok_andThen, g2, g1', length_encodedStream]
    · exact h2.trans (by constructor <;> first | rfl | (constructor <;> rfl))
    · refine (h4 j hj).trans ?_
      cases keep <;> rfl
    · exact h7.trans (by rw [hp])

/-- ENCODE's tail where the destination has no room for the embedded palette (spec/44_rle_encoder.md R212). -/
theorem encodeTail_big {s : State} (h16 : 16 ≤ s.eng.out.length) (h0 : s.eng.out.length ≤ s.eng.wrCap)
    (he : embedBit s.eng.ops.flags = true)
    (hr : s.eng.wrCap < s.eng.out.length + s.palLen.val * strideOf s.eng.ops.flags) :
    ∃ t, encodeTail s = .raise .outputTooLarge t ∧ ScanFrame s t ∧ t.eng.out.length ≤ s.eng.wrCap := by
  have hl : (writerPatch 12 (le32 (BitVec.ofNat 32 s.eng.p)) s).eng.out.length = s.eng.out.length :=
    length_patched _ (by simpa using h16)
  obtain ⟨out, h1, -, h3⟩ := putPalette_big s.palLen.val 0 (writerPatch 12 (le32 (BitVec.ofNat 32 s.eng.p)) s)
    (by rw [hl]; exact h0) (by rw [hl]; exact hr)
  refine ⟨{ writerPatch 12 (le32 (BitVec.ofNat 32 s.eng.p)) s with
    eng := { (writerPatch 12 (le32 (BitVec.ofNat 32 s.eng.p)) s).eng with out := out } }, ?_, ?_, h3⟩
  · unfold encodeTail
    dsimp only
    rw [if_pos (show embedBit (writerPatch 12 (le32 (BitVec.ofNat 32 s.eng.p)) s).eng.ops.flags = true from he)]
    rw [show (writerPatch 12 (le32 (BitVec.ofNat 32 s.eng.p)) s).palLen.val = s.palLen.val from rfl, h1,
      Flow.raise_andThen]
  · constructor <;> first | rfl | (constructor <;> rfl)

/-- ENCODE's body past its pre-checks where the destination is too small for the stream: OutputTooLarge, the cursor
within the capacity (spec/41_buffer_writer.md R164, spec/44_rle_encoder.md R212). -/
theorem encodeBody_big (keep : Bool) (s : State) (seed : List Word) (hs : seed = if keep then s.palette else [])
    (hf : reservedFlags s.eng.ops.flags = 0) (hw : dimWidth s.eng.ops.dim ≠ 0) (hh : dimHeight s.eng.ops.dim ≠ 0)
    (hc : (encodedPalette s.eng.ops s.mem seed).length ≤ 256)
    (hr : s.eng.ops.dstCap.toNat < encodedLength s.eng.ops s.mem seed) :
    ∃ t, encodeBody keep s = .raise .outputTooLarge t ∧ t.eng.out.length ≤ s.eng.ops.dstCap.toNat := by
  have hpos := pixels_pos hw hh
  have hP := afterHeader_scanPairs keep s hpos
  have hL := afterHeader_scanPalette keep s hpos
  rw [← hs] at hP hL
  have hcap : (afterHeader keep s).eng.wrCap = s.eng.ops.dstCap.toNat := rfl
  have h16 : (afterHeader keep s).eng.out.length = 16 := rfl
  rcases encodeBody_cases keep s with ⟨h, -⟩ | ⟨-, h, -⟩ | ⟨-, -, h, hb⟩ | ⟨-, -, h, hb⟩
  · exact absurd hf h
  · exact absurd h (by rw [not_or]; exact ⟨hw, hh⟩)
  · exact ⟨_, hb, Nat.zero_le _⟩
  · rw [hb]
    rcases Nat.lt_or_ge s.eng.ops.dstCap.toNat (16 + 2 * (encodedPairs s.eng.ops s.mem seed).length) with hlen | hlen
    · obtain ⟨t, h1, h2, h3, h4⟩ := scan_emit_big (s.eng.ops.pixels - 1) (afterHeader keep s)
        (by rw [hL]; exact hc) (by rw [hcap, h16]; exact h) (by rw [hP, hcap, h16]; exact hlen)
      exact ⟨t, by rw [h1]; rfl, h4⟩
    · obtain ⟨u, h1, h2, h3, h4, h5, h6, h7⟩ := scan_emit_ok (s.eng.ops.pixels - 1) (afterHeader keep s)
        (by rw [hL]; exact hc) (by rw [hP, hcap, h16]; exact hlen)
      rw [hP] at h5
      rw [hL] at h3
      have hops : u.eng.ops = s.eng.ops := h2.ops
      have hucap : u.eng.wrCap = s.eng.ops.dstCap.toNat := h2.wrCap
      have hlenU : u.eng.out.length = 16 + 2 * (encodedPairs s.eng.ops s.mem seed).length := by
        rw [h5, List.length_append, h16]
        congr 1
        exact length_flatMap_pairBytes _
      have hpal : u.palLen.val = (encodedPalette s.eng.ops s.mem seed).length := by rw [← h3, State.length_palette]
      unfold encodedLength at hr
      split at hr
      · next he =>
        obtain ⟨t, g1, -, g3⟩ := encodeTail_big (s := u) (by omega) (by omega) (by rw [hops]; exact he)
          (by rw [hucap, hlenU, hpal, hops]; omega)
        exact ⟨t, by rw [h1, Flow.ok_andThen, g1], by omega⟩
      · omega

/-- ENCODE's body past its pre-checks where the colours are too many and the destination has room for every pair
(spec/44_rle_encoder.md R212). -/
theorem encodeBody_full (keep : Bool) (s : State) (seed : List Word) (hs : seed = if keep then s.palette else [])
    (hf : reservedFlags s.eng.ops.flags = 0) (hw : dimWidth s.eng.ops.dim ≠ 0) (hh : dimHeight s.eng.ops.dim ≠ 0)
    (hc : 256 < (encodedPalette s.eng.ops s.mem seed).length)
    (hr : 16 + 2 * (splitRuns (imagePixels s.eng.ops s.mem)).length ≤ s.eng.ops.dstCap.toNat) :
    ∃ t q, encodeBody keep s = .raise .tooManyColors t ∧ ScanFrame (afterHeader keep s) t ∧
      t.palette = (encodedPalette s.eng.ops s.mem seed).take 256 ∧
      q ≤ (splitRuns (imagePixels s.eng.ops s.mem)).length ∧
      t.eng.out.length = 16 + 2 * q ∧ t.pairCount = BitVec.ofNat 32 q := by
  have hpos := pixels_pos hw hh
  have hP := afterHeader_scanPairs keep s hpos
  have hL := afterHeader_scanPalette keep s hpos
  rw [← hs] at hP hL
  have hPl : (encodedPairs s.eng.ops s.mem seed).length = (splitRuns (imagePixels s.eng.ops s.mem)).length := by
    simp [encodedPairs]
  have hcap : (afterHeader keep s).eng.wrCap = s.eng.ops.dstCap.toNat := rfl
  have h16 : (afterHeader keep s).eng.out.length = 16 := rfl
  rcases encodeBody_cases keep s with ⟨h, -⟩ | ⟨-, h, -⟩ | ⟨-, -, h, hb⟩ | ⟨-, -, h, hb⟩
  · exact absurd hf h
  · exact absurd h (by rw [not_or]; exact ⟨hw, hh⟩)
  · omega
  · obtain ⟨t, q, h1, h2, h3, h4, h5, h6⟩ := scan_emit_full (s.eng.ops.pixels - 1) (afterHeader keep s)
      (by rw [hL]; exact hc) (by rw [hP, hcap, h16, hPl]; exact hr) rfl
    refine ⟨t, q, by rw [hb, h1]; rfl, h2, by rw [h3, hL], by rw [← hPl, ← hP]; exact h4, h5, ?_⟩
    rw [h6]
    show BitVec.ofNat 32 (0 + q) = _
    rw [Nat.zero_add]

end Sys2Proof.Machine
end

