-- ==== Sys2Proof/Laws/Flags.lean ====
section
/-! SUPPORT. The laws of STATUS (spec/10_state.md R35, spec/40_command_protocol.md R144): what each field of a
completion's word reads as. -/

namespace Sys2Proof.Machine

/-- The fields of STATUS after a completion. -/
theorem statusWord_fields : ∀ st ∈ [0, 3, 4], ∀ code ∈ List.range 12,
    statusBusy (statusWord st code) = false ∧ statusDone (statusWord st code) = true ∧
    statusErr (statusWord st code) = BitVec.ofNat 8 code ∧ statusStride (statusWord st code) = BitVec.ofNat 4 st ∧
    (statusWord st code).extractLsb' 2 6 = 0 ∧ (statusWord st code).extractLsb' 20 12 = 0 := by
  decide

theorem statusBusy_zero : statusBusy 0 = false := by decide

theorem statusBusy_issued : statusBusy statusIssued = true := by decide

theorem ErrCode.code_lt (e : ErrCode) : e.code < 12 := by cases e <;> decide

theorem ErrCode.code_mem (e : ErrCode) : e.code ∈ List.range 12 := List.mem_range.2 e.code_lt

theorem ErrCode.code_ne_zero (e : ErrCode) : e.code ≠ 0 := by cases e <;> decide

/-- ERRCODE of a completion with a stride of 0, 3 or 4 and a code of spec/30_encoding.md R120. -/
theorem statusErr_statusWord {st code : Nat} (hst : st ∈ [0, 3, 4]) (h : code < 12) :
    statusErr (statusWord st code) = BitVec.ofNat 8 code :=
  (statusWord_fields st hst code (List.mem_range.2 h)).2.2.1

/-- The codes a command completes with are codes of spec/30_encoding.md R120. -/
theorem completionCodes_lt {i : Instr} {code : Nat} (h : code ∈ completionCodes i) : code < 12 := by
  rcases List.mem_cons.1 h with rfl | h
  · decide
  · obtain ⟨e, -, rfl⟩ := List.mem_map.1 h
    exact e.code_lt

end Sys2Proof.Machine
end

