-- ==== Sys2Proof/Laws/PerInstr.lean ====
section
/-! SUPPORT. The family of statements made per command. -/

namespace Sys2Proof.Laws

/-- A well-formed command's word keeps to the fields of spec/30_encoding.md R101 and R102: R104 calls the word of the
illegal row illegal, and none of the other rows' words. -/
def LegalWordFields.Statement (i : Instr) : Prop :=
  i.wellFormed = true → illegalFields (encode i) = (match i with | .illegal _ => true | _ => false)

theorem LegalWordFields.encode : LegalWordFields.Statement .encode := by
  intro _
  decide

theorem LegalWordFields.encodeKeep : LegalWordFields.Statement .encodeKeep := by
  intro _
  decide

theorem LegalWordFields.decode : LegalWordFields.Statement .decode := by
  intro _
  decide

theorem LegalWordFields.decodeXpal : LegalWordFields.Statement .decodeXpal := by
  intro _
  decide

theorem LegalWordFields.validate : LegalWordFields.Statement .validate := by
  intro _
  decide

theorem LegalWordFields.hdrParse : LegalWordFields.Statement .hdrParse := by
  intro _
  decide

theorem LegalWordFields.hdrWrite : LegalWordFields.Statement .hdrWrite := by
  intro _
  decide

theorem LegalWordFields.palClear : LegalWordFields.Statement .palClear := by
  intro _
  decide

theorem LegalWordFields.palFind : LegalWordFields.Statement .palFind := by
  intro _
  decide

theorem LegalWordFields.palFindA : LegalWordFields.Statement .palFindA := by
  intro _
  decide

theorem LegalWordFields.illegal (w : Word) : LegalWordFields.Statement (.illegal w) := fun h => h

end Sys2Proof.Laws
end

