-- ==== Sys2Proof/Laws/Port.lean ====
section
/-! SUPPORT. The laws of the register port and of the step: which register an offset names (spec/10_state.md R33), and
what a step does with each transaction. -/

namespace Sys2Proof.Machine

theorem regAt_pal : ∀ j : Fin 256, regAt (BitVec.ofNat 11 (0x400 + 4 * j.val)) = some (.pal j) := by decide +kernel

theorem portAccessOk_pal : ∀ j : Fin 256, portAccessOk .word (BitVec.ofNat 11 (0x400 + 4 * j.val)) = true := by
  decide +kernel

/-- The offsets between WR_CURSOR and the palette window name no register. -/
theorem regAt_unlisted : ∀ off : BitVec 11, off.toNat % 4 = 0 → 0x040 ≤ off.toNat → off.toNat < 0x400 →
    regAt off = none := by
  decide +kernel

theorem portAccessOk_of_aligned {off : BitVec 11} (h : off.toNat % 4 = 0) : portAccessOk .word off = true := by
  simp [portAccessOk, h]

/-- An idle engine with nothing to serve stays as it is. -/
theorem step_idle {s : State} (hb : statusBusy s.status = false) (hh : s.host = []) : step s = .next s := by
  unfold step
  rw [if_neg (by simp [hb]), hh]

/-- An idle engine serves the host's next transaction. -/
theorem step_serveIdle {s : State} {t : HostTxn} {rest : List HostTxn} (hb : statusBusy s.status = false)
    (hh : s.host = t :: rest) : step s = serveIdle t { s with host := rest } := by
  unfold step
  rw [if_neg (by simp [hb]), hh]
  simp [popHost, hh]

/-- A busy engine whose turn has come runs the command in CMD. -/
theorem step_exec {s : State} (hb : statusBusy s.status = true) (h : s.eng.busyLeft = 0 ∨ s.host = []) :
    step s = exec (decode s.cmd) s := by
  unfold step
  rw [if_pos hb]
  rcases h with h | h
  · rw [if_pos h]
  · rw [h]
    simp

/-- A busy engine that still waits serves the host's next transaction. -/
theorem step_serveBusy {s : State} {t : HostTxn} {rest : List HostTxn} (hb : statusBusy s.status = true)
    (hl : s.eng.busyLeft ≠ 0) (hh : s.host = t :: rest) :
    step s = serveBusy t { s with host := rest, eng := { s.eng with busyLeft := s.eng.busyLeft - 1 } } := by
  unfold step
  rw [if_pos hb, if_neg hl, hh]
  simp [popHost, spendBusy, hh]

/-- A read of the idle engine's port. -/
theorem serveIdle_read {off : BitVec 11} (h : portAccessOk .word off = true) (s : State) :
    serveIdle (.regRead .word off) s = .next (idleRead off s) := if_pos h

/-- A write of the idle engine's port. -/
theorem serveIdle_write {off : BitVec 11} (h : portAccessOk .word off = true) (v : Word) (s : State) :
    serveIdle (.regWrite .word off v) s = .next (idleWrite off v s) := if_pos h

/-- While a command runs, STATUS shows BUSY alone (spec/10_state.md R35). -/
theorem State.Inv.status_busy {s : State} (h : s.Inv) (hb : statusBusy s.status = true) : s.status = statusIssued := by
  rcases h.status_legal with h | h | ⟨st, h1, c, h2, h⟩
  · rw [h] at hb
    exact absurd hb (by decide)
  · exact h
  · rw [h, (statusWord_fields st h1 c h2).1] at hb
    cases hb

/-- A transaction of the contract is served with a next state. -/
theorem serveBusy_next {t : HostTxn} (h : t.inContract = true) (s : State) : ∃ u, serveBusy t s = .next u := by
  cases t with
  | regWrite width off v => exact ⟨s, if_pos h⟩
  | regRead width off => exact ⟨busyRead off s, if_pos h⟩
  | memWrite a b => exact ⟨_, rfl⟩
  | memRead a => exact ⟨_, rfl⟩
  | reset => exact ⟨_, rfl⟩

/-- A run takes its first step and goes on from there. -/
theorem runSteps_succ {s t : State} (n : Nat) (h : step s = .next t) : runSteps (n + 1) s = runSteps n t := by
  simp only [runSteps, h]

end Sys2Proof.Machine
end

