-- ==== Sys2Proof/Laws/Stream.lean ====
section
/-! SUPPORT. A stream read back from memory: the header and the pairs of bytes that ENCODE's form lays out
(spec/30_encoding.md R107, R115, R119), and what the runs, the pairs and the palette of an image are
(spec/44_rle_encoder.md R202, R208, R209, R211). -/

namespace Sys2Proof.Machine

/-! ### Reading a stream back -/

/-- The header of a stream is read back as its fields. -/
theorem readHeader_of_stream {o : Operands} {m : Memory} {w h : BitVec 16} {f p : Word} {rest : List Byte} {n : Nat}
    (hb : m.readBytes o.srcAddr n = serializeHeader w h f p ++ rest) :
    readHeader o m =
      { magic := Config.pieMagic, version := Config.pieVersion, flags := f, width := w, height := h,
        pairCount := p } := by
  have hn : n = 16 + rest.length := by simpa using congrArg List.length hb
  have h1 := Memory.readBytes_slice m o.srcAddr n 0 16 (by omega)
  rw [hb, List.drop_zero, List.take_left' (length_serializeHeader w h f p)] at h1
  have h2 : m.readBytes o.srcAddr 16 = serializeHeader w h f p := by rw [h1]; simp
  rw [readHeader, h2, headerOfBytes_serializeHeader]

/-- The bytes of pair k among the bytes of all pairs (spec/30_encoding.md R115). -/
theorem take_drop_pairBytes (ps : List (Nat × Nat)) (k : Nat) (hk : k < ps.length) (rest : List Byte) :
    ((ps.flatMap pairBytes ++ rest).drop (2 * k)).take 2 = pairBytes ps[k] := by
  induction ps generalizing k with
  | nil => simp at hk
  | cons p ps ih =>
    cases k with
    | zero => simp [pairBytes]
    | succ k =>
      have := ih k (by simpa using hk)
      rw [List.flatMap_cons, show 2 * (k + 1) = (pairBytes p).length + 2 * k by rw [length_pairBytes]; omega,
        List.append_assoc, ← List.drop_drop, List.drop_left]
      simpa using this

/-- The pairs of a stream are read back. -/
theorem streamPairs_of_stream {o : Operands} {m : Memory} {w h : BitVec 16} {f : Word} {ps : List (Nat × Nat)}
    {rest : List Byte} {n : Nat}
    (hb : m.readBytes o.srcAddr n =
      serializeHeader w h f (BitVec.ofNat 32 ps.length) ++ ps.flatMap pairBytes ++ rest)
    (hlen : ps.length < 4294967296) (hps : ∀ p ∈ ps, p.1 < 256 ∧ p.2 < 256) : streamPairs o m = ps := by
  rw [List.append_assoc] at hb
  have hl : (BitVec.ofNat 32 ps.length).toNat = ps.length := by rw [BitVec.toNat_ofNat]; omega
  have hn : n = 16 + 2 * ps.length + rest.length := by
    have := congrArg List.length hb
    simp only [Memory.length_readBytes, List.length_append, length_serializeHeader, length_flatMap_pairBytes] at this
    omega
  have hh := readHeader_of_stream hb
  unfold streamPairs
  rw [hh]
  simp only [hl]
  apply List.ext_getElem (by simp)
  intro k h1 h2
  have hsl := Memory.readBytes_slice m o.srcAddr n (16 + 2 * k) 2 (by omega)
  rw [hb, ← List.drop_drop, List.drop_left' (length_serializeHeader _ _ _ _), take_drop_pairBytes ps k h2] at hsl
  simp only [List.getElem_map, List.getElem_range]
  have e0 := congrArg (fun l => l[0]?) hsl
  have e1 := congrArg (fun l => l[1]?) hsl
  simp [Memory.readBytes, pairBytes, List.range_succ] at e0 e1
  have := hps ps[k] (List.getElem_mem h2)
  have r1 : pairRun o m k = ps[k].1 := by
    rw [pairRun, ← e0, BitVec.toNat_ofNat]
    omega
  have r2 : pairIndex o m k = ps[k].2 := by
    rw [pairIndex, show 17 + 2 * k = 16 + 2 * k + 1 by omega, BitVec.ofNat_add, ← BitVec.add_assoc,
      show BitVec.ofNat 32 1 = 1#32 from rfl, ← e1, BitVec.toNat_ofNat]
    omega
  rw [r1, r2]

/-! ### The runs and the pairs of an image -/

/-- Every run has 1 to 255 pixels, the runs have all the pixels, and their colours are the pixels'
(spec/44_rle_encoder.md R202, R208). -/
theorem runsFrom_props (c : Word) (n : Nat) (cs : List Word) (hn : 1 ≤ n) (hn' : n ≤ 255) :
    (∀ r ∈ runsFrom c n cs, 1 ≤ r.1 ∧ r.1 ≤ 255) ∧ ((runsFrom c n cs).map Prod.fst).sum = n + cs.length ∧
    1 ≤ (runsFrom c n cs).length ∧ (runsFrom c n cs).length ≤ 1 + cs.length ∧
    ∀ r ∈ runsFrom c n cs, r.2 = c ∨ r.2 ∈ cs := by
  induction cs generalizing c n with
  | nil => simp [runsFrom, hn, hn']
  | cons d cs ih =>
    unfold runsFrom
    split
    · obtain ⟨h1, h2, h3, h4, h5⟩ := ih c (n + 1) (by omega) (by omega)
      refine ⟨h1, by rw [h2, List.length_cons]; omega, h3, by rw [List.length_cons]; omega, fun r hr => ?_⟩
      rcases h5 r hr with h | h <;> simp [h]
    · obtain ⟨h1, h2, h3, h4, h5⟩ := ih d 1 (by omega) (by omega)
      refine ⟨fun r hr => ?_, by simp [h2]; omega, by simp, by simp; omega, fun r hr => ?_⟩
      · rcases List.mem_cons.1 hr with rfl | hr
        · exact ⟨hn, hn'⟩
        · exact h1 r hr
      · rcases List.mem_cons.1 hr with rfl | hr
        · simp
        · rcases h5 r hr with h | h <;> simp [h]

/-- A colour offered is in the palette. -/
theorem growPalette_any {st : Nat} (hst : st = 3 ∨ st = 4) (pal cs : List Word) (c : Word) (h : c ∈ cs) :
    (growPalette st pal cs).any (fun e => sameColor st e c) = true := by
  induction cs generalizing pal with
  | nil => simp at h
  | cons d cs ih =>
    rcases List.mem_cons.1 h with rfl | h
    · obtain ⟨t, ht⟩ := growPalette_prefix st (offerColor st pal c) cs
      show (growPalette st (offerColor st pal c) cs).any _ = _
      rw [← ht, List.any_append, offerColor_any hst]
      rfl
    · exact ih _ h

theorem splitRuns_imagePixels {o : Operands} (m : Memory) (h : 0 < o.pixels) :
    splitRuns (imagePixels o m) = runsFrom (pixelAt o m 0) 1 (pixelsFrom o m 1 (o.pixels - 1)) := by
  rw [imagePixels_eq m h]
  rfl

/-- The pairs of an image: runs of 1 to 255 pixels, N in all, with indices into the palette
(spec/44_rle_encoder.md R208, R210). -/
theorem encodedPairs_props {o : Operands} {m : Memory} (seed : List Word) (hpos : 0 < o.pixels) :
    (∀ p ∈ encodedPairs o m seed, 1 ≤ p.1 ∧ p.1 ≤ 255 ∧ p.2 < (encodedPalette o m seed).length) ∧
    runTotal (encodedPairs o m seed) = o.pixels ∧
    1 ≤ (encodedPairs o m seed).length ∧ (encodedPairs o m seed).length ≤ o.pixels := by
  obtain ⟨h1, h2, h3, h4, h5⟩ :=
    runsFrom_props (pixelAt o m 0) 1 (pixelsFrom o m 1 (o.pixels - 1)) (by omega) (by omega)
  have hlen : (pixelsFrom o m 1 (o.pixels - 1)).length = o.pixels - 1 := by simp [pixelsFrom]
  rw [hlen] at h2 h4
  unfold encodedPairs
  rw [splitRuns_imagePixels m hpos]
  refine ⟨fun p hp => ?_, ?_, by simpa using h3, by simp only [List.length_map]; omega⟩
  · obtain ⟨r, hr, rfl⟩ := List.mem_map.1 hp
    refine ⟨(h1 r hr).1, (h1 r hr).2, colorIndex_lt (growPalette_any (strideOf_cases _) _ _ _ ?_)⟩
    rw [imagePixels_eq m hpos]
    rcases h5 r hr with h | h <;> simp [h]
  · rw [runTotal, List.map_map]
    have : (Prod.fst ∘ fun r : Nat × Word =>
        (r.1, colorIndex (strideOf o.flags) (encodedPalette o m seed) r.2)) = Prod.fst := rfl
    rw [this, h2]
    omega

/-- A run of one colour is cut into runs of 255 pixels and a last one (spec/44_rle_encoder.md R208, R209). -/
theorem runsFrom_replicate (c : Word) (n k : Nat) (hn : 1 ≤ n) (hn' : n ≤ 255) :
    runsFrom c n (List.replicate k c) = List.replicate ((n + k + 254) / 255 - 1) (255, c) ++
      [(n + k - 255 * ((n + k + 254) / 255 - 1), c)] := by
  induction k generalizing n with
  | zero =>
    have : (n + 0 + 254) / 255 - 1 = 0 := by omega
    rw [this]
    simp [runsFrom]
  | succ k ih =>
    rw [List.replicate_succ, runsFrom]
    by_cases h : n < 255
    · rw [if_pos ⟨rfl, h⟩, ih _ (by omega) (by omega), show n + 1 + k = n + (k + 1) by omega]
    · have e3 : n = 255 := by omega
      rw [if_neg (fun h' => h h'.2), ih _ (by omega) (by omega)]
      clear ih
      have e1 : (n + (k + 1) + 254) / 255 - 1 = (1 + k + 254) / 255 - 1 + 1 := by omega
      rw [e1]
      generalize (1 + k + 254) / 255 - 1 = x
      have e2 : n + (k + 1) - 255 * (x + 1) = 1 + k - 255 * x := by omega
      rw [e2, List.replicate_succ, List.cons_append, e3]

/-! ### The palette of an image -/

/-- A pixel is the colour its bytes make. -/
theorem colorBytes_pixelAt (o : Operands) (m : Memory) (i : Nat) :
    colorBytes (strideOf o.flags) (pixelAt o m i) =
      m.readBytes (o.srcAddr + BitVec.ofNat 32 (i * strideOf o.flags)) (strideOf o.flags) :=
  colorBytes_colorOfBytes (strideOf_cases _) (by simp)

theorem colorOfBytes_pixelAt (o : Operands) (m : Memory) (i : Nat) :
    colorOfBytes (colorBytes (strideOf o.flags) (pixelAt o m i)) = pixelAt o m i := by
  rw [colorBytes_pixelAt]
  rfl

/-- Find-or-insert of colours that their first st bytes make: the entries found first, then the colours that match
none of them, in the order of their first occurrence (spec/43_palette_table.md R193). -/
theorem growPalette_eq_first {st : Nat} (seed acc cs : List Word)
    (hcs : ∀ c ∈ cs, colorOfBytes (colorBytes st c) = c) (hacc : ∀ c ∈ acc, colorOfBytes (colorBytes st c) = c) :
    growPalette st (seed ++ acc) cs = seed ++ (cs.filter fun c => !seed.any fun e => sameColor st e c).foldl
      (fun acc c => if c ∈ acc then acc else acc ++ [c]) acc := by
  induction cs generalizing acc with
  | nil => rfl
  | cons c cs ih =>
    have hc := hcs c (by simp)
    have hcs' : ∀ c ∈ cs, colorOfBytes (colorBytes st c) = c := fun x hx => hcs x (by simp [hx])
    show growPalette st (offerColor st (seed ++ acc) c) cs = _
    cases hseed : seed.any fun e => sameColor st e c
    · rw [List.filter_cons_of_pos (by simp [hseed]), List.foldl_cons]
      have hiff : (acc.any fun e => sameColor st e c) = decide (c ∈ acc) := by
        rw [Bool.eq_iff_iff, List.any_eq_true, decide_eq_true_iff]
        constructor
        · rintro ⟨x, hx, hxc⟩
          have : x = c := by
            rw [← hacc x hx, ← hc]
            simp only [sameColor, beq_iff_eq] at hxc
            rw [hxc]
          rwa [← this]
        · intro h
          exact ⟨c, h, by simp [sameColor]⟩
      by_cases hin : c ∈ acc
      · rw [offerColor_of_mem (by rw [List.any_append, hseed, hiff]; simp [hin]), if_pos hin]
        exact ih acc hcs' hacc
      · rw [offerColor_of_not_mem (by rw [List.any_append, hseed, hiff]; simp [hin]), if_neg hin, hc,
          List.append_assoc]
        refine ih _ hcs' fun x hx => ?_
        rcases List.mem_append.1 hx with hx | hx
        · exact hacc x hx
        · rw [List.mem_singleton.1 hx]
          exact hc
    · rw [List.filter_cons_of_neg (by simp [hseed]), offerColor_of_mem (by rw [List.any_append, hseed]; simp)]
      exact ih acc hcs' hacc

end Sys2Proof.Machine
end

