-- ==== Sys2Proof/Laws/Replay.lean ====
section
/-! SUPPORT. Replaying what ENCODE wrote: the pairs are sound, the palette slice holds the palette, and the runs of an
image give its bytes back (spec/45_rle_decoder.md R225, R229). -/

namespace Sys2Proof.Machine

/-- The header and the pairs of the stream ENCODE wrote, read back wherever its bytes stand. -/
theorem encodedStream_readBack {s : State} {seed : List Word} (h : EncodeReady s seed) {o : Operands} {m : Memory}
    (hb : m.readBytes o.srcAddr (encodedLength s.eng.ops s.mem seed) = encodedStream s.eng.ops s.mem seed) :
    streamPairs o m = encodedPairs s.eng.ops s.mem seed ∧ readHeader o m =
      { magic := Config.pieMagic, version := Config.pieVersion, flags := s.eng.ops.flags,
        width := dimWidth s.eng.ops.dim, height := dimHeight s.eng.ops.dim,
        pairCount := BitVec.ofNat 32 (encodedPairs s.eng.ops s.mem seed).length } := by
  obtain ⟨h1, -, -, h4⟩ := encodedPairs_props (m := s.mem) seed (pixels_pos h.width h.height)
  have := pixels_lt s.eng.ops
  unfold encodedStream at hb
  refine ⟨streamPairs_of_stream hb (by omega) fun p hp => ?_,
    readHeader_of_stream (by rw [List.append_assoc] at hb; exact hb)⟩
  have := h1 p hp
  have := h.colors
  omega

/-- Pairs with runs, with indices in the palette, and no longer than N in all, are all replayed. -/
theorem soundPairs_all (total pl cur : Nat) (ps : List (Nat × Nat)) (h : ∀ p ∈ ps, 1 ≤ p.1 ∧ p.2 < pl)
    (hs : cur + runTotal ps ≤ total) : soundPairs total pl cur ps = ps := by
  induction ps generalizing cur with
  | nil => rfl
  | cons p ps ih =>
    obtain ⟨n, idx⟩ := p
    have hp := h (n, idx) (by simp)
    simp only [runTotal, List.map_cons, List.sum_cons] at hs
    rw [soundPairs, if_neg (by simp only at hp; omega),
      ih _ (fun p hp => h p (by simp [hp])) (by simp only [runTotal]; omega)]

theorem soundPairs_index_lt (total pl cur : Nat) (ps : List (Nat × Nat)) :
    ∀ p ∈ soundPairs total pl cur ps, p.2 < pl := by
  induction ps generalizing cur with
  | nil => simp [soundPairs]
  | cons p ps ih =>
    obtain ⟨n, idx⟩ := p
    unfold soundPairs
    split
    · simp
    · intro p hp
      rcases List.mem_cons.1 hp with rfl | hp
      · show idx < pl
        omega
      · exact ih _ p hp

/-- Entry idx of a palette slice, as a part of the slice's bytes. -/
theorem sliceColor_eq {m : Memory} {b : Word} {st l idx : Nat} (hi : idx < l) :
    sliceColor m b st idx = ((m.readBytes b (l * st)).drop (idx * st)).take st := by
  have : (idx + 1) * st ≤ l * st := Nat.mul_le_mul_right _ hi
  rw [Memory.readBytes_slice _ _ _ _ _ (by rw [Nat.add_mul] at this; omega)]
  rfl

/-- Pairs replay the same over two palette slices with the same bytes (spec/45_rle_decoder.md R230). -/
theorem replayedBytes_congr {m m' : Memory} {b1 b2 : Word} {st l : Nat} {ps : List (Nat × Nat)}
    (hb : m.readBytes b1 (l * st) = m'.readBytes b2 (l * st)) (hp : ∀ p ∈ ps, p.2 < l) :
    replayedBytes m b1 st ps = replayedBytes m' b2 st ps := by
  induction ps with
  | nil => rfl
  | cons p ps ih =>
    have h1 := hp p (by simp)
    have h2 := ih fun q hq => hp q (by simp [hq])
    unfold replayedBytes at h2 ⊢
    rw [List.flatMap_cons, List.flatMap_cons, h2, sliceColor_eq h1, sliceColor_eq h1, hb]

/-- Entry idx of a slice that holds a palette's bytes. -/
theorem sliceColor_of_palette {m : Memory} {base : Word} {st : Nat} (hst : st = 3 ∨ st = 4) (pal : List Word)
    {idx : Nat} (hi : idx < pal.length)
    (hb : m.readBytes base (pal.length * st) = pal.flatMap (colorBytes st)) :
    sliceColor m base st idx = colorBytes st pal[idx] := by
  rw [sliceColor_eq hi, hb]
  clear hb
  induction pal generalizing idx with
  | nil => simp at hi
  | cons c pal ih =>
    have hl := length_colorBytes_of_stride hst c
    cases idx with
    | zero =>
      rw [Nat.zero_mul, List.drop_zero, List.flatMap_cons, List.take_left' hl]
      rfl
    | succ idx =>
      rw [List.flatMap_cons, show (idx + 1) * st = (colorBytes st c).length + idx * st by rw [hl]; ring,
        ← List.drop_drop, List.drop_left]
      exact ih (by simpa using hi)

/-- The runs of an image, expanded, are the image. -/
theorem runsFrom_expand (f : Word → List Byte) (c : Word) (n : Nat) (cs : List Word) :
    (runsFrom c n cs).flatMap (fun r => (List.replicate r.1 (f r.2)).flatten) =
      (List.replicate n (f c)).flatten ++ cs.flatMap f := by
  induction cs generalizing c n with
  | nil => simp [runsFrom]
  | cons d cs ih =>
    unfold runsFrom
    split
    · next h =>
      rw [ih, List.replicate_succ', List.flatten_append, h.1]
      simp
    · rw [List.flatMap_cons, ih]
      simp

/-- The bytes of an image are its source bytes. -/
theorem imagePixels_bytes (o : Operands) (m : Memory) :
    (imagePixels o m).flatMap (colorBytes (strideOf o.flags)) =
      m.readBytes o.srcAddr (o.pixels * strideOf o.flags) := by
  unfold imagePixels
  generalize o.pixels = n
  induction n with
  | zero => simp [Memory.readBytes]
  | succ n ih =>
    rw [List.range_succ, List.map_append, List.flatMap_append, ih, Nat.add_mul, Nat.one_mul, Memory.readBytes_add]
    simp [colorBytes_pixelAt]

/-- The pairs of an image, replayed over a slice that holds its palette, give its bytes (spec/45_rle_decoder.md
R229). -/
theorem replayedBytes_encodedPairs {o : Operands} {m m' : Memory} {base : Word} (seed : List Word) (hpos : 0 < o.pixels)
    (hb : m'.readBytes base ((encodedPalette o m seed).length * strideOf o.flags) =
      (encodedPalette o m seed).flatMap (colorBytes (strideOf o.flags))) :
    replayedBytes m' base (strideOf o.flags) (encodedPairs o m seed) =
      m.readBytes o.srcAddr (o.pixels * strideOf o.flags) := by
  rw [← imagePixels_bytes, imagePixels_eq m hpos]
  have := runsFrom_expand (colorBytes (strideOf o.flags)) (pixelAt o m 0) 1 (pixelsFrom o m 1 (o.pixels - 1))
  simp only [List.replicate_one, List.flatten_singleton] at this
  rw [List.flatMap_cons, ← this]
  unfold replayedBytes encodedPairs
  rw [splitRuns_imagePixels m hpos, List.flatMap_map]
  obtain ⟨-, -, -, -, h5⟩ :=
    runsFrom_props (pixelAt o m 0) 1 (pixelsFrom o m 1 (o.pixels - 1)) (by omega) (by omega)
  refine List.flatMap_congr fun r hr => ?_
  have hany : (encodedPalette o m seed).any (fun e => sameColor (strideOf o.flags) e r.2) = true := by
    refine growPalette_any (strideOf_cases _) _ _ _ ?_
    rw [imagePixels_eq m hpos]
    rcases h5 r hr with h | h <;> simp [h]
  have hlt := colorIndex_lt hany
  rw [sliceColor_of_palette (strideOf_cases _) _ hlt hb]
  have := List.findIdx_getElem (w := hlt)
  simp only [sameColor, beq_iff_eq] at this
  simp only
  congr 2

end Sys2Proof.Machine
end

