-- ==== Sys2Proof/Tests/Slice0.lean ====
section
/-! SUPPORT. The model's own tests. Three kinds: the decoder on words written out bit by bit from the fields of
spec/30_encoding.md R102, single commands on the vectors of spec/95_test_vectors.md (named in each docstring), and for
every statement with hypotheses a witness that meets them. -/

namespace Sys2Proof.Tests

open Sys2Proof Sys2Proof.Machine

/-! ### Well-formedness -/

/-- The one ill-formed kind of term: the illegal row carrying a legal word. -/
theorem test_wellFormed_refuses_legal_words :
    ∀ row ∈ opcodeRows, (Instr.illegal row.1).wellFormed = false ∧ row.2.2.wellFormed = true := by decide +kernel

/-- The words of spec/95_test_vectors.md section 2.1 are illegal. -/
theorem test_wellFormed_accepts_illegal_words :
    ([0x00000000#32, 0x00000008#32, 0x000000FF#32, 0x00000201#32, 0x00000107#32, 0x00000103#32, 0x00000403#32].all
      fun w => (Instr.illegal w).wellFormed) = true := by decide

/-! ### Decoding, words written as RSVD ++ ALPHA ++ OPT ++ OP -/

theorem test_decode_encode : decode (0#22 ++ 0#1 ++ 0#1 ++ 0b00000001#8) = .encode := by decide

theorem test_decode_encodeKeep : decode (0#22 ++ 0#1 ++ 1#1 ++ 0b00000001#8) = .encodeKeep := by decide

theorem test_decode_decode : decode (0#22 ++ 0#1 ++ 0#1 ++ 0b00000010#8) = .decode := by decide

theorem test_decode_decodeXpal : decode (0#22 ++ 0#1 ++ 1#1 ++ 0b00000010#8) = .decodeXpal := by decide

theorem test_decode_validate : decode (0#22 ++ 0#1 ++ 0#1 ++ 0b00000011#8) = .validate := by decide

theorem test_decode_hdrParse : decode (0#22 ++ 0#1 ++ 0#1 ++ 0b00000100#8) = .hdrParse := by decide

theorem test_decode_hdrWrite : decode (0#22 ++ 0#1 ++ 0#1 ++ 0b00000101#8) = .hdrWrite := by decide

theorem test_decode_palClear : decode (0#22 ++ 0#1 ++ 0#1 ++ 0b00000110#8) = .palClear := by decide

theorem test_decode_palFind : decode (0#22 ++ 0#1 ++ 0#1 ++ 0b00000111#8) = .palFind := by decide

theorem test_decode_palFindA : decode (0#22 ++ 1#1 ++ 0#1 ++ 0b00000111#8) = .palFindA := by decide

theorem test_decode_illegal : decode (1#22 ++ 0#1 ++ 0#1 ++ 0b00000011#8) = .illegal 0x00000403#32 := by decide

theorem test_encode_words : (opcodeRows.map fun row => encode row.2.2) = opcodeRows.map fun row => row.1 := by decide +kernel

/-! ### States -/

/-- A state whose running command has latched o, over a memory m. -/
def running (o : Operands) (m : Memory) : State :=
  { State.reset with status := statusIssued, mem := m, eng := { Engine.idle with ops := o } }

/-- The state after the engine's step, or the state itself where there is none. -/
def after (i : Instr) (s : State) : State :=
  match exec i s with
  | .next t => t
  | .fault _ => s
  | .refused _ => s

/-- The pixels A A B A at 0x1000 (spec/95_test_vectors.md E-0). -/
def mem0 : Memory :=
  [(0x1000, 0x10), (0x1001, 0x20), (0x1002, 0x30), (0x1003, 0x10), (0x1004, 0x20), (0x1005, 0x30), (0x1006, 0x40),
    (0x1007, 0x50), (0x1008, 0x60), (0x1009, 0x10), (0x100A, 0x20), (0x100B, 0x30)]

/-- ENCODE of E-0 into cap bytes at 0x2000 with flags f. -/
def ops0 (f cap : Word) : Operands :=
  { Operands.idle with srcAddr := 0x1000, dstAddr := 0x2000, dstCap := cap, dim := 0x00010004, flags := f }

/-! ### Commands, on the vectors of spec/95_test_vectors.md -/

/-- Vector E-0: STATUS, RESULT_LO, PAIR_COUNT, PAL_LEN and the palette. -/
theorem test_encode_E0 :
    let t := after .encode (running (ops0 1 64) mem0)
    t.status = 0x00030002#32 ∧ t.resultLo = 28 ∧ t.pairCount = 3 ∧ t.palette = [0x00302010#32, 0x00605040#32] := by
  decide +kernel

/-- Vector E-10: one byte short of 28. -/
theorem test_encode_E10 :
    let t := after .encode (running (ops0 1 27) mem0)
    t.status = 0x00030602#32 ∧ t.wrCursor = 25 ∧ t.pairCount = 3 ∧ t.palLen = 2 := by decide +kernel

/-- The pairs and the palette of E-0's stream. -/
theorem test_encoded_stream_E0 :
    (encodedStream (ops0 1 64) mem0 []).drop 16 =
      [0x02, 0x00, 0x01, 0x01, 0x01, 0x00, 0x10, 0x20, 0x30, 0x40, 0x50, 0x60] := by decide +kernel

/-- Vector E-19: the pre-seeded palette first. -/
theorem test_encodeKeep_E19 :
    let s := { running (ops0 1 64) mem0 with
      pal := (Vector.replicate 256 0).set 0 0x00CCBBAA#32 |>.set 1 0x00605040#32, palLen := 2 }
    let t := after .encodeKeep s
    t.status = 0x00030002#32 ∧ t.resultLo = 31 ∧ t.palette = [0x00CCBBAA#32, 0x00605040#32, 0x00302010#32] := by
  decide +kernel

/-- The pairs of E-19's stream. -/
theorem test_encodeKeep_pairs_E19 :
    encodedPairs (ops0 1 64) mem0 [0x00CCBBAA#32, 0x00605040#32] = [(2, 2), (1, 1), (1, 2)] := by decide +kernel

/-- The pairs of E-0 at 0x2010 and its palette behind them. -/
def mem1 : Memory :=
  [(0x2010, 2), (0x2012, 1), (0x2013, 1), (0x2014, 1), (0x2016, 0x10), (0x2017, 0x20), (0x2018, 0x30), (0x2019, 0x40),
    (0x201A, 0x50), (0x201B, 0x60)]

/-- A replay of three pairs of E-0 over a slice of pl entries at 0x2016. -/
def replay0 (pl : Nat) : Flow :=
  replay 4 3 { running { Operands.idle with srcAddr := 0x2000 } mem1 with
    eng := { Engine.idle with ops := { Operands.idle with srcAddr := 0x2000 }, palBase := 0x2016, pl := pl, strideOut := 3 } }

/-- Vector D-1: the replayed bytes. -/
theorem test_decode_D1 :
    (match replay0 2 with | .ok t => t.eng.out | .raise _ _ => []) =
      [0x10, 0x20, 0x30, 0x10, 0x20, 0x30, 0x40, 0x50, 0x60, 0x10, 0x20, 0x30] := by decide +kernel

/-- Vector D-5: a palette of one entry. -/
theorem test_decode_D5 :
    (match replay0 1 with | .ok _ => (0, 0) | .raise e t => (e.code, t.eng.cursor)) = (10, 6) := by decide +kernel

/-- Vector D-12: DECODE after reset. -/
theorem test_decodeXpal_after_reset : (after .decodeXpal State.reset).status = 0x00000802#32 := by decide +kernel

/-- Section 2.8: VALIDATE after reset. -/
theorem test_validate_after_reset : (after .validate State.reset).status = 0x00000802#32 := by decide +kernel

/-- Vector V-12: 16 + 2P is compared exactly. -/
theorem test_validate_V12 :
    validatorError { Operands.idle with srcLen := 64 }
      { magic := [], version := 0, flags := 2, width := 1, height := 1, pairCount := 0xFFFFFFFF } =
        some .truncatedStream := by decide

/-- Vector H-2: HDR_PARSE of a source of 10 bytes. -/
theorem test_hdrParse_H2 :
    (after .hdrParse (running { Operands.idle with srcLen := 10 } [])).status = 0x00000802#32 := by decide +kernel

/-- Vector H-8: the exact size of the largest image. -/
theorem test_hdrParse_H8 :
    decodedSize { magic := [], version := 0, flags := 2, width := 0xFFFF, height := 0xFFFF, pairCount := 0 } =
      17179344900 := by decide

/-- Section 2.8: HDR_WRITE after reset. -/
theorem test_hdrWrite_after_reset : (after .hdrWrite State.reset).status = 0x00030602#32 := by decide +kernel

/-- The fields HDR_WRITE writes, W = 4, H = 1, FLAGS = 1, PAIR_COUNT = 3 (section 1.1). -/
theorem test_hdrWrite_fields :
    (serializeHeader 4 1 1 3).drop 4 = [1, 0, 0, 0, 4, 0, 1, 0, 3, 0, 0, 0] := by decide

/-- Section 2.8: PAL_CLEAR after reset. -/
theorem test_palClear_after_reset : (after .palClear State.reset).status = 0x00000002#32 := by decide +kernel

/-- Section 2.8: PAL_FIND after reset. -/
theorem test_palFind_after_reset :
    let t := after .palFind State.reset
    t.status = 0x00030002#32 ∧ t.resultLo = 0 ∧ t.palLen = 1 := by decide +kernel

/-- PAL_FIND drops B3 of the colour (spec/43_palette_table.md R192, R195). -/
theorem test_palFind_stores_three_bytes :
    (after .palFind (running { Operands.idle with palColor := 0xFF605040#32 } [])).palette = [0x00605040#32] := by
  decide +kernel

/-- Section 2.8: PAL_FIND.A after reset. -/
theorem test_palFindA_after_reset : (after .palFindA State.reset).status = 0x00040002#32 := by decide +kernel

/-- PAL_FIND.A keeps B3 of the colour (spec/43_palette_table.md R195). -/
theorem test_palFindA_stores_four_bytes :
    (after .palFindA (running { Operands.idle with palColor := 0xFF605040#32 } [])).palette = [0xFF605040#32] := by
  decide +kernel

/-- Section 2.1: an illegal word. -/
theorem test_illegal : (after (.illegal 0x00000201#32) State.reset).status = 0x00000B02#32 := by decide +kernel

/-- PAL_LEN clamps (section 2.4). -/
theorem test_palLen_clamp :
    (writeReg .palLen 0x1FF#32 State.reset).palLen = 256 ∧ (writeReg .palLen 0x305#32 State.reset).palLen = 256 := by
  decide

/-! ### Witnesses for the hypotheses of the statements: encoding, issue, port, reset -/

/-- DecodingRule: a word of no row. -/
theorem test_decodingRule_no_row : ∀ row ∈ opcodeRows, (0x00000008#32 : Word) ≠ row.1 := by decide

/-- IllegalWords: a word for each disjunct, at the edges of the fields. -/
theorem test_illegalWords_each_disjunct :
    decode 0x00000000#32 = .illegal 0x00000000#32 ∧ decode 0x00000008#32 = .illegal 0x00000008#32 ∧
    decode 0x00000401#32 = .illegal 0x00000401#32 ∧ decode 0x80000001#32 = .illegal 0x80000001#32 ∧
    decode 0x00000103#32 = .illegal 0x00000103#32 ∧ decode 0x00000206#32 = .illegal 0x00000206#32 := by decide

/-- DecodeEncode. -/
theorem test_decodeEncode_hypotheses :
    Instr.palFindA.wellFormed = true ∧ (Instr.illegal 0xFFFFFFFF#32).wellFormed = true := by decide

/-- A busy state with n transactions to wait out and the host's transactions h, PAL_CLEAR in CMD. -/
def busy (n : Nat) (h : List HostTxn) : State := { issueFor n 0x00000006#32 State.reset with host := h }

theorem busy_statusBusy (n : Nat) (h : List HostTxn) : statusBusy (busy n h).status = true := by
  show statusBusy statusIssued = true
  decide

/-- An idle state with the host's transactions h. -/
def idle (h : List HostTxn) : State := { State.reset with host := h }

theorem idle_statusBusy (h : List HostTxn) : statusBusy (idle h).status = false := by
  show statusBusy 0 = false
  decide

/-- IllegalWords: an idle engine with an illegal word to issue. -/
theorem test_illegalWords_hypotheses :
    decode 0x00000008#32 = .illegal 0x00000008#32 ∧ statusBusy (idle [.regWrite .word 0 0x00000008]).status = false ∧
      (idle [.regWrite .word 0 0x00000008]).host = .regWrite .word 0 0x00000008 :: [] :=
  ⟨by decide, idle_statusBusy _, rfl⟩

/-- StepRunsDecodedCommand: both clauses. -/
theorem test_stepRunsDecodedCommand_hypotheses :
    (statusBusy (busy 0 [.reset]).status = true ∧ decode (busy 0 [.reset]).cmd = .palClear ∧
      Instr.palClear.wellFormed = true ∧ (busy 0 [.reset]).eng.busyLeft = 0) ∧
    (statusBusy (busy 1 []).status = true ∧ (busy 1 []).host = []) ∧
    ((busy 1 [.reset]).eng.busyLeft ≠ 0 ∧ (busy 1 [.reset]).host = .reset :: []) := by
  refine ⟨⟨busy_statusBusy _ _, ?_, rfl, rfl⟩, ⟨busy_statusBusy _ _, rfl⟩, ⟨?_, rfl⟩⟩
  · show decode 0x00000006#32 = .palClear
    decide
  · show (1 : Nat) ≠ 0
    decide

/-- IssueLatchesOperands. -/
theorem test_issueLatchesOperands_hypotheses :
    statusBusy (idle [.regWrite .word 0 1]).status = false ∧
      (idle [.regWrite .word 0 1]).host = .regWrite .word 0 1 :: [] :=
  ⟨idle_statusBusy _, rfl⟩

/-- CmdWriteWhileBusyIgnored. -/
theorem test_cmdWriteWhileBusy_hypotheses :
    statusBusy (busy 1 [.regWrite .word 0 1]).status = true ∧ (busy 1 [.regWrite .word 0 1]).eng.busyLeft ≠ 0 ∧
      (busy 1 [.regWrite .word 0 1]).host = .regWrite .word 0 1 :: [] :=
  ⟨busy_statusBusy _ _, Nat.one_ne_zero, rfl⟩

/-- A busy state meets the invariant. -/
theorem busy_inv (n : Nat) (h : List HostTxn) : (busy n h).Inv where
  mem_wf := Memory.nil_wf
  status_legal := .inr (.inl rfl)
  busy := fun _ => ⟨rfl, rfl, rfl, rfl⟩
  idle := fun hs => by rw [busy_statusBusy] at hs; cases hs

/-- AccessWhileBusy: a write and a read at the first, the named and the last offsets. -/
theorem test_accessWhileBusy_hypotheses :
    ∀ off ∈ ([0x000, 0x004, 0x02C, 0x030, 0x03C, 0x7FC] : List (BitVec 11)),
      off.toNat % 4 = 0 ∧
      (busy 1 [.regWrite .word off 5]).Inv ∧ statusBusy (busy 1 [.regWrite .word off 5]).status = true ∧
      (busy 1 [.regWrite .word off 5]).eng.busyLeft ≠ 0 ∧
      (busy 1 [.regRead .word off]).Inv ∧ statusBusy (busy 1 [.regRead .word off]).status = true ∧
      (busy 1 [.regRead .word off]).eng.busyLeft ≠ 0 := by
  have h : ∀ off ∈ ([0x000, 0x004, 0x02C, 0x030, 0x03C, 0x7FC] : List (BitVec 11)), off.toNat % 4 = 0 := by simp
  exact fun off ho => ⟨h off ho, busy_inv _ _, busy_statusBusy _ _, Nat.one_ne_zero, busy_inv _ _,
    busy_statusBusy _ _, Nat.one_ne_zero⟩

/-- IdleRead and IdleWrite: the first and the last unlisted offsets. -/
theorem test_idleAccess_hypotheses :
    statusBusy (idle []).status = false ∧
    ∀ off ∈ ([0x040, 0x3FC] : List (BitVec 11)), off.toNat % 4 = 0 ∧ 0x040 ≤ off.toNat ∧ off.toNat < 0x400 :=
  ⟨idle_statusBusy _, by simp⟩

/-- AccessOutsideContractRefused: each width and misalignment, busy and idle. -/
theorem test_accessOutsideContract_hypotheses :
    ((PortWidth.byte = .byte ∨ PortWidth.byte = .half ∨ (0 : BitVec 11).toNat % 4 ≠ 0) ∧
      (PortWidth.half = .byte ∨ PortWidth.half = .half ∨ (0 : BitVec 11).toNat % 4 ≠ 0) ∧
      (PortWidth.word = .byte ∨ PortWidth.word = .half ∨ (0x7FD : BitVec 11).toNat % 4 ≠ 0)) ∧
    (statusBusy (busy 1 [.regRead .byte 0]).status = true → (busy 1 [.regRead .byte 0]).eng.busyLeft ≠ 0) ∧
    (statusBusy (idle [.regWrite .byte 0 1]).status = true → (idle [.regWrite .byte 0 1]).eng.busyLeft ≠ 0) ∧
    (busy 1 [.regRead .byte 0]).host = .regRead .byte 0 :: [] ∧
    (idle [.regWrite .byte 0 1]).host = .regWrite .byte 0 1 :: [] :=
  ⟨by decide, fun _ => Nat.one_ne_zero, fun h => absurd ((idle_statusBusy _).symm.trans h) (by decide), rfl, rfl⟩

/-- IdleKeepsRegisters: each clause. -/
theorem test_idleKeepsRegisters_hypotheses :
    (statusBusy (idle []).status = false ∧ (idle []).host = []) ∧
    ((idle [.memWrite 0xFFFFFFFF 1]).mem.wf ∧ (idle [.memWrite 0xFFFFFFFF 1]).host = .memWrite 0xFFFFFFFF 1 :: []) ∧
    (idle [.memRead 0]).host = .memRead 0 :: [] :=
  ⟨⟨idle_statusBusy _, rfl⟩, ⟨Memory.nil_wf, rfl⟩, rfl⟩

/-- CommandsFinish. -/
theorem test_commandsFinish_hypotheses :
    statusBusy (busy 2 [.regRead .word 4, .memRead 0]).status = true ∧
      ∀ t ∈ (busy 2 [.regRead .word 4, .memRead 0]).host, t.inContract = true :=
  ⟨busy_statusBusy _ _, by
    show ∀ t ∈ [HostTxn.regRead .word 4, .memRead 0], t.inContract = true
    decide⟩

/-- PolledCommandIsOneTransition. -/
theorem test_polledCommand_hypotheses :
    statusBusy (busy 2 (List.replicate 3 (.regRead .word 4))).status = true ∧
      (busy 2 (List.replicate 3 (.regRead .word 4))).host = List.replicate 3 (.regRead .word 4) :=
  ⟨busy_statusBusy _ _, rfl⟩

/-- ResetEvent: idle, and busy with a destination of two bytes and an address just behind it. -/
theorem test_resetEvent_hypotheses :
    (statusBusy (idle [.reset]).status = false ∧ (idle [.reset]).host = .reset :: []) ∧
    (statusBusy (busy 1 [.reset]).status = true ∧ (busy 1 [.reset]).eng.busyLeft ≠ 0 ∧
      (busy 1 [.reset]).host = .reset :: []) ∧
    (2#32 : Word).toNat ≤ (0x2002#32 - 0x2000#32 : Word).toNat :=
  ⟨⟨idle_statusBusy _, rfl⟩, ⟨busy_statusBusy _ _, Nat.one_ne_zero, rfl⟩, by decide⟩

/-- StepKeepsInvariant: a served read, and a command that completes. -/
theorem test_stepKeepsInvariant_hypotheses :
    ((busy 1 [.memWrite 7 7]).Inv ∧ ∃ t, step (busy 1 [.memWrite 7 7]) = .next t) ∧
    ((busy 0 []).Inv ∧ ∃ t, step (busy 0 []) = .next t) := by
  refine ⟨⟨busy_inv _ _, ?_⟩, busy_inv _ _, ?_⟩
  · rw [step_serveBusy (busy_statusBusy _ _) Nat.one_ne_zero rfl]
    exact ⟨_, rfl⟩
  · rw [step_exec (busy_statusBusy _ _) (.inl rfl)]
    obtain ⟨t, h, -⟩ := exec_completes (decode (busy 0 []).cmd) (busy 0 [])
    exact ⟨t, h⟩

/-- MemoryOutsideDestinationKept: an address just behind a destination that ends at 2^32 - 1, a command that stores
nothing. -/
theorem test_memoryOutside_hypotheses :
    (0x10#32 : Word).toNat ≤ (0#32 - 0xFFFFFFF0#32 : Word).toNat ∧ Instr.validate ≠ .encode ∧
      Instr.validate ≠ .encodeKeep ∧ Instr.validate ≠ .decode ∧ Instr.validate ≠ .decodeXpal ∧
      Instr.validate ≠ .hdrWrite := by decide

/-- RegistersACommandMayWrite: HDR_WRITE is outside every list, ENCODE outside the header's. -/
theorem test_registersMayWrite_hypotheses :
    (∀ i ∈ [Instr.hdrParse, .validate, .decode, .decodeXpal, .encode, .encodeKeep, .palClear, .palFind, .palFindA],
      Instr.hdrWrite ≠ i) ∧
    ∀ i ∈ [Instr.hdrParse, .validate, .decode, .decodeXpal], Instr.encode ≠ i := by decide

/-- EarlierResultsDoNotMatter. -/
theorem test_earlierResults_hypotheses :
    ({ State.reset.eng with runLen := 9 }).ops = State.reset.eng.ops ∧
      ({ State.reset.eng with runLen := 9 }).disturbed = State.reset.eng.disturbed := ⟨rfl, rfl⟩

/-- WrittenBytesReadBack: a write that wraps at 2^32 - 1, and an address just behind it. -/
theorem test_writtenBytes_hypotheses :
    Memory.wf [] ∧ ([1, 0, 3] : List Byte).length ≤ 4294967296 ∧
      ([1, 0, 3] : List Byte).length ≤ (2#32 - 0xFFFFFFFF#32 : Word).toNat := by decide

/-! ### Witnesses: the palette table -/

/-- A full or part-full table of one colour, 5 at index j, looked up for colour c. -/
def table (len : Fin 257) (j : Fin 256) (c : Word) : State :=
  { running { Operands.idle with palColor := c } [] with pal := (Vector.replicate 256 0).set j.val 5, palLen := len }

theorem table_palEntry (len : Fin 257) (j : Fin 256) (c : Word) (k : Nat) :
    (table len j c).palEntry k = if j.val = k then 5 else 0 := by
  have := j.isLt
  simp only [State.palEntry, table, running, Vector.getElem?_set, Vector.getElem?_replicate]
  split
  · rfl
  · split <;> rfl

/-- PalFind and PalFindA: a hit at index 0 and at index 255, a miss in a table of 0, of 255 and of 256 entries. -/
theorem test_palFind_hypotheses :
    (0 < (table 1 0 5).palLen.val ∧ (table 1 0 5).palEntry 0 = 5) ∧
    (255 < (table 256 255 5).palLen.val ∧ (table 256 255 5).palEntry 255 = 5 ∧
      ∀ k, k < 255 → (table 256 255 5).palEntry k &&& 0x00FFFFFF#32 ≠ 5 ∧ (table 256 255 5).palEntry k ≠ 5) ∧
    ∀ len ∈ ([0, 255, 256] : List (Fin 257)), (table len 0 7).palLen = len ∧
      ∀ j, j < len.val → (table len 0 7).palEntry j &&& 0x00FFFFFF#32 ≠ 7 ∧ (table len 0 7).palEntry j ≠ 7 := by
  refine ⟨⟨by decide, by rw [table_palEntry]; rfl⟩, ⟨by decide, by rw [table_palEntry]; rfl, fun k hk => ?_⟩,
    fun len _ => ⟨rfl, fun j _ => ?_⟩⟩
  · rw [table_palEntry, if_neg (by show ¬ (255 = k); omega)]
    decide
  · rw [table_palEntry]
    split <;> decide

/-- PaletteEntriesStayDistinct: two entries that differ on three bytes. -/
theorem test_paletteDistinct_hypotheses :
    ((table 2 0 7).palette.map (colorBytes 3)).Nodup ∧ ((table 2 0 7).palette.map (colorBytes 4)).Nodup := by
  decide +kernel

/-! ### Witnesses: the header codec and the validator -/

/-- The bytes bs at 0x2000, len of them the source, cap bytes at 0x3000 the destination. -/
def stream (bs : List Byte) (len cap : Word) : State :=
  running { Operands.idle with srcAddr := 0x2000, srcLen := len, dstAddr := 0x3000, dstCap := cap }
    (Memory.writeBytes [] 0x2000 bs)

theorem stream_wf (bs : List Byte) (len cap : Word) : (stream bs len cap).mem.wf :=
  Memory.writeBytes_wf Memory.nil_wf _ _

theorem stream_bytes (bs : List Byte) (len cap : Word) (h : bs.length ≤ 4294967296) :
    (stream bs len cap).mem.readBytes 0x2000 bs.length = bs :=
  Memory.readBytes_writeBytes Memory.nil_wf _ _ h

/-- The header of a stream is that of its first 16 bytes. -/
theorem stream_header (hb rest : List Byte) (len cap : Word) (h : hb.length = 16) (hr : rest.length ≤ 1024) :
    readHeader (stream (hb ++ rest) len cap).eng.ops (stream (hb ++ rest) len cap).mem = headerOfBytes hb := by
  have hl : (hb ++ rest).length = 16 + rest.length := by rw [List.length_append, h]
  have hb' := stream_bytes (hb ++ rest) len cap (by omega)
  have h1 := Memory.readBytes_slice (stream (hb ++ rest) len cap).mem 0x2000 (hb ++ rest).length 0 16 (by omega)
  rw [hb', List.drop_zero, List.take_left' h] at h1
  have h2 : (stream (hb ++ rest) len cap).mem.readBytes 0x2000 16 = hb := h1.symm
  exact congrArg headerOfBytes h2

/-- A source below 2^32 keeps the host's duties. -/
theorem stream_sourceReady (bs : List Byte) (len cap : Word) (h : len.toNat ≤ 4294959104) :
    SourceReady (stream bs len cap) :=
  ⟨by show 0x2000 + len.toNat ≤ 4294967296; omega, rfl⟩

/-- A header with the magic bytes m and the version v in front of the given fields. -/
def headerBytes (m : List Byte) (v : Byte) (w h : BitVec 16) (f p : Word) : List Byte :=
  m ++ [v] ++ le32 f ++ le16 w ++ le16 h ++ le32 p

/-- PIE_MAGIC with M0 changed (vector H-3). -/
def badMagic : List Byte := [Config.magic0 + 1, Config.magic1, Config.magic2]

theorem badMagic_ne : badMagic ≠ Config.pieMagic := by
  intro h
  have h0 : Config.magic0 + 1 = Config.magic0 := (List.cons.inj h).1
  have := congrArg BitVec.toNat h0
  rw [BitVec.toNat_add] at this
  have := Config.magic0.isLt
  have : (1 : Byte).toNat = 1 := rfl
  omega

theorem badVersion_ne : Config.pieVersion + 1 ≠ Config.pieVersion := by
  intro h0
  have := congrArg BitVec.toNat h0
  rw [BitVec.toNat_add] at this
  have := Config.pieVersion.isLt
  have : (1 : Byte).toNat = 1 := rfl
  omega

theorem headerOfBytes_headerBytes {m : List Byte} (hm : m.length = 3) (v : Byte) (w h : BitVec 16) (f p : Word) :
    headerOfBytes (headerBytes m v w h f p) =
      { magic := m, version := v, flags := f, width := w, height := h, pairCount := p } := by
  obtain ⟨a, b, c, rfl⟩ := List.length_eq_three.1 hm
  have h1 : ((headerBytes [a, b, c] v w h f p).drop 4).take 4 = le32 f := rfl
  have h2 : ((headerBytes [a, b, c] v w h f p).drop 8).take 2 = le16 w := rfl
  have h3 : ((headerBytes [a, b, c] v w h f p).drop 10).take 2 = le16 h := rfl
  have h4 : ((headerBytes [a, b, c] v w h f p).drop 12).take 4 = le32 p := rfl
  rw [headerOfBytes, h1, h2, h3, h4, ofNat_fromLE_le32, ofNat_fromLE_le16, ofNat_fromLE_le16, ofNat_fromLE_le32]
  rfl

/-- A stream of a header and a rest, and what is read as its header. -/
theorem headerBytes_header {m : List Byte} (hm : m.length = 3) (v : Byte) (w h : BitVec 16) (f p : Word)
    (rest : List Byte) (hr : rest.length ≤ 1024) (len cap : Word) :
    readHeader (stream (headerBytes m v w h f p ++ rest) len cap).eng.ops
        (stream (headerBytes m v w h f p ++ rest) len cap).mem =
      { magic := m, version := v, flags := f, width := w, height := h, pairCount := p } := by
  rw [stream_header _ _ _ _ (by simp [headerBytes, hm]) hr, headerOfBytes_headerBytes hm]

/-- HdrParseGivesFieldsAndSize: reserved flags, a pair count of 0, the smallest width and the largest height. -/
theorem test_hdrParseGives_hypotheses :
    let s := stream (serializeHeader 1 0xFFFF 0xFFFFFFFF 0) 16 0
    SourceReady s ∧ 16 ≤ s.eng.ops.srcLen.toNat ∧ (1 : BitVec 16) ≠ 0 ∧ (0xFFFF : BitVec 16) ≠ 0 ∧
      s.mem.readBytes s.eng.ops.srcAddr 16 = serializeHeader 1 0xFFFF 0xFFFFFFFF 0 :=
  ⟨stream_sourceReady _ _ _ (by decide), Nat.le_refl 16, by decide, by decide,
    stream_bytes (serializeHeader 1 0xFFFF 0xFFFFFFFF 0) 16 0 (by simp)⟩

/-- The check numbers of the statement HdrParseChecksInOrder. -/
def headerChecks (h : Header) : Nat :=
  if h.magic ≠ Config.pieMagic then 1
  else if h.version ≠ Config.pieVersion then 2
  else if h.width = 0 ∨ h.height = 0 then 3
  else 0

/-- The check numbers of the statement ValidateChecksInOrder. -/
def validateChecks (n : Nat) (h : Header) : Nat :=
  if h.magic ≠ Config.pieMagic then 1
  else if h.version ≠ Config.pieVersion then 2
  else if h.width = 0 ∨ h.height = 0 then 3
  else if h.flags.extractLsb' 2 30 ≠ 0 then 4
  else if h.pairCount = 0 then 9
  else if n < 16 + 2 * h.pairCount.toNat then 8
  else if h.flags.getLsbD 0 = true ∧ n < 16 + 2 * h.pairCount.toNat + (3 + (h.flags.getLsbD 1).toNat) then 8
  else 0

/-- A source of len bytes whose header meets a property. -/
def ReadsHeader (len : Word) (P : Header → Prop) : Prop :=
  ∃ s h, SourceReady s ∧ 16 ≤ s.eng.ops.srcLen.toNat ∧ s.eng.ops.srcLen = len ∧
    h = readHeader s.eng.ops s.mem ∧ P h

theorem readsHeader {m : List Byte} (hm : m.length = 3) (v : Byte) (w h : BitVec 16) (f p len : Word)
    (hl : 16 ≤ len.toNat) (hl' : len.toNat ≤ 4294959104) (P : Header → Prop)
    (hP : P { magic := m, version := v, flags := f, width := w, height := h, pairCount := p }) :
    ReadsHeader len P := by
  refine ⟨stream (headerBytes m v w h f p ++ []) len 0, _, stream_sourceReady _ _ _ hl', hl, rfl, rfl, ?_⟩
  rw [headerBytes_header hm v w h f p [] (by simp) len 0]
  exact hP

/-- HdrParseChecksInOrder: a source of 15 bytes, and each failing check at SRC_LEN = 16 (vectors H-2 to H-5). -/
theorem test_hdrParseChecks_hypotheses :
    (stream [] 15 0).eng.ops.srcLen.toNat < 16 ∧ ReadsHeader 16 (headerChecks · = 1) ∧
      ReadsHeader 16 (headerChecks · = 2) ∧ ReadsHeader 16 (headerChecks · = 3) := by
  refine ⟨by decide, ?_, ?_, ?_⟩
  · exact readsHeader (m := badMagic) rfl 0 0 0 4 0 16 (by decide) (by decide) _ (if_pos badMagic_ne)
  · exact readsHeader (m := Config.pieMagic) rfl (Config.pieVersion + 1) 0 0 4 0 16 (by decide) (by decide) _
      (by rw [headerChecks, if_neg (fun h => h rfl), if_pos badVersion_ne])
  · exact readsHeader (m := Config.pieMagic) rfl Config.pieVersion 0 1 4 0 16 (by decide) (by decide) _
      (by rw [headerChecks, if_neg (fun h => h rfl), if_neg (fun h => h rfl), if_pos (.inl rfl)])

theorem four_ne : (4 : BitVec 16) ≠ 0 := by decide

theorem one_ne : (1 : BitVec 16) ≠ 0 := by decide

/-- The checks of a header with the right magic and version and dimensions that are not 0. -/
theorem validateChecks_of_header (n : Nat) (f p : Word) :
    validateChecks n
      { magic := Config.pieMagic, version := Config.pieVersion, flags := f, width := 4, height := 1,
        pairCount := p } =
    (if f.extractLsb' 2 30 ≠ 0 then 4
      else if p = 0 then 9
      else if n < 16 + 2 * p.toNat then 8
      else if f.getLsbD 0 = true ∧ n < 16 + 2 * p.toNat + (3 + (f.getLsbD 1).toNat) then 8
      else 0) := by
  rw [validateChecks, if_neg (fun h => h rfl), if_neg (fun h => h rfl),
    if_neg (not_or.2 ⟨four_ne, one_ne⟩)]

/-- ValidateChecksInOrder: a source of 15 bytes, and each failing check, the sizes one byte short (vectors V-2 to
V-10). -/
theorem test_validateChecks_hypotheses :
    (stream [] 15 0).eng.ops.srcLen.toNat < 16 ∧ ReadsHeader 16 (validateChecks 16 · = 1) ∧
      ReadsHeader 16 (validateChecks 16 · = 2) ∧ ReadsHeader 16 (validateChecks 16 · = 3) ∧
      ReadsHeader 16 (validateChecks 16 · = 4) ∧ ReadsHeader 16 (validateChecks 16 · = 9) ∧
      ReadsHeader 21 (validateChecks 21 · = 8) ∧ ReadsHeader 24 (validateChecks 24 · = 8) := by
  refine ⟨by decide, ?_, ?_, ?_, ?_, ?_, ?_, ?_⟩
  · exact readsHeader (m := badMagic) rfl 0 0 0 4 0 16 (by decide) (by decide) _ (if_pos badMagic_ne)
  · exact readsHeader (m := Config.pieMagic) rfl (Config.pieVersion + 1) 0 0 4 0 16 (by decide) (by decide) _
      (by rw [validateChecks, if_neg (fun h => h rfl), if_pos badVersion_ne])
  · exact readsHeader (m := Config.pieMagic) rfl Config.pieVersion 0 1 4 0 16 (by decide) (by decide) _
      (by rw [validateChecks, if_neg (fun h => h rfl), if_neg (fun h => h rfl), if_pos (.inl rfl)])
  · exact readsHeader (m := Config.pieMagic) rfl Config.pieVersion 4 1 5 3 16 (by decide) (by decide) _
      ((validateChecks_of_header 16 5 3).trans (by decide))
  · exact readsHeader (m := Config.pieMagic) rfl Config.pieVersion 4 1 1 0 16 (by decide) (by decide) _
      ((validateChecks_of_header 16 1 0).trans (by decide))
  · exact readsHeader (m := Config.pieMagic) rfl Config.pieVersion 4 1 1 3 21 (by decide) (by decide) _
      ((validateChecks_of_header 21 1 3).trans (by decide))
  · exact readsHeader (m := Config.pieMagic) rfl Config.pieVersion 4 1 1 3 24 (by decide) (by decide) _
      ((validateChecks_of_header 24 1 3).trans (by decide))

/-- HDR_WRITE of vector W-1 with flags f into cap bytes at 0x3000. -/
def writes (f cap : Word) : State :=
  running { Operands.idle with dstAddr := 0x3000, dstCap := cap, dim := 0x00020003, flags := f, pairCount := 4 } []

theorem writes_destReady (f : Word) {cap : Word} (h : cap.toNat ≤ 4096) : DestReady (writes f cap) :=
  ⟨by show 0x3000 + cap.toNat ≤ 4294967296; omega, rfl⟩

/-- HdrWriteWritesTheHeader. -/
theorem test_hdrWriteWrites_hypotheses :
    DestReady (writes 2 16) ∧ (writes 2 16).mem.wf ∧ reservedFlags (writes 2 16).eng.ops.flags = 0 ∧
      16 ≤ (writes 2 16).eng.ops.dstCap.toNat :=
  ⟨writes_destReady _ (by decide), Memory.nil_wf, by decide, by decide⟩

/-- HdrWriteRefusals: vectors W-3 and W-2. -/
theorem test_hdrWriteRefusals_hypotheses :
    reservedFlags (writes 6 16).eng.ops.flags ≠ 0 ∧
      reservedFlags (writes 2 15).eng.ops.flags = 0 ∧ (writes 2 15).eng.ops.dstCap.toNat < 16 := by decide

/-- HeaderRoundTrip. -/
theorem test_headerRoundTrip_hypotheses :
    ∃ s t u : State, DestReady s ∧ s.mem.wf ∧ reservedFlags s.eng.ops.flags = 0 ∧ 16 ≤ s.eng.ops.dstCap.toNat ∧
      dimWidth s.eng.ops.dim ≠ 0 ∧ dimHeight s.eng.ops.dim ≠ 0 ∧ exec .hdrWrite s = .next t ∧ u.mem = t.mem ∧
      u.eng.ops.srcAddr = s.eng.ops.dstAddr ∧ 16 ≤ u.eng.ops.srcLen.toNat ∧ SourceReady u := by
  obtain ⟨t, ht, -⟩ := exec_completes .hdrWrite (writes 2 16)
  exact ⟨writes 2 16, t, running { Operands.idle with srcAddr := 0x3000, srcLen := 16 } t.mem,
    writes_destReady _ (by decide), Memory.nil_wf, by decide, by decide, by decide, by decide, ht, rfl, rfl, Nat.le_refl 16,
    by show 0x3000 + 16 ≤ 4294967296; decide, rfl⟩

/-- ValidateAccepts: with the palette embedded and without, SRC_LEN the least that is accepted (vector V-5). -/
theorem test_validateAccepts_hypotheses :
    ∀ f len : Word, (f = 0 ∧ len = 22) ∨ (f = 1 ∧ len = 25) →
      ∃ s, SourceReady s ∧ StreamValid s.eng.ops s.mem ∧ s.eng.ops.srcLen = len ∧
        (readHeader s.eng.ops s.mem).flags = f := by
  intro f len h
  refine ⟨stream (headerBytes Config.pieMagic Config.pieVersion 4 1 f 3 ++ []) len 0,
    stream_sourceReady _ _ _ (by rcases h with ⟨-, rfl⟩ | ⟨-, rfl⟩ <;> decide), ⟨?_, ?_, ?_⟩, rfl, ?_⟩
  · show 16 ≤ len.toNat
    rcases h with ⟨-, rfl⟩ | ⟨-, rfl⟩ <;> decide
  · rw [headerBytes_header rfl _ _ _ _ _ _ (by simp)]
    exact headerError_eq_none rfl rfl four_ne one_ne
  · rw [headerBytes_header rfl _ _ _ _ _ _ (by simp)]
    rcases h with ⟨rfl, rfl⟩ | ⟨rfl, rfl⟩
    · rfl
    · rfl
  · rw [headerBytes_header rfl _ _ _ _ _ _ (by simp)]

/-! ### Witnesses: the encoder -/

theorem starts0 (f cap : Word) (hf : f = 0 ∨ f = 1) (h : cap.toNat ≤ 4096) : EncodeStarts (running (ops0 f cap) mem0) := by
  have hp : (running (ops0 f cap) mem0).eng.ops.pixels = 4 := by
    show pixelCount (dimWidth 0x00010004#32) (dimHeight 0x00010004#32) = 4
    decide
  have hs : strideOf (running (ops0 f cap) mem0).eng.ops.flags = 3 ∧
      reservedFlags (running (ops0 f cap) mem0).eng.ops.flags = 0 := by
    show strideOf f = 3 ∧ reservedFlags f = 0
    rcases hf with rfl | rfl <;> decide
  have hd : dimWidth 0x00010004#32 ≠ 0 ∧ dimHeight 0x00010004#32 ≠ 0 := by decide
  refine ⟨hs.2, hd.1, hd.2, ⟨?_, ?_, .inr (.inr (.inr ?_))⟩, rfl, ?_⟩
  · rw [hp, hs.1]
    show 0x1000 + 12 ≤ 4294967296
    decide
  · show 0x2000 + cap.toNat ≤ 4294967296
    omega
  · rw [hp, hs.1]
    show 0x1000 + 12 ≤ 0x2000
    decide
  · show mem0.wf
    decide

/-- The statements on a successful ENCODE: E-0 into exactly its 28 bytes. -/
theorem test_encodeReady_E0 : EncodeReady (running (ops0 1 28) mem0) [] where
  toEncodeStarts := starts0 1 28 (.inr rfl) (by decide)
  colors := by decide +kernel
  room := by decide +kernel

/-- E-19: the table pre-seeded with two entries. -/
def seeded (cap : Word) : State :=
  { running (ops0 1 cap) mem0 with
    pal := (Vector.replicate 256 0).set 0 0x00CCBBAA#32 |>.set 1 0x00605040#32, palLen := 2 }

/-- The statements on a successful ENCODE.KEEP: E-19 into exactly its 31 bytes. -/
theorem test_encodeReady_E19 : EncodeReady (seeded 31) (seeded 31).palette where
  toEncodeStarts :=
    have h := starts0 1 31 (.inr rfl) (by decide)
    ⟨h.flags, h.width, h.height, h.duties, rfl, h.mem_wf⟩
  colors := by decide +kernel
  room := by decide +kernel

/-- An image of one colour with dimensions d, FLAGS = 0, and room for two pairs. -/
def blank (d : Word) : State :=
  running { Operands.idle with srcAddr := 0x1000, dstAddr := 0x2000, dstCap := 20, dim := d } []

/-- Memory that nothing has written reads 0, and so does each pixel of it. -/
theorem blank_pixel (d : Word) (i : Nat) : pixelAt (blank d).eng.ops (blank d).mem i = 0 := by
  have h : strideOf (blank d).eng.ops.flags = 3 := by
    show strideOf 0#32 = 3
    decide
  rw [pixelAt, h]
  show colorOfBytes [unlistedByte, unlistedByte, unlistedByte] = 0
  decide

/-- The palette of n pixels of one colour. -/
theorem growPalette_replicate {st : Nat} (hst : st = 3 ∨ st = 4) (pal : List Word) (c : Word) (n : Nat) :
    growPalette st pal (List.replicate (n + 1) c) = offerColor st pal c := by
  induction n with
  | zero => rfl
  | succ n ih =>
    show growPalette st (offerColor st pal c) (List.replicate (n + 1) c) = _
    cases n with
    | zero => exact offerColor_idem hst pal c
    | succ n =>
      show growPalette st (offerColor st (offerColor st pal c) c) (List.replicate (n + 1) c) = _
      rw [offerColor_idem hst]
      exact ih

/-- UniformImage: 1, 255 and 256 pixels, the last run of 1, 255 and 1 (vectors E-1 to E-3). -/
theorem test_uniformImage_hypotheses :
    ∀ d ∈ [0x00010001#32, 0x0011000F#32, 0x00100010#32],
      (∀ i, i < (blank d).eng.ops.pixels →
        pixelAt (blank d).eng.ops (blank d).mem i = pixelAt (blank d).eng.ops (blank d).mem 0) ∧
      EncodeReady (blank d) [] ∧ EncodeReady (blank d) (blank d).palette := by
  intro d hd
  have hc : ∀ d ∈ [0x00010001#32, 0x0011000F#32, 0x00100010#32],
      dimWidth d ≠ 0 ∧ dimHeight d ≠ 0 ∧ pixelCount (dimWidth d) (dimHeight d) ∈ [1, 255, 256] := by
    intro d hd
    simp only [List.mem_cons, List.not_mem_nil, or_false] at hd
    rcases hd with rfl | rfl | rfl <;> decide
  obtain ⟨h2, h3, h4⟩ := hc d hd
  have hpix : (blank d).eng.ops.pixels ∈ [1, 255, 256] := h4
  obtain ⟨n, hn⟩ : ∃ n, (blank d).eng.ops.pixels = n + 1 := ⟨(blank d).eng.ops.pixels - 1, by
    have := pixels_pos (o := (blank d).eng.ops) h2 h3
    omega⟩
  have him : imagePixels (blank d).eng.ops (blank d).mem = List.replicate (n + 1) 0 := by
    rw [imagePixels, hn, List.eq_replicate_iff]
    refine ⟨by simp, fun b hb => ?_⟩
    obtain ⟨i, -, rfl⟩ := List.mem_map.1 hb
    exact blank_pixel d i
  have hpal : encodedPalette (blank d).eng.ops (blank d).mem [] = [0] := by
    rw [encodedPalette, him, growPalette_replicate (strideOf_cases _)]
    show offerColor (strideOf 0#32) [] 0 = [0]
    decide
  have hpairs : (encodedPairs (blank d).eng.ops (blank d).mem []).length ≤ 2 := by
    rw [encodedPairs, List.length_map, him, List.replicate_succ, splitRuns, runsFrom_replicate _ _ _ (by omega) (by omega),
      List.length_append, List.length_replicate, List.length_singleton]
    simp only [List.mem_cons, List.not_mem_nil, or_false] at hpix
    omega
  have hready : EncodeReady (blank d) [] := by
    simp only [List.mem_cons, List.not_mem_nil, or_false] at hpix
    have hf : strideOf (blank d).eng.ops.flags = 3 ∧ reservedFlags (blank d).eng.ops.flags = 0 := by
      show strideOf 0#32 = 3 ∧ reservedFlags 0#32 = 0
      decide
    refine ⟨⟨hf.2, h2, h3, ⟨?_, ?_, .inr (.inr (.inr ?_))⟩, rfl, Memory.nil_wf⟩, by rw [hpal]; decide, ?_⟩
    · rw [hf.1]
      show 0x1000 + (blank d).eng.ops.pixels * 3 ≤ 4294967296
      omega
    · show 0x2000 + 20 ≤ 4294967296
      decide
    · rw [hf.1]
      show 0x1000 + (blank d).eng.ops.pixels * 3 ≤ 0x2000
      omega
    · rw [encodedLength, if_neg (by show ¬ embedBit 0 = true; decide)]
      show _ ≤ 20
      omega
  exact ⟨fun i _ => (blank_pixel d i).trans (blank_pixel d 0).symm, hready, hready⟩

/-- EncodeChecksInOrder: E-15, E-16, a height of 0, and a destination of 15 bytes. -/
theorem test_encodeChecks_hypotheses :
    reservedFlags (running (ops0 4 64) mem0).eng.ops.flags ≠ 0 ∧
    (reservedFlags (blank 0x00010000).eng.ops.flags = 0 ∧ dimWidth (blank 0x00010000).eng.ops.dim = 0) ∧
    (reservedFlags (blank 0x00000001).eng.ops.flags = 0 ∧ dimHeight (blank 0x00000001).eng.ops.dim = 0) ∧
    (EncodeStarts (running (ops0 1 15) mem0) ∧ (running (ops0 1 15) mem0).eng.ops.dstCap.toNat < 16) :=
  ⟨by decide, by decide, by decide, starts0 1 15 (.inr rfl) (by decide), by decide⟩

/-- CapacityEnforced: E-0 and E-19 into exactly their size and into one byte less, and HDR_WRITE into 16 and 15. -/
theorem test_capacity_hypotheses :
    (EncodeStarts (running (ops0 1 28) mem0) ∧ EncodeStarts (running (ops0 1 27) mem0) ∧
      (encodedPalette (ops0 1 28) mem0 []).length ≤ 256 ∧ encodedLength (ops0 1 28) mem0 [] ≤ 28 ∧
      27 < encodedLength (ops0 1 27) mem0 []) ∧
    (EncodeStarts (seeded 31) ∧ EncodeStarts (seeded 30) ∧
      (encodedPalette (ops0 1 31) mem0 (seeded 31).palette).length ≤ 256 ∧
      encodedLength (ops0 1 31) mem0 (seeded 31).palette ≤ 31 ∧
      30 < encodedLength (ops0 1 30) mem0 (seeded 30).palette) ∧
    (DestReady (writes 2 16) ∧ DestReady (writes 2 15) ∧ reservedFlags (writes 2 16).eng.ops.flags = 0) := by
  have hs := starts0 1 30 (.inr rfl) (by decide)
  exact ⟨⟨starts0 1 28 (.inr rfl) (by decide), starts0 1 27 (.inr rfl) (by decide), by decide +kernel, by decide +kernel, by decide +kernel⟩,
    ⟨test_encodeReady_E19.toEncodeStarts, ⟨hs.flags, hs.width, hs.height, hs.duties, rfl, hs.mem_wf⟩,
      by decide +kernel, by decide +kernel, by decide +kernel⟩,
    writes_destReady _ (by decide), writes_destReady _ (by decide), by decide⟩

/-- ENCODE of the 3-byte colours cs at 0x1000, dimensions d, into 2000 bytes. -/
def image (d : Word) (cs : List Word) : State :=
  running { Operands.idle with srcAddr := 0x1000, dstAddr := 0x2000, dstCap := 2000, dim := d }
    (Memory.writeBytes [] 0x1000 (cs.flatMap (colorBytes 3)))

theorem image_stride (d : Word) (cs : List Word) :
    strideOf (image d cs).eng.ops.flags = 3 ∧ reservedFlags (image d cs).eng.ops.flags = 0 := by
  show strideOf 0#32 = 3 ∧ reservedFlags 0#32 = 0
  decide

theorem length_flatMap_colorBytes (cs : List Word) : (cs.flatMap (colorBytes 3)).length = cs.length * 3 := by
  induction cs with
  | nil => rfl
  | cons c cs ih =>
    rw [List.flatMap_cons, List.length_append, ih, length_colorBytes_of_stride (.inl rfl), List.length_cons]
    omega

/-- The image ENCODE sees is the one laid out. -/
theorem image_pixels {d : Word} {cs : List Word} (hd : (image d cs).eng.ops.pixels = cs.length)
    (hl : cs.length ≤ 1024) (hc : ∀ c ∈ cs, colorOfBytes (colorBytes 3 c) = c) :
    imagePixels (image d cs).eng.ops (image d cs).mem = cs := by
  have hb : (image d cs).mem.readBytes 0x1000 (cs.length * 3) = cs.flatMap (colorBytes 3) := by
    rw [← length_flatMap_colorBytes]
    exact Memory.readBytes_writeBytes Memory.nil_wf _ _ (by rw [length_flatMap_colorBytes]; omega)
  apply List.ext_getElem
  · exact (length_imagePixels _ _).trans hd
  · intro i h1 h2
    have hs := sliceColor_of_palette (.inl rfl) cs h2 hb
    rw [← hc _ (List.getElem_mem h2), ← hs]
    simp only [imagePixels, List.getElem_map, List.getElem_range, pixelAt, (image_stride d cs).1]
    rfl

/-- Different colours are their own first occurrences. -/
theorem firstOccurrences_nodup (acc cs : List Word) (h : (acc ++ cs).Nodup) :
    cs.foldl (fun acc c => if c ∈ acc then acc else acc ++ [c]) acc = acc ++ cs := by
  induction cs generalizing acc with
  | nil => simp
  | cons c cs ih =>
    have hc : c ∉ acc := fun hm => (List.nodup_append.1 h).2.2 c hm c (by simp) rfl
    rw [List.foldl_cons, if_neg hc, ih _ (by simpa using h)]
    simp

/-- ENCODE of different colours keeps them all. -/
theorem image_palette {d : Word} {cs : List Word} (hd : (image d cs).eng.ops.pixels = cs.length)
    (hl : cs.length ≤ 1024) (hc : ∀ c ∈ cs, colorOfBytes (colorBytes 3 c) = c) (hn : cs.Nodup) :
    encodedPalette (image d cs).eng.ops (image d cs).mem [] = cs := by
  have h := growPalette_eq_first (st := 3) [] [] cs hc (by simp)
  have hf : (cs.filter fun c => !([] : List Word).any fun e => sameColor 3 e c) = cs := by simp
  rw [hf, firstOccurrences_nodup [] _ (by simpa using hn)] at h
  rw [encodedPalette, image_pixels hd hl hc, (image_stride d cs).1]
  exact h

/-- The 257 colours of vector E-11: colour i is [i & 0xFF, i >> 8, 0]. -/
theorem colors257 : ∃ cs : List Word, cs.length = 257 ∧ cs.Nodup ∧ ∀ c ∈ cs, colorOfBytes (colorBytes 3 c) = c := by
  refine ⟨(List.range 257).map (BitVec.ofNat 32), by simp, ?_, ?_⟩
  · refine List.Nodup.map_on (fun i hi j hj h => ?_) List.nodup_range
    have := congrArg BitVec.toNat h
    simp only [BitVec.toNat_ofNat] at this
    have := List.mem_range.1 hi
    have := List.mem_range.1 hj
    omega
  · have : ((List.range 257).all fun i =>
        colorOfBytes (colorBytes 3 (BitVec.ofNat 32 i)) == BitVec.ofNat 32 i) = true := by decide +kernel
    intro c hc
    obtain ⟨i, hi, rfl⟩ := List.mem_map.1 hc
    exact eq_of_beq (List.all_eq_true.1 this i hi)

/-- TooManyColors, first clause: E-11. -/
theorem test_tooManyColors_hypotheses :
    ∃ s, EncodeStarts s ∧ 256 < (encodedPalette s.eng.ops s.mem []).length ∧
      16 + 2 * (splitRuns (imagePixels s.eng.ops s.mem)).length ≤ s.eng.ops.dstCap.toNat := by
  obtain ⟨cs, hl, hn, hc⟩ := colors257
  have hp : (image 0x00010101 cs).eng.ops.pixels = 257 := by
    show pixelCount (dimWidth 0x00010101#32) (dimHeight 0x00010101#32) = 257
    decide
  have hd : dimWidth 0x00010101#32 ≠ 0 ∧ dimHeight 0x00010101#32 ≠ 0 := by decide
  have hs := image_stride 0x00010101 cs
  refine ⟨image 0x00010101 cs, ⟨hs.2, hd.1, hd.2, ⟨?_, ?_, .inr (.inr (.inr ?_))⟩, rfl,
    Memory.writeBytes_wf Memory.nil_wf _ _⟩, ?_, ?_⟩
  · rw [hp, hs.1]
    show 0x1000 + 257 * 3 ≤ 4294967296
    decide
  · show 0x2000 + 2000 ≤ 4294967296
    decide
  · rw [hp, hs.1]
    show 0x1000 + 257 * 3 ≤ 0x2000
    decide
  · rw [image_palette (hp.trans hl.symm) (by omega) hc hn, hl]
    decide
  · obtain ⟨-, -, -, h, -⟩ := runsFrom_props (pixelAt (image 0x00010101 cs).eng.ops (image 0x00010101 cs).mem 0) 1
      (pixelsFrom (image 0x00010101 cs).eng.ops (image 0x00010101 cs).mem 1 256) (by omega) (by omega)
    have h2 : (pixelsFrom (image 0x00010101 cs).eng.ops (image 0x00010101 cs).mem 1 256).length = 256 := by
      simp [pixelsFrom]
    rw [splitRuns_imagePixels _ (by rw [hp]; omega), hp]
    show _ ≤ 2000
    rw [h2] at h
    have h3 : 257 - 1 = 256 := rfl
    rw [h3]
    omega

/-- TooManyColors, second clause: a full table of one colour, and one more colour. -/
theorem test_tooManyColors_keep_hypotheses :
    ∃ s, EncodeStarts s ∧ 256 < (encodedPalette s.eng.ops s.mem s.palette).length ∧
      16 + 2 * (splitRuns (imagePixels s.eng.ops s.mem)).length ≤ s.eng.ops.dstCap.toNat := by
  have hb := (test_uniformImage_hypotheses 0x00010001#32 (by simp)).2.1.toEncodeStarts
  exact ⟨{ blank 0x00010001#32 with pal := Vector.replicate 256 7, palLen := 256 },
    ⟨hb.flags, hb.width, hb.height, hb.duties, rfl, hb.mem_wf⟩, by decide +kernel, by decide +kernel⟩

/-- EncodeOutputPassesValidate. -/
theorem test_encodeOutputPassesValidate_hypotheses :
    ∃ s t u : State, EncodeReady s [] ∧ exec .encode s = .next t ∧ u.mem = t.mem ∧
      u.eng.ops.srcAddr = s.eng.ops.dstAddr ∧ u.eng.ops.srcLen = t.resultLo ∧ u.eng.disturbed = false := by
  obtain ⟨t, ht, -⟩ := exec_completes .encode (running (ops0 1 28) mem0)
  exact ⟨_, t, running { Operands.idle with srcAddr := 0x2000, srcLen := t.resultLo } t.mem, test_encodeReady_E0, ht,
    rfl, rfl, rfl, rfl⟩

/-! ### Witnesses: the decoder -/

/-- A stream of three pairs over the palette A B, 4×1 pixels, EMBED = 1; XPAL names the embedded entries. -/
def e0Bytes (ps : List (Nat × Nat)) : List Byte :=
  serializeHeader 4 1 1 (BitVec.ofNat 32 ps.length) ++ ps.flatMap pairBytes ++ [0x10, 0x20, 0x30, 0x40, 0x50, 0x60]

/-- The operands of DECODE of such a stream of len bytes into cap bytes. -/
def decodeOps (len cap : Word) : Operands :=
  { Operands.idle with
    srcAddr := 0x2000, srcLen := len, dstAddr := 0x3000, dstCap := cap, xpalAddr := 0x2016, xpalLen := 2 }

/-- DECODE of such a stream. -/
def decodes (ps : List (Nat × Nat)) (len cap : Word) : State :=
  running (decodeOps len cap) (Memory.writeBytes [] 0x2000 (e0Bytes ps))

/-- The header of such a stream. -/
def e0Header : Header :=
  { magic := Config.pieMagic, version := Config.pieVersion, flags := 1, width := 4, height := 1, pairCount := 3 }

theorem e0_slice : ∀ ext : Bool, selectPalette ext (decodeOps 28 12) e0Header = (0x2016, 2) := by decide +kernel

theorem decodes_read {ps : List (Nat × Nat)} (hl : ps.length = 3) (hps : ∀ p ∈ ps, p.1 < 256 ∧ p.2 < 256)
    (len cap : Word) :
    streamPairs (decodes ps len cap).eng.ops (decodes ps len cap).mem = ps ∧
      readHeader (decodes ps len cap).eng.ops (decodes ps len cap).mem = e0Header := by
  have hlen : (e0Bytes ps).length = 28 := by
    rw [e0Bytes, List.length_append, List.length_append, length_flatMap_pairBytes, hl, length_serializeHeader]
    rfl
  have hb : (decodes ps len cap).mem.readBytes (decodes ps len cap).eng.ops.srcAddr (e0Bytes ps).length = e0Bytes ps :=
    Memory.readBytes_writeBytes Memory.nil_wf _ _ (by omega)
  refine ⟨streamPairs_of_stream hb (by omega) hps, ?_⟩
  have := readHeader_of_stream (o := (decodes ps len cap).eng.ops) (m := (decodes ps len cap).mem)
    (by rw [hb, e0Bytes, List.append_assoc])
  rw [this, hl]
  rfl

theorem decodes_valid {ps : List (Nat × Nat)} (hl : ps.length = 3) (hps : ∀ p ∈ ps, p.1 < 256 ∧ p.2 < 256)
    (cap : Word) : StreamValid (decodes ps 28 cap).eng.ops (decodes ps 28 cap).mem := by
  obtain ⟨-, h⟩ := decodes_read hl hps 28 cap
  refine ⟨by show 16 ≤ 28; decide, ?_, ?_⟩
  · rw [h]
    exact headerError_eq_none rfl rfl (by decide) (by decide)
  · rw [h]
    rfl

theorem decodes_ready (ext : Bool) {ps : List (Nat × Nat)} (hl : ps.length = 3)
    (hps : ∀ p ∈ ps, p.1 < 256 ∧ p.2 < 256) : DecodeReady ext (decodes ps 28 12) := by
  obtain ⟨-, h⟩ := decodes_read hl hps 28 12
  have hsl : (streamSlice ext (decodes ps 28 12).eng.ops (decodes ps 28 12).mem) = (0x2016, 2) := by
    unfold streamSlice
    rw [h]
    exact e0_slice ext
  refine ⟨decodes_valid hl hps 12, ?_, ?_, rfl, Memory.writeBytes_wf Memory.nil_wf _ _⟩
  · rw [h]
    show 4 * 1 * 3 ≤ 12
    decide
  · unfold decodeDuties
    rw [h, hsl]
    refine ⟨by show 0x2000 + 28 ≤ 4294967296; decide, by show 0x3000 + 12 ≤ 4294967296; decide,
      .inr (.inr (.inr (by show 0x2000 + (16 + 2 * 3) ≤ 0x3000; decide))), ?_⟩
    split
    · exact ⟨by show 0x2016 + 2 * 3 ≤ 4294967296; decide,
        .inr (.inr (.inr (by show 0x2016 + 2 * 3 ≤ 0x3000; decide)))⟩
    · intro p hp
      have hp2 := soundPairs_index_lt _ _ _ _ p hp
      rw [hsl] at hp2
      rcases (show p.2 = 0 ∨ p.2 = 1 by simp only at hp2; omega) with h | h <;> rw [h]
      · exact .inr (.inr (.inr (by show 0x2016 + 3 ≤ 0x3000; decide)))
      · exact .inr (.inr (.inr (by show 0x2019 + 3 ≤ 0x3000; decide)))

/-- Whether the pairs of such a stream are sound, said on the pairs. -/
theorem decodes_sound (ext : Bool) {ps : List (Nat × Nat)} (hl : ps.length = 3)
    (hps : ∀ p ∈ ps, p.1 < 256 ∧ p.2 < 256) :
    PairsSound ext (decodes ps 28 12).eng.ops (decodes ps 28 12).mem ↔
      soundPairs 4 2 0 ps = ps ∧ runTotal ps = 4 := by
  obtain ⟨h1, h2⟩ := decodes_read hl hps 28 12
  unfold PairsSound replayedPairs streamPixels streamSlice
  have hs : (selectPalette ext (decodes ps 28 12).eng.ops e0Header).2 = 2 := congrArg Prod.snd (e0_slice ext)
  have hn : pixelCount e0Header.width e0Header.height = 4 := by
    show pixelCount 4 1 = 4
    decide
  rw [h1, h2, hs, hn]

/-- DecodeWritesThePixels and DecodeXpalWritesThePixels: E0 (vectors D-1 and D-2). -/
theorem test_decodeWrites_hypotheses : ∀ ext : Bool,
    DecodeReady ext (decodes [(2, 0), (1, 1), (1, 0)] 28 12) ∧
      PairsSound ext (decodes [(2, 0), (1, 1), (1, 0)] 28 12).eng.ops (decodes [(2, 0), (1, 1), (1, 0)] 28 12).mem :=
  fun ext => ⟨decodes_ready ext rfl (by decide), (decodes_sound ext rfl (by decide)).2 (by decide)⟩

/-- DecodeValidatesFirst: a source of 15 bytes. -/
theorem test_decodeValidatesFirst_hypotheses :
    SourceReady (decodes [] 15 12) ∧ ¬ StreamValid (decodes [] 15 12).eng.ops (decodes [] 15 12).mem :=
  ⟨⟨by show 0x2000 + 15 ≤ 4294967296; decide, rfl⟩, fun h => absurd h.length (by show ¬ 16 ≤ 15; decide)⟩

/-- DestinationTooSmall: one byte short (vector D-3). -/
theorem test_destinationTooSmall_hypotheses :
    let s := decodes [(2, 0), (1, 1), (1, 0)] 28 11
    SourceReady s ∧ StreamValid s.eng.ops s.mem ∧ s.eng.ops.dstCap.toNat < decodedSize (readHeader s.eng.ops s.mem) := by
  refine ⟨⟨by show 0x2000 + 28 ≤ 4294967296; decide, rfl⟩, decodes_valid rfl (by decide) 11, ?_⟩
  rw [(decodes_read rfl (by decide) 28 11).2]
  show 11 < 4 * 1 * 3
  decide

/-- CorruptStream: a run of 0 at the first pair and later, an index of 2, runs that pass 4 and runs that sum to 3
(vectors D-6 to D-9). -/
theorem test_corruptStream_hypotheses :
    ∀ ext : Bool, ∀ ps ∈ ([[(0, 0), (1, 1), (1, 0)], [(2, 0), (0, 1), (1, 0)], [(2, 0), (1, 2), (1, 0)],
        [(2, 0), (2, 1), (1, 0)], [(1, 0), (1, 1), (1, 0)]] : List (List (Nat × Nat))),
      DecodeReady ext (decodes ps 28 12) ∧
        ¬ PairsSound ext (decodes ps 28 12).eng.ops (decodes ps 28 12).mem := by
  intro ext ps hps
  have h : ∀ ps ∈ ([[(0, 0), (1, 1), (1, 0)], [(2, 0), (0, 1), (1, 0)], [(2, 0), (1, 2), (1, 0)],
      [(2, 0), (2, 1), (1, 0)], [(1, 0), (1, 1), (1, 0)]] : List (List (Nat × Nat))),
      ps.length = 3 ∧ (∀ p ∈ ps, p.1 < 256 ∧ p.2 < 256) ∧ ¬ (soundPairs 4 2 0 ps = ps ∧ runTotal ps = 4) := by decide
  obtain ⟨h1, h2, h3⟩ := h ps hps
  exact ⟨decodes_ready ext h1 h2, fun hs => h3 ((decodes_sound ext h1 h2).1 hs)⟩

/-- EmbeddedAndExternalAgree. -/
theorem test_embeddedAndExternal_hypotheses :
    let s := decodes [(2, 0), (1, 1), (1, 0)] 28 12
    DecodeReady false s ∧ DecodeReady true s ∧ embedBit (readHeader s.eng.ops s.mem).flags = true ∧
      (streamSlice true s.eng.ops s.mem).2 = (streamSlice false s.eng.ops s.mem).2 ∧
      s.eng.ops.xpalAddr =
        s.eng.ops.srcAddr + BitVec.ofNat 32 (16 + 2 * (readHeader s.eng.ops s.mem).pairCount.toNat) := by
  have h := (decodes_read (ps := [(2, 0), (1, 1), (1, 0)]) rfl (by decide) 28 12).2
  refine ⟨decodes_ready _ rfl (by decide), decodes_ready _ rfl (by decide), ?_, ?_, ?_⟩
  · rw [h]
    rfl
  · unfold streamSlice
    rw [h]
    exact congrArg Prod.snd ((e0_slice true).trans (e0_slice false).symm)
  · rw [h]
    show 0x2016#32 = 0x2000#32 + BitVec.ofNat 32 (16 + 2 * (3#32).toNat)
    decide

/-- EncodeDecodeRoundTrip: E-0 with the palette embedded, and E-14 with XPAL naming the source's own bytes A B. -/
theorem test_encodeDecodeRoundTrip_hypotheses :
    ∀ f n cap : Word, (f = 1 ∧ n = 28 ∧ cap = 28) ∨ (f = 0 ∧ n = 22 ∧ cap = 22) → ∃ s t u : State,
      EncodeReady s [] ∧ exec .encode s = .next t ∧ s.eng.ops.flags = f ∧
      u.mem.wf ∧ u.eng.disturbed = false ∧ u.eng.ops.srcLen = t.resultLo ∧
      u.mem.readBytes u.eng.ops.srcAddr t.resultLo.toNat = t.mem.readBytes s.eng.ops.dstAddr t.resultLo.toNat ∧
      noWrap u.eng.ops.srcAddr u.eng.ops.srcLen.toNat ∧ noWrap u.eng.ops.dstAddr u.eng.ops.dstCap.toNat ∧
      apart u.eng.ops.dstAddr u.eng.ops.dstCap.toNat u.eng.ops.srcAddr u.eng.ops.srcLen.toNat ∧
      s.eng.ops.pixels * strideOf s.eng.ops.flags ≤ u.eng.ops.dstCap.toNat ∧
      u.eng.ops.xpalLen.toNat = t.palLen.val ∧
      noWrap u.eng.ops.xpalAddr (t.palLen.val * strideOf s.eng.ops.flags) ∧
      apart u.eng.ops.dstAddr u.eng.ops.dstCap.toNat u.eng.ops.xpalAddr (t.palLen.val * strideOf s.eng.ops.flags) ∧
      u.mem.readBytes u.eng.ops.xpalAddr (t.palLen.val * strideOf s.eng.ops.flags) =
        t.palette.flatMap (colorBytes (strideOf s.eng.ops.flags)) := by
  intro f n cap hf
  obtain ⟨t, ht, hc⟩ := exec_completes .encode (running (ops0 f cap) mem0)
  have ha : after .encode (running (ops0 f cap) mem0) = t := by rw [after, ht]
  have hn : t.resultLo = n ∧ t.palLen = 2 ∧ t.palette = [0x00302010#32, 0x00605040#32] := by
    rw [← ha]
    rcases hf with ⟨rfl, rfl, rfl⟩ | ⟨rfl, rfl, rfl⟩ <;> decide +kernel
  have hr : EncodeReady (running (ops0 f cap) mem0) [] := by
    rcases hf with ⟨rfl, rfl, rfl⟩ | ⟨rfl, rfl, rfl⟩
    · exact test_encodeReady_E0
    · exact ⟨starts0 0 22 (.inl rfl) (by decide), by decide +kernel, by decide +kernel⟩
  have hs3 : strideOf f = 3 := by rcases hf with ⟨rfl, -, -⟩ | ⟨rfl, -, -⟩ <;> decide
  have hn' : n.toNat ≤ 28 := by rcases hf with ⟨-, rfl, -⟩ | ⟨-, rfl, -⟩ <;> decide
  have hcap : cap.toNat ≤ 28 := by rcases hf with ⟨-, -, rfl⟩ | ⟨-, -, rfl⟩ <;> decide
  refine ⟨_, t, running { decodeOps t.resultLo 12 with xpalAddr := 0x1003 } t.mem, hr, ht, rfl, hc.wf hr.mem_wf, rfl, rfl, rfl, ?_, ?_, ?_, ?_, ?_, ?_, ?_, ?_⟩
  · show 0x2000 + t.resultLo.toNat ≤ 4294967296
    rw [hn.1]
    omega
  · show 0x3000 + 12 ≤ 4294967296
    decide
  · refine .inr (.inr (.inr ?_))
    show 0x2000 + t.resultLo.toNat ≤ 0x3000
    rw [hn.1]
    omega
  · show pixelCount (dimWidth 0x00010004#32) (dimHeight 0x00010004#32) * strideOf f ≤ 12
    rw [hs3]
    decide
  · rw [hn.2.1]
    rfl
  · show 0x1003 + t.palLen.val * strideOf f ≤ 4294967296
    rw [hn.2.1, hs3]
    decide
  · refine .inr (.inr (.inr ?_))
    show 0x1003 + t.palLen.val * strideOf f ≤ 0x3000
    rw [hn.2.1, hs3]
    decide
  · show t.mem.readBytes 0x1003 (t.palLen.val * strideOf f) = t.palette.flatMap (colorBytes (strideOf f))
    rw [hn.2.1, hn.2.2, hs3]
    have : t.mem.readBytes 0x1003 6 = mem0.readBytes 0x1003 6 := by
      refine Memory.readBytes_congr fun i hi => hc.outside _ ?_
      show cap.toNat ≤ (0x1003#32 + BitVec.ofNat 32 i - 0x2000#32).toNat
      have : (BitVec.ofNat 32 i).toNat = i := by rw [BitVec.toNat_ofNat]; omega
      rw [BitVec.toNat_sub, BitVec.toNat_add, this]
      simp only [BitVec.toNat_ofNat]
      omega
    exact this.trans (by decide +kernel)

end Sys2Proof.Tests
end

section
/-! PROOFS. The memory statement of spec/00_scope.md R13. -/

namespace Sys2Proof.Proofs
open Sys2Proof.Machine

/-- Settles O27. Canonical form and the bytes outside the write are inductions on the bytes written. That the bytes
read back rests on byte x of a write being the one at offset x - a modulo 2^32, so a write that wraps needs no case of
its own; at most 2^32 bytes means no address is written twice. -/
theorem writtenBytesReadBack : Obligations.WrittenBytesReadBack := by
  intro m a bs hwf hlen
  refine ⟨?canonical, ?readBack, ?frame⟩
  case canonical => exact Memory.writeBytes_wf hwf a bs
  case readBack => exact Memory.readBytes_writeBytes hwf a bs hlen
  case frame =>
    intro x hx
    exact Memory.readByte_writeBytes_outside m a x bs hx

end Sys2Proof.Proofs
end

section
/-! PROOFS. The register port (spec/10_state.md R32, R33, R50, R54): which offset names which register, and what a step
does with a read, a write, an access outside the contract and a memory access. -/

namespace Sys2Proof.Proofs
open Sys2Proof Sys2Proof.Machine

/-! ### The register map -/

/-- The offset of a register (spec/10_state.md R33): the map that `regAt` reads backwards. -/
def regOffset : Reg → BitVec 11
  | .cmd => 0x000
  | .status => 0x004
  | .srcAddr => 0x008
  | .srcLen => 0x00C
  | .dstAddr => 0x010
  | .dstCap => 0x014
  | .xpalAddr => 0x018
  | .xpalLen => 0x01C
  | .dim => 0x020
  | .flags => 0x024
  | .pairCount => 0x028
  | .resultLo => 0x02C
  | .resultHi => 0x030
  | .palLen => 0x034
  | .palColor => 0x038
  | .wrCursor => 0x03C
  | .pal j => BitVec.ofNat 11 (0x400 + 4 * j.val)

theorem regAt_regOffset (r : Reg) : regAt (regOffset r) = some r := by
  cases r with
  | pal j => exact regAt_pal j
  | _ => rfl

theorem portAccessOk_regOffset (r : Reg) : portAccessOk .word (regOffset r) = true := by
  cases r with
  | pal j => exact portAccessOk_pal j
  | _ => rfl

theorem portAccessOk_eq_false {width : PortWidth} {off : BitVec 11}
    (h : width = .byte ∨ width = .half ∨ off.toNat % 4 ≠ 0) : portAccessOk width off = false := by
  rcases h with rfl | rfl | h
  · rfl
  · rfl
  · simp [portAccessOk, h]

/-! ### Registers and the host's queue -/

/-- What the host still has to send does not show in a register. -/
theorem readReg_setHost (r : Reg) (s : State) (rest : List HostTxn) :
    readReg r { s with host := rest } = readReg r s := by
  cases r <;> rfl

/-- A register write neither reads nor changes what the host still has to send. -/
theorem writeReg_setHost (r : Reg) (v : Word) (s : State) (rest : List HostTxn) :
    writeReg r v { s with host := rest } = { writeReg r v s with host := rest } := by
  cases r <;> rfl

/-- PAL_LEN keeps min(v[8:0], 256) (spec/10_state.md R46). -/
theorem palLenOf_lowBits (v : Word) :
    palLenOf (v.extractLsb' 0 9).toNat = ⟨min (v.toNat % 512) 256, by omega⟩ := by
  apply Fin.ext
  simp [BitVec.extractLsb'_toNat]

/-! ### What a step does with an access of the idle engine -/

section
variable {s : State} {rest : List HostTxn}

theorem step_read_listed (hb : statusBusy s.status = false) (r : Reg) :
    step { s with host := .regRead .word (regOffset r) :: rest } =
      .next { s with host := rest, hostData := readReg r s } := by
  rw [step_serveIdle (by exact hb) rfl, serveIdle_read (portAccessOk_regOffset r), idleRead, regAt_regOffset]
  dsimp only
  rw [readReg_setHost r s rest]

theorem step_write_listed (hb : statusBusy s.status = false) (r : Reg) (v : Word) :
    step { s with host := .regWrite .word (regOffset r) v :: rest } = .next { writeReg r v s with host := rest } := by
  rw [step_serveIdle (by exact hb) rfl, serveIdle_write (portAccessOk_regOffset r), idleWrite, regAt_regOffset]
  dsimp only
  rw [writeReg_setHost r v s rest]

theorem step_read_unlisted (hb : statusBusy s.status = false) {off : BitVec 11} (hoff : off.toNat % 4 = 0)
    (hr : regAt off = none) :
    step { s with host := .regRead .word off :: rest } = .next { s with host := rest, hostData := 0 } := by
  rw [step_serveIdle (by exact hb) rfl, serveIdle_read (portAccessOk_of_aligned hoff), idleRead, hr]

theorem step_write_unlisted (hb : statusBusy s.status = false) {off : BitVec 11} (hoff : off.toNat % 4 = 0)
    (hr : regAt off = none) (v : Word) :
    step { s with host := .regWrite .word off v :: rest } = .next { s with host := rest } := by
  rw [step_serveIdle (by exact hb) rfl, serveIdle_write (portAccessOk_of_aligned hoff), idleWrite, hr]

end

/-! ### What a step does with an access outside the contract -/

theorem serveIdle_refused {tx : HostTxn} (h : tx.inContract = false) (s : State) :
    serveIdle tx s = .refused .portAccessOutsideContract := by
  cases tx with
  | regWrite width off v => exact if_neg (Bool.eq_false_iff.1 h)
  | regRead width off => exact if_neg (Bool.eq_false_iff.1 h)
  | _ => cases h

theorem serveBusy_refused {tx : HostTxn} (h : tx.inContract = false) (s : State) :
    serveBusy tx s = .refused .portAccessOutsideContract := by
  cases tx with
  | regWrite width off v => exact if_neg (Bool.eq_false_iff.1 h)
  | regRead width off => exact if_neg (Bool.eq_false_iff.1 h)
  | _ => cases h

/-- A step whose turn it is to serve such an access is refused, busy or idle (log 15). -/
theorem step_refused {s : State} {tx : HostTxn} {rest : List HostTxn} (h : tx.inContract = false)
    (hturn : statusBusy s.status = true → s.eng.busyLeft ≠ 0) (hh : s.host = tx :: rest) :
    step s = .refused .portAccessOutsideContract := by
  cases hb : statusBusy s.status with
  | false => rw [step_serveIdle hb hh, serveIdle_refused h]
  | true => rw [step_serveBusy hb (hturn hb) hh, serveBusy_refused h]

/-! ### Reads of a busy engine -/

/-- A read while a command runs changes only what the host received and the count of free values
(spec/10_state.md R54). -/
theorem busyRead_frame (off : BitVec 11) (s : State) :
    busyRead off s = { s with hostData := (busyRead off s).hostData, draws := (busyRead off s).draws } := by
  unfold busyRead
  split <;> rfl

theorem busyMemRead_frame (a : Word) (s : State) :
    busyMemRead a s = { s with hostData := (busyMemRead a s).hostData, draws := (busyMemRead a s).draws } := by
  unfold busyMemRead
  split <;> rfl

/-! ### The statements -/

/-- Settles O10. That STATUS reads 0x00000001 is the invariant's: with BUSY = 1 a legal STATUS shows BUSY alone. -/
theorem accessWhileBusy : Obligations.AccessWhileBusy := by
  intro s off v rest hinv hb hl h4
  have hok := portAccessOk_of_aligned h4
  refine ⟨fun hh => ?write, fun hh => ?read⟩
  case write => rw [step_serveBusy hb hl hh, serveBusy, if_pos hok]
  case read =>
    refine ⟨_, by rw [step_serveBusy hb hl hh, serveBusy, if_pos hok], busyRead_frame off _, ?status, ?results⟩
    case status =>
      rintro rfl
      exact hinv.status_busy hb
    case results => rintro (rfl | rfl | rfl) <;> rfl

/-- Settles O8: the write of the idle engine's CMD is `issue`, which latches the operands as they stand. -/
theorem issueLatchesOperands : Obligations.IssueLatchesOperands := by
  intro s w rest hb hh
  exact ⟨issue w { s with host := rest }, step_serveIdle hb hh, rfl, rfl⟩

/-- Settles O13. The statement's premise is that the access is outside the port's contract. -/
theorem accessOutsideContractRefused : Obligations.AccessOutsideContractRefused := by
  intro s width off v rest hout hturn hh
  have hok : portAccessOk width off = false := portAccessOk_eq_false hout
  rcases hh with hh | hh
  · exact step_refused (tx := .regWrite width off v) hok hturn hh
  · exact step_refused (tx := .regRead width off) hok hturn hh

/-- Settles O14. What the written byte and the others read as are the laws of one memory write. -/
theorem idleKeepsRegisters : Obligations.IdleKeepsRegisters := by
  intro s rest hb
  refine ⟨?nothing, ?write, ?read⟩
  case nothing => exact step_idle hb
  case write =>
    intro a b hwf hh
    exact ⟨_, step_serveIdle hb hh, rfl, Memory.writeByte_wf hwf a b, Memory.readByte_writeByte_same hwf a b,
      fun x hx => Memory.readByte_writeByte_of_ne s.mem b hx⟩
  case read => exact fun a hh => step_serveIdle hb hh

end Sys2Proof.Proofs

/-! The statements of the idle port share their names with the operations they speak of. -/
namespace Sys2Proof.Proofs.Port
open Sys2Proof Sys2Proof.Machine

/-- Settles O11. The list of the statement is the register map read register by register; the palette window is the
same lemma at PAL[j]. -/
theorem idleRead : Obligations.IdleRead := by
  intro s off rest hb
  refine ⟨?listed, ?palette, ?unlisted⟩
  case listed =>
    intro p hp
    have hmap : p ∈ ([.cmd, .status, .srcAddr, .srcLen, .dstAddr, .dstCap, .xpalAddr, .xpalLen, .dim, .flags,
        .pairCount, .resultLo, .resultHi, .palLen, .palColor, .wrCursor] : List Reg).map
          fun r => (regOffset r, readReg r s) := hp
    obtain ⟨r, -, rfl⟩ := List.mem_map.1 hmap
    exact step_read_listed hb r
  case palette => exact fun j => step_read_listed hb (.pal j)
  case unlisted => exact fun h4 hlo hhi => step_read_unlisted hb h4 (regAt_unlisted off h4 hlo hhi)

/-- Settles O12, as O11: the list of the statement is the register map written register by register. The one entry that
is not the model's own write is PAL_LEN, which `palLenOf_lowBits` turns into it. -/
theorem idleWrite : Obligations.IdleWrite := by
  intro s off v rest hb
  refine ⟨?listed, ?palette, ?unlisted⟩
  case listed =>
    intro p hp
    rw [← palLenOf_lowBits] at hp
    have hmap : p ∈ ([.srcAddr, .srcLen, .dstAddr, .dstCap, .xpalAddr, .xpalLen, .dim, .flags, .pairCount, .palLen,
        .palColor, .status, .resultLo, .resultHi, .wrCursor] : List Reg).map
          fun r => (regOffset r, writeReg r v s) := hp
    obtain ⟨r, -, rfl⟩ := List.mem_map.1 hmap
    exact step_write_listed hb r v
  case palette => exact fun j => step_write_listed hb (.pal j) v
  case unlisted => exact fun h4 hlo hhi => step_write_unlisted hb h4 (regAt_unlisted off h4 hlo hhi) v

end Sys2Proof.Proofs.Port
end

section
/-! PROOFS. The invariant (spec/10_state.md R35, R45, R49, R51, R52, R54): what a step can do, said once, and that each
of these keeps the invariant. -/

namespace Sys2Proof.Proofs
open Sys2Proof Sys2Proof.Machine

/-! ### Steps -/

/-- What a step that answers a next state can have done. -/
theorem step_cases {s t : State} (h : step s = .next t) :
    (statusBusy s.status = false ∧ t = s) ∨
    (∃ tx rest, statusBusy s.status = false ∧ s.host = tx :: rest ∧
      serveIdle tx { s with host := rest } = .next t) ∨
    (statusBusy s.status = true ∧ exec (decode s.cmd) s = .next t) ∨
    (∃ tx rest, statusBusy s.status = true ∧ s.host = tx :: rest ∧
      serveBusy tx { s with host := rest, eng := { s.eng with busyLeft := s.eng.busyLeft - 1 } } = .next t) := by
  cases hb : statusBusy s.status with
  | false =>
    cases hh : s.host with
    | nil =>
      rw [step_idle hb hh] at h
      cases h
      exact .inl ⟨rfl, rfl⟩
    | cons tx rest =>
      rw [step_serveIdle hb hh] at h
      exact .inr (.inl ⟨tx, rest, rfl, rfl, h⟩)
  | true =>
    by_cases hturn : s.eng.busyLeft = 0 ∨ s.host = []
    · rw [step_exec hb hturn] at h
      exact .inr (.inr (.inl ⟨rfl, h⟩))
    · obtain ⟨hl, hne⟩ := not_or.1 hturn
      obtain ⟨tx, rest, hh⟩ := List.exists_cons_of_ne_nil hne
      rw [step_serveBusy hb hl hh] at h
      exact .inr (.inr (.inr ⟨tx, rest, rfl, hh, h⟩))

/-- What serving a transaction of the idle engine can do. -/
theorem serveIdle_cases {tx : HostTxn} {s t : State} (h : serveIdle tx s = .next t) :
    (∃ r v, t = writeReg r v s) ∨ (∃ m d, t = { s with mem := m, hostData := d } ∧ (s.mem.wf → m.wf)) ∨
      t = resetEvent s := by
  cases tx with
  | regWrite width off v =>
    rw [serveIdle] at h
    split at h
    · cases h
      unfold idleWrite
      split
      · exact .inl ⟨_, _, rfl⟩
      · exact .inr (.inl ⟨_, _, rfl, id⟩)
    · cases h
  | regRead width off =>
    rw [serveIdle] at h
    split at h
    · cases h
      unfold idleRead
      split <;> exact .inr (.inl ⟨_, _, rfl, id⟩)
    · cases h
  | memWrite a b =>
    cases h
    exact .inr (.inl ⟨_, _, rfl, fun hm => Memory.writeByte_wf hm a b⟩)
  | memRead a =>
    cases h
    exact .inr (.inl ⟨_, _, rfl, id⟩)
  | reset =>
    cases h
    exact .inr (.inr rfl)

/-- What serving a transaction while a command runs can do: the registers stay as they are, unless it is a reset. -/
theorem serveBusy_cases {tx : HostTxn} {s t : State} (h : serveBusy tx s = .next t) :
    (∃ m d n b, t = { s with mem := m, hostData := d, draws := n, eng := { s.eng with disturbed := b } } ∧
      (s.mem.wf → m.wf)) ∨ t = resetEvent s := by
  cases tx with
  | regWrite width off v =>
    rw [serveBusy] at h
    split at h
    · cases h
      exact .inl ⟨_, _, _, _, rfl, id⟩
    · cases h
  | regRead width off =>
    rw [serveBusy] at h
    split at h
    · cases h
      exact .inl ⟨_, _, _, _, busyRead_frame off s, id⟩
    · cases h
  | memWrite a b =>
    cases h
    exact .inl ⟨_, _, _, _, rfl, fun hm => Memory.writeByte_wf hm a b⟩
  | memRead a =>
    cases h
    exact .inl ⟨_, _, _, _, busyMemRead_frame a s, id⟩
  | reset =>
    cases h
    exact .inr rfl

/-! ### The invariant -/

theorem legalStatus_zero : legalStatus 0 := .inl rfl

/-- A state without a running command meets the invariant when its engine is dead. -/
theorem inv_of_idle {s : State} (hm : s.mem.wf) (hs : legalStatus s.status) (hb : statusBusy s.status = false)
    (he : s.eng = Engine.idle) : s.Inv where
  mem_wf := hm
  status_legal := hs
  busy h := by rw [hb] at h; cases h
  idle _ := he

theorem resetEvent_inv {s : State} (hm : s.mem.wf) : (resetEvent s).Inv := by
  refine inv_of_idle ?_ legalStatus_zero statusBusy_zero rfl
  show Memory.wf (if statusBusy s.status then _ else _)
  split
  · exact Memory.havoc_wf hm _ _ _
  · exact hm

/-- A completed command leaves a legal STATUS with BUSY = 0 and a dead engine. -/
theorem completion_inv {i : Instr} {s t : State} (h : Completion i s t) (hm : s.mem.wf) : t.Inv := by
  obtain ⟨st, hst, code, hcode, hstatus⟩ := h.status
  have hcode' : code ∈ List.range 12 := List.mem_range.2 (completionCodes_lt hcode)
  refine inv_of_idle (h.wf hm) (.inr (.inr ⟨st, hst, code, hcode', hstatus⟩)) ?_ h.eng
  rw [hstatus]
  exact (statusWord_fields st hst code hcode').1

theorem issue_inv {s : State} (w : Word) (hm : s.mem.wf) : (issue w s).Inv where
  mem_wf := hm
  status_legal := .inr (.inl rfl)
  busy _ := ⟨rfl, rfl, rfl, rfl⟩
  idle h := by
    have : statusBusy statusIssued = false := h
    rw [statusBusy_issued] at this
    cases this

/-- Only CMD's write starts a command; every other write leaves memory, STATUS and the engine alone. -/
theorem writeReg_frame {r : Reg} (hr : r ≠ .cmd) (v : Word) (s : State) :
    (writeReg r v s).mem = s.mem ∧ (writeReg r v s).status = s.status ∧ (writeReg r v s).eng = s.eng := by
  cases r with
  | cmd => exact absurd rfl hr
  | _ => exact ⟨rfl, rfl, rfl⟩

theorem writeReg_inv {s : State} (h : s.Inv) (hb : statusBusy s.status = false) (r : Reg) (v : Word) :
    (writeReg r v s).Inv := by
  by_cases hr : r = .cmd
  · subst hr
    exact issue_inv v h.mem_wf
  · obtain ⟨hmem, hstatus, heng⟩ := writeReg_frame hr v s
    exact inv_of_idle (hmem ▸ h.mem_wf) (hstatus ▸ h.status_legal) (hstatus ▸ hb) (heng.trans (h.idle hb))

theorem serveIdle_inv {tx : HostTxn} {s t : State} (h : s.Inv) (hb : statusBusy s.status = false)
    (ht : serveIdle tx s = .next t) : t.Inv := by
  rcases serveIdle_cases ht with ⟨r, v, rfl⟩ | ⟨m, d, rfl, hm⟩ | rfl
  · exact writeReg_inv h hb r v
  · exact inv_of_idle (hm h.mem_wf) h.status_legal hb (h.idle hb)
  · exact resetEvent_inv h.mem_wf

/-- Of a busy state the invariant leaves memory, the host's side and the model's two marks free. -/
theorem inv_of_busy {s : State} (h : s.Inv) (hb : statusBusy s.status = true) {m : Memory} (hm : m.wf)
    (rest : List HostTxn) (d : Word) (n k : Nat) (b : Bool) :
    State.Inv { s with mem := m, host := rest, hostData := d, draws := n,
                       eng := { s.eng with busyLeft := k, disturbed := b } } where
  mem_wf := hm
  status_legal := h.status_legal
  busy _ := by
    obtain ⟨hlo, hhi, hcur, heng⟩ := h.busy hb
    refine ⟨hlo, hhi, hcur, ?_⟩
    dsimp only
    rw [heng]
    rfl
  idle h' := absurd (hb.symm.trans h') (by decide)

theorem serveBusy_inv {tx : HostTxn} {s t : State} (h : s.Inv) (hb : statusBusy s.status = true)
    (ht : serveBusy tx s = .next t) : t.Inv := by
  rcases serveBusy_cases ht with ⟨m, d, n, b, rfl, hm⟩ | rfl
  · exact inv_of_busy h hb (hm h.mem_wf) s.host d n s.eng.busyLeft b
  · exact resetEvent_inv h.mem_wf

/-- Settles O20, by the four things a step can do: nothing, serve the idle port, run the command to completion, serve
a transaction of a busy engine. -/
theorem stepKeepsInvariant : Obligations.StepKeepsInvariant := by
  intro s t hinv hstep
  rcases step_cases hstep with ⟨-, rfl⟩ | ⟨tx, rest, hb, -, ht⟩ | ⟨-, ht⟩ | ⟨tx, rest, hb, -, ht⟩
  · exact hinv
  · have hpop : State.Inv { s with host := rest } :=
      inv_of_idle hinv.mem_wf hinv.status_legal hb (hinv.idle hb)
    exact serveIdle_inv hpop hb ht
  · obtain ⟨u, hu, hc⟩ := exec_completes (decode s.cmd) s
    obtain rfl : u = t := Host.Outcome.next.inj (hu.symm.trans ht)
    exact completion_inv hc hinv.mem_wf
  · have hpop : State.Inv { s with host := rest, eng := { s.eng with busyLeft := s.eng.busyLeft - 1 } } :=
      inv_of_busy hinv hb hinv.mem_wf rest s.hostData s.draws (s.eng.busyLeft - 1) s.eng.disturbed
    exact serveBusy_inv hpop hb ht

/-- Settles O21: after reset the memory is empty, STATUS is 0 and the engine is dead. -/
theorem resetMeetsInvariant : Obligations.ResetMeetsInvariant :=
  inv_of_idle Memory.nil_wf legalStatus_zero statusBusy_zero rfl

/-- Settles O18. Each register of the reset state is 0 by its definition; the fields of STATUS are those of 0. -/
theorem resetState : Obligations.ResetState := by
  refine ⟨rfl, rfl, rfl, rfl, rfl, rfl, rfl, rfl, rfl, rfl, rfl, rfl, rfl, rfl, rfl, rfl, rfl, ?status⟩
  case status => decide

end Sys2Proof.Proofs
end

section
/-! PROOFS. What a command may write (spec/10_state.md R53, spec/20_memory.md R88, R89), read off the ways a command can
complete. -/

namespace Sys2Proof.Proofs
open Sys2Proof Sys2Proof.Machine

/-! ### The groups of commands -/

theorem writesMemory_eq_false_iff (i : Instr) : writesMemory i = false ↔
    i ≠ .encode ∧ i ≠ .encodeKeep ∧ i ≠ .decode ∧ i ≠ .decodeXpal ∧ i ≠ .hdrWrite := by
  simp [writesMemory, encodes, and_assoc]

theorem loadsHeader_eq_false_iff (i : Instr) : loadsHeader i = false ↔
    i ≠ .hdrParse ∧ i ≠ .validate ∧ i ≠ .decode ∧ i ≠ .decodeXpal := by
  simp only [loadsHeader, Bool.or_eq_false_iff, beq_eq_false_iff_ne]
  tauto

theorem encodes_eq_false_iff (i : Instr) : encodes i = false ↔ i ≠ .encode ∧ i ≠ .encodeKeep := by
  simp [encodes]

theorem writesTable_eq_false_iff (i : Instr) : writesTable i = false ↔
    i ≠ .encode ∧ i ≠ .encodeKeep ∧ i ≠ .palClear ∧ i ≠ .palFind ∧ i ≠ .palFindA := by
  simp [writesTable, encodes, and_assoc]

/-! ### The statements -/

/-- Settles O22: no completion, free results included, changes the registers of the host. -/
theorem engineKeepsOperandRegisters : Obligations.EngineKeepsOperandRegisters := by
  intro i s
  obtain ⟨t, ht, hc⟩ := exec_completes i s
  have hk := hc.host
  exact ⟨t, ht, hk.cmd, hk.srcAddr, hk.srcLen, hk.dstAddr, hk.dstCap, hk.xpalAddr, hk.xpalLen, hk.palColor⟩

/-- Settles O23: every completion keeps what lies outside the latched destination. -/
theorem memoryOutsideDestinationKept : Obligations.MemoryOutsideDestinationKept := by
  intro i s
  obtain ⟨t, ht, hc⟩ := exec_completes i s
  refine ⟨t, ht, fun a ha => hc.outside a ha, fun h1 h2 h3 h4 h5 => hc.mem ?_⟩
  exact (writesMemory_eq_false_iff i).2 ⟨h1, h2, h3, h4, h5⟩

/-- Settles O24. Each clause names the commands outside one group; a completion of such a command keeps what only that
group writes. -/
theorem registersACommandMayWrite : Obligations.RegistersACommandMayWrite := by
  intro i s
  obtain ⟨t, ht, hc⟩ := exec_completes i s
  refine ⟨t, ht, fun h1 h2 h3 h4 => ?header, fun h1 h2 h3 h4 h5 => ?table⟩
  case header =>
    have hl := (loadsHeader_eq_false_iff i).2 ⟨h1, h2, h3, h4⟩
    obtain ⟨hdim, hflags⟩ := hc.header hl
    exact ⟨hdim, hflags, fun h5 h6 => hc.pairs hl ((encodes_eq_false_iff i).2 ⟨h5, h6⟩)⟩
  case table => exact hc.table ((writesTable_eq_false_iff i).2 ⟨h1, h2, h3, h4, h5⟩)

end Sys2Proof.Proofs
end

section
/-! PROOFS. A command reads nothing that an earlier one left (spec/10_state.md R51, R53): each step of a command body
commutes with overwriting STATUS and the result registers, and completion overwrites them itself. -/

namespace Sys2Proof.Proofs
open Sys2Proof Sys2Proof.Machine

/-! ### Operations that do not read the result registers -/

/-- s with other contents in the registers that report a command's outcome (spec/10_state.md R53). -/
def withResults (st lo hi wc : Word) (s : State) : State :=
  { s with status := st, resultLo := lo, resultHi := hi, wrCursor := wc }

/-- The flow x with its end state changed by f. -/
def mapFlow (f : State → State) : Flow → Flow
  | .ok s => .ok (f s)
  | .raise e s => .raise e (f s)

/-- What g says of a state does not depend on the result registers. -/
def Unread {α : Sort _} (g : State → α) : Prop := ∀ st lo hi wc s, g (withResults st lo hi wc s) = g s

/-- The operation does the same whatever the result registers hold, and leaves them as they are. -/
def BlindOp (op : State → Flow) : Prop :=
  ∀ st lo hi wc s, op (withResults st lo hi wc s) = mapFlow (withResults st lo hi wc) (op s)

/-- The command body completes in the same state whatever the result registers hold. -/
def BlindBody (body : State → Flow) : Prop := Unread fun s => finish (body s)

/-! ### Blindness along a command body -/

theorem blindOp_andThen {f g : State → Flow} (hf : BlindOp f) (hg : BlindOp g) :
    BlindOp fun s => (f s).andThen g := by
  intro st lo hi wc s
  dsimp only
  rw [hf]
  cases f s with
  | ok t => exact hg st lo hi wc t
  | raise e t => rfl

/-- A blind operation after an update that leaves the result registers as they are. -/
theorem blindOp_comp {f : State → State} {g : State → Flow} (hg : BlindOp g)
    (hf : ∀ st lo hi wc s, f (withResults st lo hi wc s) = withResults st lo hi wc (f s)) :
    BlindOp fun s => g (f s) := by
  intro st lo hi wc s
  dsimp only
  rw [hf]
  exact hg st lo hi wc (f s)

theorem blindOp_ite {c : State → Prop} [DecidablePred c] {f g : State → Flow} (hc : Unread c) (hf : BlindOp f)
    (hg : BlindOp g) : BlindOp fun s => if c s then f s else g s := by
  intro st lo hi wc s
  simp only [hc st lo hi wc s]
  split
  · exact hf st lo hi wc s
  · exact hg st lo hi wc s

theorem blindOp_raise (e : ErrCode) : BlindOp (Flow.raise e) := fun _ _ _ _ _ => rfl

theorem blindOp_ok : BlindOp Flow.ok := fun _ _ _ _ _ => rfl

/-- A blind operation before a blind body: where the operation raises, taking the error overwrites the result registers
(spec/60_exceptions.md R253). -/
theorem blindBody_of_blindOp_andThen {f g : State → Flow} (hf : BlindOp f) (hg : BlindBody g) :
    BlindBody fun s => (f s).andThen g := by
  intro st lo hi wc s
  dsimp only
  rw [hf]
  cases f s with
  | ok t => exact hg st lo hi wc t
  | raise e t => rfl

theorem blindBody_raise (e : ErrCode) : BlindBody (Flow.raise e) := fun _ _ _ _ _ => rfl

theorem blindBody_ite {c : State → Prop} [DecidablePred c] {f g : State → Flow} (hc : Unread c) (hf : BlindBody f)
    (hg : BlindBody g) : BlindBody fun s => if c s then f s else g s := by
  intro st lo hi wc s
  simp only [hc st lo hi wc s]
  split
  · exact hf st lo hi wc s
  · exact hg st lo hi wc s

/-- A body that gives RESULT itself and leaves STATUS and WR_CURSOR to completion (spec/40_command_protocol.md R144). -/
theorem blindBody_setResult {n : State → Nat} (hn : Unread n) : BlindBody fun s => .ok (setResult (n s) s) := by
  intro st lo hi wc s
  simp only [hn st lo hi wc s]
  rfl

/-! ### The operations -/

theorem writerPut_blind (b : List Byte) : BlindOp (writerPut b) :=
  blindOp_ite (fun _ _ _ _ _ => rfl) (blindOp_raise _) fun _ _ _ _ _ => rfl

theorem parseHeader_blind : BlindOp parseHeader := by
  refine blindOp_ite (fun _ _ _ _ _ => rfl) (blindOp_raise _) fun st lo hi wc s => ?_
  show (match headerError (readHeader s.eng.ops s.mem) with | some e => _ | none => _) =
    mapFlow _ (match headerError (readHeader s.eng.ops s.mem) with | some e => _ | none => _)
  cases headerError (readHeader s.eng.ops s.mem) <;> rfl

theorem validate_blind : BlindOp validate := by
  refine blindOp_andThen parseHeader_blind fun st lo hi wc s => ?_
  show (match validatorError s.eng.ops (readHeader s.eng.ops s.mem) with | some e => _ | none => _) =
    mapFlow _ (match validatorError s.eng.ops (readHeader s.eng.ops s.mem) with | some e => _ | none => _)
  cases validatorError s.eng.ops (readHeader s.eng.ops s.mem) <;> rfl

theorem replay_blind (total n : Nat) : BlindOp (replay total n) := by
  induction n with
  | zero => exact blindOp_ok
  | succ n ih =>
    exact blindOp_ite (fun _ _ _ _ _ => rfl) (blindOp_raise _) (blindOp_comp ih fun _ _ _ _ _ => rfl)

theorem findOrInsert_withResults (n : Nat) (c : Word) (st lo hi wc : Word) (s : State) :
    findOrInsert n c (withResults st lo hi wc s) =
      (findOrInsert n c s).map fun p => (p.1, withResults st lo hi wc p.2) := by
  have hpal : (withResults st lo hi wc s).palette = s.palette := rfl
  have hlen : (withResults st lo hi wc s).palLen = s.palLen := rfl
  rw [findOrInsert_eq, findOrInsert_eq, hpal, hlen]
  split
  · rfl
  · split <;> rfl

/-- Find-or-insert of colour c and then g of the index, or TooManyColors (spec/43_palette_table.md R191). -/
def findThen (n : Nat) (c : Word) (g : Nat → State → Flow) (s : State) : Flow :=
  (findOrInsert n c s).elim (.raise .tooManyColors s) fun p => g p.1 p.2

theorem findThen_blindOp {n : Nat} {c : Word} {g : Nat → State → Flow} (hg : ∀ j, BlindOp (g j)) :
    BlindOp (findThen n c g) := by
  intro st lo hi wc s
  unfold findThen
  rw [findOrInsert_withResults]
  cases findOrInsert n c s with
  | none => rfl
  | some p => exact hg p.1 st lo hi wc p.2

theorem findThen_blindBody {n : Nat} {c : Word} {g : Nat → State → Flow} (hg : ∀ j, BlindBody (g j)) :
    BlindBody (findThen n c g) := by
  intro st lo hi wc s
  dsimp only [findThen]
  rw [findOrInsert_withResults]
  cases findOrInsert n c s with
  | none => rfl
  | some p => exact hg p.1 st lo hi wc p.2

/-- What EmitPair does once the colour has index j (spec/44_rle_encoder.md R203, R205). -/
def putPair (j : Nat) (s : State) : Flow :=
  (writerPut [BitVec.ofNat 8 s.eng.runLen, BitVec.ofNat 8 j] s).andThen fun t =>
    .ok { t with pairCount := BitVec.ofNat 32 (t.eng.p + 1), eng := { t.eng with p := t.eng.p + 1 } }

/-- EmitPair is find-or-insert of run_color and then the pair. -/
theorem emitPair_eq (s : State) :
    emitPair s = findThen (strideOf s.eng.ops.flags) s.eng.runColor putPair s := by
  unfold emitPair findThen
  cases findOrInsert (strideOf s.eng.ops.flags) s.eng.runColor s <;> rfl

theorem putPair_blind (j : Nat) : BlindOp (putPair j) :=
  blindOp_andThen (fun st lo hi wc s => writerPut_blind [BitVec.ofNat 8 s.eng.runLen, BitVec.ofNat 8 j] st lo hi wc s)
    fun _ _ _ _ _ => rfl

theorem emitPair_blind : BlindOp emitPair := by
  intro st lo hi wc s
  rw [emitPair_eq, emitPair_eq]
  exact findThen_blindOp putPair_blind st lo hi wc s

theorem encodeScan_blind (n : Nat) : BlindOp (encodeScan n) := by
  induction n with
  | zero => exact blindOp_ok
  | succ n ih =>
    intro st lo hi wc s
    have hrun : BlindOp fun t => encodeScan n (newRun (pixelAt s.eng.ops s.mem s.eng.i) t) :=
      blindOp_comp ih fun _ _ _ _ _ => rfl
    by_cases hj : joins s
    · have hj' : joins (withResults st lo hi wc s) := hj
      rw [encodeScan_succ_join hj, encodeScan_succ_join hj']
      exact ih st lo hi wc (joinRun s)
    · have hj' : ¬ joins (withResults st lo hi wc s) := hj
      rw [encodeScan_succ_close hj, encodeScan_succ_close hj']
      exact blindOp_andThen emitPair_blind hrun st lo hi wc s

theorem putPalette_blind (n j : Nat) : BlindOp (putPalette n j) := by
  induction n generalizing j with
  | zero => exact blindOp_ok
  | succ n ih =>
    refine blindOp_andThen (fun st lo hi wc s => ?_) (ih (j + 1))
    exact writerPut_blind (colorBytes (strideOf s.eng.ops.flags) (s.palEntry j)) st lo hi wc s

/-! ### The command bodies -/

theorem encodeTail_blind : BlindBody encodeTail := by
  have hpatch : BlindOp fun s => if embedBit s.eng.ops.flags then putPalette s.palLen.val 0 s else .ok s :=
    blindOp_ite (fun _ _ _ _ _ => rfl) (fun st lo hi wc s => putPalette_blind s.palLen.val 0 st lo hi wc s) blindOp_ok
  have hcomp := blindOp_comp (f := fun s => writerPatch 12 (le32 (BitVec.ofNat 32 s.eng.p)) s) hpatch
    fun _ _ _ _ _ => rfl
  exact blindBody_of_blindOp_andThen hcomp (blindBody_setResult fun _ _ _ _ _ => rfl)

theorem encodeBody_blind (keep : Bool) : BlindBody (encodeBody keep) := by
  refine blindBody_ite (fun _ _ _ _ _ => rfl) (blindBody_raise _)
    (blindBody_ite (fun _ _ _ _ _ => rfl) (blindBody_raise _) fun st lo hi wc s => ?_)
  have hheader : BlindOp fun t =>
      writerPut (serializeHeader (dimWidth s.eng.ops.dim) (dimHeight s.eng.ops.dim) s.eng.ops.flags 0) (writerInit t) :=
    blindOp_comp (writerPut_blind _) fun _ _ _ _ _ => rfl
  have hscan : BlindOp fun t => encodeScan (s.eng.ops.pixels - 1) (startScan t) :=
    blindOp_comp (encodeScan_blind _) fun _ _ _ _ _ => rfl
  exact blindBody_of_blindOp_andThen hheader
    (blindBody_of_blindOp_andThen hscan (blindBody_of_blindOp_andThen emitPair_blind encodeTail_blind)) st lo hi wc
    { s with palLen := if keep then s.palLen else 0, eng := { s.eng with strideOut := strideOf s.eng.ops.flags } }

theorem decodeBody_blind (ext : Bool) : BlindBody (decodeBody ext) := by
  refine blindBody_of_blindOp_andThen validate_blind
    (blindBody_ite (fun _ _ _ _ _ => rfl) (blindBody_raise _) fun st lo hi wc s => ?_)
  have hend (total need : Nat) : BlindBody fun t =>
      if t.eng.cur ≠ total then .raise .corruptStream t
      else .ok { t with resultLo := BitVec.ofNat 32 need, resultHi := 0 } :=
    blindBody_ite (fun _ _ _ _ _ => rfl) (blindBody_raise _) fun _ _ _ _ _ => rfl
  exact blindBody_of_blindOp_andThen (replay_blind _ _) (hend _ _) st lo hi wc { s with eng := { s.eng with
    palBase := (selectPalette ext s.eng.ops (readHeader s.eng.ops s.mem)).1
    pl := (selectPalette ext s.eng.ops (readHeader s.eng.ops s.mem)).2
    k := 0
    cur := 0
    out := [] } }

theorem hdrWriteBody_blind : BlindBody hdrWriteBody := by
  refine blindBody_ite (fun _ _ _ _ _ => rfl) (blindBody_raise _) fun st lo hi wc s => ?_
  have hheader : BlindOp fun t => writerPut (serializeHeader (dimWidth s.eng.ops.dim) (dimHeight s.eng.ops.dim)
      s.eng.ops.flags s.eng.ops.pairCount) (writerInit t) :=
    blindOp_comp (writerPut_blind _) fun _ _ _ _ _ => rfl
  exact blindBody_of_blindOp_andThen hheader (blindBody_setResult (n := fun _ => 16) fun _ _ _ _ _ => rfl) st lo hi wc
    { s with eng := { s.eng with strideOut := strideOf s.eng.ops.flags } }

/-- The state in which PAL_FIND has fixed its stride (spec/43_palette_table.md R195). -/
def fixStride (n : Nat) (s : State) : State := { s with eng := { s.eng with strideOut := n } }

/-- PAL_FIND is find-or-insert of PAL_COLOR and then its index as the result. -/
theorem palFindBody_eq (n : Nat) (s : State) :
    palFindBody n s = findThen n (colorOfBytes (colorBytes n s.eng.ops.palColor)) (fun j t => .ok (setResult j t))
      (fixStride n s) := by
  unfold palFindBody findThen
  dsimp only [fixStride]
  split
  · next j t h =>
    rw [h]
    rfl
  · next h =>
    rw [h]
    rfl

theorem palFindBody_blind (n : Nat) : BlindBody (palFindBody n) := by
  intro st lo hi wc s
  dsimp only
  rw [palFindBody_eq, palFindBody_eq]
  exact findThen_blindBody (fun j => blindBody_setResult (n := fun _ => j) fun _ _ _ _ _ => rfl) st lo hi wc
    (fixStride n s)

theorem hdrParseBody_blind : BlindBody hdrParseBody :=
  blindBody_of_blindOp_andThen parseHeader_blind (blindBody_setResult fun _ _ _ _ _ => rfl)

theorem validateBody_blind : BlindBody validateBody :=
  blindBody_of_blindOp_andThen validate_blind (blindBody_setResult fun _ _ _ _ _ => rfl)

theorem palClearBody_blind : BlindBody palClearBody := fun _ _ _ _ _ => rfl

theorem illegalBody_blind : BlindBody illegalBody := fun _ _ _ _ _ => rfl

/-! ### Commands -/

/-- s as an earlier command could have left it: other result registers, another internal state
(spec/10_state.md R51, R53). -/
def withLeftovers (st lo hi wc : Word) (e : Engine) (s : State) : State :=
  { withResults st lo hi wc s with eng := e }

section
variable {s : State} {e : Engine} (ho : e.ops = s.eng.ops) (st lo hi wc : Word)
include ho

theorem startCommand_withLeftovers :
    startCommand (withLeftovers st lo hi wc e s) = withResults st lo hi wc (startCommand s) := by
  unfold startCommand withLeftovers
  dsimp only
  rw [ho]
  rfl

theorem runCommand_withLeftovers {body : State → Flow} (hbody : BlindBody body) :
    runCommand body (withLeftovers st lo hi wc e s) = runCommand body s := by
  rw [runCommand, startCommand_withLeftovers ho]
  exact hbody st lo hi wc (startCommand s)

theorem completeUnspecified_withLeftovers (i : Instr) (hdr tbl wr : Bool) :
    completeUnspecified i hdr tbl wr (withLeftovers st lo hi wc e s) = completeUnspecified i hdr tbl wr s := by
  unfold completeUnspecified withLeftovers
  dsimp only
  rw [ho]
  rfl

theorem runGuarded_withLeftovers {body : State → Flow} (hbody : BlindBody body) {broken broken' : Bool}
    (hbr : broken' = broken) (i : Instr) (hdr tbl wr : Bool) :
    runGuarded broken' i hdr tbl wr body (withLeftovers st lo hi wc e s) = runGuarded broken i hdr tbl wr body s := by
  unfold runGuarded
  rw [hbr, completeUnspecified_withLeftovers ho, runCommand_withLeftovers ho st lo hi wc hbody]

variable (hd : e.disturbed = s.eng.disturbed)
include hd

theorem encodeDutyBroken_withLeftovers (i : Instr) :
    encodeDutyBroken i (withLeftovers st lo hi wc e s) = encodeDutyBroken i s := by
  simp only [encodeDutyBroken, withLeftovers, ho, hd]

theorem decodeDutyBroken_withLeftovers (i : Instr) (ext : Bool) :
    decodeDutyBroken i ext (withLeftovers st lo hi wc e s) = decodeDutyBroken i ext s := by
  simp only [decodeDutyBroken, withLeftovers, withResults, ho, hd]

theorem headerDutyBroken_withLeftovers (i : Instr) :
    headerDutyBroken i (withLeftovers st lo hi wc e s) = headerDutyBroken i s := by
  simp only [headerDutyBroken, withLeftovers, ho, hd]

theorem hdrWriteDutyBroken_withLeftovers :
    hdrWriteDutyBroken (withLeftovers st lo hi wc e s) = hdrWriteDutyBroken s := by
  simp only [hdrWriteDutyBroken, withLeftovers, ho, hd]

theorem exec_withLeftovers (i : Instr) : exec i (withLeftovers st lo hi wc e s) = exec i s := by
  have guarded {body : State → Flow} (hbody : BlindBody body) {b b' : Bool} (hbr : b' = b) (hdr tbl wr : Bool) :=
    congrArg (Host.Outcome.next (φ := Fault) (ρ := Refusal))
      (runGuarded_withLeftovers ho st lo hi wc hbody hbr i hdr tbl wr)
  have plain {body : State → Flow} (hbody : BlindBody body) :=
    congrArg (Host.Outcome.next (φ := Fault) (ρ := Refusal)) (runCommand_withLeftovers ho st lo hi wc hbody)
  cases i with
  | encode => exact guarded (encodeBody_blind false) (encodeDutyBroken_withLeftovers ho st lo hi wc hd _) _ _ _
  | encodeKeep => exact guarded (encodeBody_blind true) (encodeDutyBroken_withLeftovers ho st lo hi wc hd _) _ _ _
  | decode => exact guarded (decodeBody_blind false) (decodeDutyBroken_withLeftovers ho st lo hi wc hd _ _) _ _ _
  | decodeXpal => exact guarded (decodeBody_blind true) (decodeDutyBroken_withLeftovers ho st lo hi wc hd _ _) _ _ _
  | validate => exact guarded validateBody_blind (headerDutyBroken_withLeftovers ho st lo hi wc hd _) _ _ _
  | hdrParse => exact guarded hdrParseBody_blind (headerDutyBroken_withLeftovers ho st lo hi wc hd _) _ _ _
  | hdrWrite => exact guarded hdrWriteBody_blind (hdrWriteDutyBroken_withLeftovers ho st lo hi wc hd) _ _ _
  | palClear => exact plain palClearBody_blind
  | palFind => exact plain (palFindBody_blind 3)
  | palFindA => exact plain (palFindBody_blind 4)
  | illegal w => exact plain illegalBody_blind

end

/-- Settles O26: a command starts its internal state afresh from the latched operands, its body is blind to the result
registers, and its completion overwrites them. -/
theorem earlierResultsDoNotMatter : Obligations.EarlierResultsDoNotMatter := by
  intro i s st lo hi wc e ho hd
  exact exec_withLeftovers ho st lo hi wc hd i

end Sys2Proof.Proofs
end

section
/-! PROOFS. What ENCODE and DECODE leave in memory and in the registers when they succeed (spec/20_memory.md R88,
spec/44_rle_encoder.md R200, R207, R213, spec/45_rle_decoder.md R220, R224, R225): each body ends in a state that its
laws describe, and a completion hands that state's registers on and puts its output at the destination. -/

namespace Sys2Proof.Proofs
open Sys2Proof Sys2Proof.Machine

/-! ### Completion of a body that raised nothing -/

/-- A body that reaches its end ends inside its command's frame. -/
theorem bodyFrame_of_ok {i : Instr} {s u : State} {body : State → Flow}
    (h : Ends i (startCommand s) (body (startCommand s))) (hb : body (startCommand s) = .ok u) :
    BodyFrame i (startCommand s) u := by
  rw [hb] at h
  exact h

section
variable {i : Instr} {s u : State} (hu : BodyFrame i (startCommand s) u)
include hu

/-- The registers after a completion are those the body left, but for STATUS and WR_CURSOR, which report its stride and
its output (spec/40_command_protocol.md R144). -/
theorem completeOk_eq_of_frame :
    completeOk u = { s with
      status := statusWord u.eng.strideOut 0
      dim := u.dim
      flags := u.flags
      pairCount := u.pairCount
      resultLo := u.resultLo
      resultHi := u.resultHi
      palLen := u.palLen
      wrCursor := BitVec.ofNat 32 u.eng.out.length
      pal := u.pal
      mem := (completeOk u).mem
      eng := (completeOk u).eng } := by
  obtain ⟨hcmd, hsrcAddr, hsrcLen, hdstAddr, hdstCap, hxpalAddr, hxpalLen, hpalColor, hhost, hhostData⟩ :=
    (startCommand_keeps s).trans hu.host
  have hdraws : u.draws = s.draws := hu.draws
  simp only [completeOk, Engine.cursor, hcmd, hsrcAddr, hsrcLen, hdstAddr, hdstCap, hxpalAddr, hxpalLen, hpalColor,
    hhost, hhostData, hdraws]

/-- The output of a completed body reads back at the destination: it fits DST_CAP, so no address is written
twice. -/
theorem completeOk_reads_output (hm : s.mem.wf) :
    (completeOk u).mem.readBytes s.eng.ops.dstAddr u.eng.out.length = u.eng.out := by
  have hops : u.eng.ops = s.eng.ops := hu.ops
  have hmem : u.mem = s.mem := hu.mem
  have hlen : u.eng.out.length ≤ 4294967296 := hu.room.trans s.eng.ops.dstCap.isLt.le
  rw [completeOk_mem, hops, hmem]
  exact Memory.readBytes_writeBytes hm _ _ hlen

/-- A completion leaves every byte past the body's output alone (spec/20_memory.md R88). -/
theorem completeOk_keeps_outside (a : Word) (ha : u.eng.out.length ≤ (a - s.eng.ops.dstAddr).toNat) :
    (completeOk u).mem.readByte a = s.mem.readByte a := by
  have hops : u.eng.ops = s.eng.ops := hu.ops
  have hmem : u.mem = s.mem := hu.mem
  rw [completeOk_outside u a (hops ▸ ha), hmem]

end

/-! ### ENCODE -/

/-- ENCODE and ENCODE.KEEP under the host's duties run the same body, from the palette entries `seed`. -/
theorem exec_encode_eq {i : Instr} {s : State} {seed : List Word}
    (hi : (i = .encode ∧ seed = []) ∨ (i = .encodeKeep ∧ seed = s.palette)) (h : EncodeStarts s) :
    ∃ keep : Bool, seed = (if keep then s.palette else []) ∧
      exec i s = .next (runCommand (encodeBody keep) s) := by
  have run : ∀ {j : Instr} (keep : Bool), j = .encode ∨ j = .encodeKeep →
      runGuarded (encodeDutyBroken j s) j false true true (encodeBody keep) s = runCommand (encodeBody keep) s :=
    fun keep hj => runGuarded_false (encodeDutyBroken_eq_false hj h.duties h.undisturbed) _ _ _ _ _ _
  rcases hi with ⟨rfl, rfl⟩ | ⟨rfl, rfl⟩
  · exact ⟨false, rfl, congrArg Host.Outcome.next (run false (.inl rfl))⟩
  · exact ⟨true, rfl, congrArg Host.Outcome.next (run true (.inr rfl))⟩

/-- The stream fits the destination, so its length fits RESULT_LO and RESULT_HI is 0 (spec/10_state.md R45). -/
theorem encodedLength_div_eq_zero {s : State} {seed : List Word} (h : EncodeReady s seed) :
    encodedLength s.eng.ops s.mem seed / 4294967296 = 0 :=
  Nat.div_eq_of_lt (h.room.trans_lt s.eng.ops.dstCap.isLt)

/-- The body of a successful ENCODE or ENCODE.KEEP of s ends in u: its output is the image's stream, its result the
stream's length, its palette the one grown from `seed`. -/
structure EncodeEnd (i : Instr) (s : State) (seed : List Word) (u : State) : Prop where
  frame : BodyFrame i (startCommand s) u
  dim : u.dim = s.dim
  flags : u.flags = s.flags
  stride : u.eng.strideOut = strideOf s.eng.ops.flags
  out : u.eng.out = encodedStream s.eng.ops s.mem seed
  result_lo : u.resultLo = BitVec.ofNat 32 (encodedLength s.eng.ops s.mem seed)
  result_hi : u.resultHi = 0
  pairs : u.pairCount = BitVec.ofNat 32 (encodedPairs s.eng.ops s.mem seed).length
  palette : u.palette = encodedPalette s.eng.ops s.mem seed
  above : ∀ j, u.palette.length ≤ j → u.palEntry j = s.palEntry j

/-- ENCODE and ENCODE.KEEP with nothing to raise complete from such an end. -/
theorem exec_encode_ok {i : Instr} {s : State} {seed : List Word}
    (hi : (i = .encode ∧ seed = []) ∨ (i = .encodeKeep ∧ seed = s.palette)) (h : EncodeReady s seed) :
    ∃ u, exec i s = .next (completeOk u) ∧ EncodeEnd i s seed u := by
  obtain ⟨keep, hseed, hexec⟩ := exec_encode_eq hi h.toEncodeStarts
  obtain ⟨v, hbody, hscan, hout, hpal, habove, hpairs⟩ :=
    encodeBody_ok keep (startCommand s) seed hseed h.flags h.width h.height h.colors h.room
  have hi' : encodes i = true ∧ loadsHeader i = false := by rcases hi with ⟨rfl, -⟩ | ⟨rfl, -⟩ <;> decide
  have hframe := bodyFrame_of_ok (ends_encode hi'.1 keep s) hbody
  obtain ⟨hdim, hflags⟩ := hframe.header hi'.2
  have hhigh := congrArg (BitVec.ofNat 32) (encodedLength_div_eq_zero h)
  exact ⟨_, runCommand_ok hbody ▸ hexec, hframe, hdim, hflags, hscan.strideOut, hout, rfl, hhigh, hpairs, hpal,
    habove⟩

/-- What a successful ENCODE or ENCODE.KEEP leaves, from the palette entries `seed` (spec/20_memory.md R88,
spec/44_rle_encoder.md R200, R207, R213). -/
theorem encode_writes_stream {i : Instr} {s : State} {seed : List Word}
    (hi : (i = .encode ∧ seed = []) ∨ (i = .encodeKeep ∧ seed = s.palette)) (h : EncodeReady s seed) :
    ∃ t, exec i s = .next t ∧
      t = { s with
        status := statusWord (strideOf s.eng.ops.flags) 0
        pairCount := BitVec.ofNat 32 (encodedPairs s.eng.ops s.mem seed).length
        resultLo := BitVec.ofNat 32 (encodedLength s.eng.ops s.mem seed)
        resultHi := 0
        wrCursor := BitVec.ofNat 32 (encodedLength s.eng.ops s.mem seed)
        palLen := t.palLen
        pal := t.pal
        mem := t.mem
        eng := t.eng } ∧
      t.palette = encodedPalette s.eng.ops s.mem seed ∧
      (∀ j, t.palette.length ≤ j → t.palEntry j = s.palEntry j) ∧
      t.mem.readBytes s.eng.ops.dstAddr (encodedLength s.eng.ops s.mem seed) = encodedStream s.eng.ops s.mem seed ∧
      ∀ a : Word, encodedLength s.eng.ops s.mem seed ≤ (a - s.eng.ops.dstAddr).toNat →
        t.mem.readByte a = s.mem.readByte a := by
  obtain ⟨u, hexec, hu⟩ := exec_encode_ok hi h
  have hlen : u.eng.out.length = encodedLength s.eng.ops s.mem seed := by rw [hu.out, length_encodedStream]
  refine ⟨completeOk u, hexec, ?registers, hu.palette, hu.above, ?stream, fun a ha => ?outside⟩
  case registers =>
    have heq := completeOk_eq_of_frame hu.frame
    rw [hu.dim, hu.flags, hu.stride, hlen, hu.result_lo, hu.result_hi, hu.pairs] at heq
    exact heq
  case stream => rw [← hlen, completeOk_reads_output hu.frame h.mem_wf, hu.out]
  case outside => exact completeOk_keeps_outside hu.frame a (hlen ▸ ha)

/-- Settles O39: ENCODE is the case of an empty seed. -/
theorem encodeWritesTheStream : Obligations.EncodeWritesTheStream :=
  fun _ h => encode_writes_stream (.inl ⟨rfl, rfl⟩) h

/-- Settles O40: ENCODE.KEEP is the case whose seed is the palette it finds. -/
theorem encodeKeepWritesTheStream : Obligations.EncodeKeepWritesTheStream :=
  fun _ h => encode_writes_stream (.inr ⟨rfl, rfl⟩) h

/-! ### DECODE -/

/-- DECODE and DECODE.XPAL under the host's duties run the same body. -/
theorem exec_decode_eq {i : Instr} {ext : Bool} {s : State}
    (hi : (i = .decode ∧ ext = false) ∨ (i = .decodeXpal ∧ ext = true)) (h : DecodeReady ext s) :
    exec i s = .next (runCommand (decodeBody ext) s) := by
  have run : ∀ {j : Instr}, j = .decode ∨ j = .decodeXpal →
      runGuarded (decodeDutyBroken j ext s) j true false true (decodeBody ext) s = runCommand (decodeBody ext) s :=
    fun hj => runGuarded_false (decodeDutyBroken_eq_false hj h.duties h.undisturbed) _ _ _ _ _ _
  rcases hi with ⟨rfl, rfl⟩ | ⟨rfl, rfl⟩
  · exact congrArg Host.Outcome.next (run (.inl rfl))
  · exact congrArg Host.Outcome.next (run (.inr rfl))

/-- The body of a successful DECODE or DECODE.XPAL of s, of a stream with header h, ends in u: its output is the pixels
replayed over the stream's palette slice, its result their number of bytes, and the header is loaded. -/
structure DecodeEnd (i : Instr) (ext : Bool) (s : State) (h : Header) (u : State) : Prop where
  frame : BodyFrame i (startCommand s) u
  pal : u.pal = s.pal
  pal_len : u.palLen = s.palLen
  stride : u.eng.strideOut = strideOf h.flags
  out : u.eng.out = replayedBytes s.mem (streamSlice ext s.eng.ops s.mem).1 (strideOf h.flags)
    (streamPairs s.eng.ops s.mem)
  length : u.eng.out.length = decodedSize h
  dim : u.dim = dimWord h.width h.height
  flags : u.flags = h.flags
  pairs : u.pairCount = h.pairCount
  result_lo : u.resultLo = BitVec.ofNat 32 (decodedSize h)
  result_hi : u.resultHi = 0

/-- DECODE and DECODE.XPAL of a sound stream complete from such an end. -/
theorem exec_decode_ok {i : Instr} {ext : Bool} {s : State}
    (hi : (i = .decode ∧ ext = false) ∨ (i = .decodeXpal ∧ ext = true)) (hready : DecodeReady ext s)
    (hsound : PairsSound ext s.eng.ops s.mem) :
    ∃ u, exec i s = .next (completeOk u) ∧ DecodeEnd i ext s (readHeader s.eng.ops s.mem) u := by
  obtain ⟨u, hbody, hregs, -, hstride, hout, hlen⟩ :=
    decodeBody_ok ext (startCommand s) hready.valid hready.room hsound
  have hi' : i = .decode ∨ i = .decodeXpal := hi.imp And.left And.left
  have hframe := bodyFrame_of_ok (ends_decode hi' ext s) hbody
  obtain ⟨hpal, hpalLen⟩ := hframe.table (by rcases hi' with rfl | rfl <;> rfl)
  refine ⟨u, by rw [exec_decode_eq hi hready, runCommand_ok hbody], hframe, hpal, hpalLen, hstride, hout, hlen,
    ?_, ?_, ?_, ?_, ?_⟩ <;> rw [hregs] <;> rfl

/-- What a successful DECODE or DECODE.XPAL leaves, the colours read from the stream's palette slice
(spec/20_memory.md R88, spec/45_rle_decoder.md R220, R224, R225). -/
theorem decode_writes_pixels {i : Instr} {ext : Bool} {s : State} {h : Header} {n : Nat}
    (hi : (i = .decode ∧ ext = false) ∨ (i = .decodeXpal ∧ ext = true)) (hready : DecodeReady ext s)
    (hsound : PairsSound ext s.eng.ops s.mem) (hh : h = readHeader s.eng.ops s.mem)
    (hn : n = h.width.toNat * h.height.toNat * strideOf h.flags) :
    ∃ t, exec i s = .next t ∧
      t = { s with
        status := statusWord (strideOf h.flags) 0
        dim := dimWord h.width h.height
        flags := h.flags
        pairCount := h.pairCount
        resultLo := BitVec.ofNat 32 n
        resultHi := 0
        wrCursor := BitVec.ofNat 32 n
        mem := t.mem
        eng := t.eng } ∧
      t.mem.readBytes s.eng.ops.dstAddr n = replayedBytes s.mem (streamSlice ext s.eng.ops s.mem).1
        (strideOf h.flags) (streamPairs s.eng.ops s.mem) ∧
      ∀ a : Word, n ≤ (a - s.eng.ops.dstAddr).toNat → t.mem.readByte a = s.mem.readByte a := by
  subst hh
  obtain ⟨u, hexec, hu⟩ := exec_decode_ok hi hready hsound
  have hsize : decodedSize (readHeader s.eng.ops s.mem) = n := hn.symm
  have hlen : u.eng.out.length = n := hu.length.trans hsize
  refine ⟨completeOk u, hexec, ?registers, ?pixels, fun a ha => ?outside⟩
  case registers =>
    have heq := completeOk_eq_of_frame hu.frame
    rw [hu.stride, hlen, hu.dim, hu.flags, hu.pairs, hu.result_lo, hu.result_hi, hu.pal, hu.pal_len, hsize] at heq
    exact heq
  case pixels => rw [← hlen, completeOk_reads_output hu.frame hready.mem_wf, hu.out]
  case outside => exact completeOk_keeps_outside hu.frame a (hlen ▸ ha)

/-- Settles O48: DECODE takes the embedded entries or, where the header says so, the external ones. -/
theorem decodeWritesThePixels : Obligations.DecodeWritesThePixels :=
  fun _ _ _ hready hsound hh hn => decode_writes_pixels (.inl ⟨rfl, rfl⟩) hready hsound hh hn

/-- The palette slice of DECODE.XPAL is the external one, whatever the header says (spec/45_rle_decoder.md R224). -/
theorem streamSlice_external_base (o : Operands) (m : Memory) : (streamSlice true o m).1 = o.xpalAddr := rfl

/-- Settles O49: the slice of DECODE.XPAL begins at the latched XPAL_ADDR. -/
theorem decodeXpalWritesThePixels : Obligations.DecodeXpalWritesThePixels := by
  intro s h n hready hsound hh hn
  rw [← streamSlice_external_base s.eng.ops s.mem]
  exact decode_writes_pixels (.inr ⟨rfl, rfl⟩) hready hsound hh hn

end Sys2Proof.Proofs
end

section
/-! PROOFS. The command word (spec/30_encoding.md R100 to R105): the decoder and the encoder read the same ten rows in
the two directions, and a word of no row stands for itself. -/

namespace Sys2Proof.Proofs
open Sys2Proof Sys2Proof.Machine

/-! ### The rows -/

/-- The word of a row decodes to the command of that row, and that command is encoded as the row's word. -/
theorem row_round_trip : ∀ row ∈ opcodeRows, decode row.1 = row.2.2 ∧ encode row.2.2 = row.1 := by decide

theorem row_wellFormed : ∀ row ∈ opcodeRows, row.2.2.wellFormed = true := by decide

theorem row_words_nodup : (opcodeRows.map Prod.fst).Nodup := by decide

/-- A command is the command of a row, or the illegal row. -/
theorem instr_row_or_illegal (i : Instr) : (∃ row ∈ opcodeRows, i = row.2.2) ∨ ∃ w, i = .illegal w := by
  cases i with
  | illegal w => exact .inr ⟨w, rfl⟩
  | _ => exact .inl (by decide)

/-- What the decoder can answer: the command of the row whose word w is, or w itself where no row has it. -/
theorem decode_cases (w : Word) :
    (∃ row ∈ opcodeRows, w = row.1 ∧ decode w = row.2.2) ∨
    ((∀ row ∈ opcodeRows, w ≠ row.1) ∧ decode w = .illegal w) := by
  by_cases h : ∃ row ∈ opcodeRows, w = row.1
  · obtain ⟨row, hr, rfl⟩ := h
    exact .inl ⟨row, hr, rfl, (row_round_trip row hr).1⟩
  · have hno : ∀ row ∈ opcodeRows, w ≠ row.1 := fun row hr hw => h ⟨row, hr, hw⟩
    exact .inr ⟨hno, decode_of_no_row hno⟩

/-- No word is listed twice, so a word matches one row at most. -/
theorem matching_rows_le_one (w : Word) : (opcodeRows.filter (rowMatches w)).length ≤ 1 := by
  have hmatch : ∀ row ∈ opcodeRows, rowMatches w row = true ↔ (row.1 == w) = true := fun row hr => by
    rw [rowMatches_iff hr, beq_iff_eq, eq_comm]
  calc (opcodeRows.filter (rowMatches w)).length
      = (opcodeRows.map Prod.fst).count w := by
        rw [← List.countP_eq_length_filter, List.countP_congr hmatch, List.count, List.countP_map]
        rfl
    _ ≤ 1 := List.nodup_iff_count_le_one.1 row_words_nodup w

/-! ### The round trips -/

theorem encode_decode (w : Word) : encode (decode w) = w := by
  rcases decode_cases w with ⟨row, hr, hw, hd⟩ | ⟨-, hd⟩
  · rw [hd, hw]
    exact (row_round_trip row hr).2
  · rw [hd, encode]

theorem decode_wellFormed (w : Word) : (decode w).wellFormed = true := by
  rcases decode_cases w with ⟨row, hr, -, hd⟩ | ⟨hno, hd⟩
  · rw [hd]
    exact row_wellFormed row hr
  · rw [hd]
    exact (illegalFields_iff w).2 hno

/-- Settles O3. A command of a row goes through the row's word; the word of a well-formed illegal row has illegal
fields, so no row takes it. -/
theorem decodeEncode : Obligations.DecodeEncode := by
  intro i hwf
  rcases instr_row_or_illegal i with ⟨row, hr, rfl⟩ | ⟨w, rfl⟩
  · obtain ⟨hdecode, hencode⟩ := row_round_trip row hr
    rw [hencode, hdecode]
  · exact decode_of_illegalFields hwf

/-- Settles O4, by what the decoder can answer. -/
theorem encodeDecode : Obligations.EncodeDecode := fun w => ⟨decode_wellFormed w, encode_decode w⟩

/-! ### The grouped masks -/

/-- One word decodes to the command of a row: the encoder recovers the word from what was decoded. -/
theorem decode_eq_row_iff {row : Word × Word × Instr} (hr : row ∈ opcodeRows) (w : Word) :
    decode w = row.2.2 ↔ w = row.1 := by
  obtain ⟨hdecode, hencode⟩ := row_round_trip row hr
  constructor
  · intro h
    rw [← encode_decode w, h, hencode]
  · rintro rfl
    exact hdecode

/-- A word is its bits off bit k together with bit k. -/
theorem word_split_bit (w : Word) (k : Nat) :
    w = w &&& ~~~BitVec.twoPow 32 k ||| if w.getLsbD k then BitVec.twoPow 32 k else 0#32 := by
  rw [← BitVec.and_twoPow, ← BitVec.and_or_distrib_left, BitVec.or_comm, BitVec.or_not_self, BitVec.and_allOnes]

/-- A mask that leaves out bit k takes the words that agree off that bit, one with the bit clear and one with it set. -/
theorem and_not_twoPow_eq_iff {k : Nat} {c : Word} (hc : c.getLsbD k = false) (w : Word) :
    w &&& ~~~BitVec.twoPow 32 k = c ↔ w = c ∨ w = c ||| BitVec.twoPow 32 k := by
  have hself : c &&& ~~~BitVec.twoPow 32 k = c := by simpa [hc] using (word_split_bit c k).symm
  constructor
  · rintro rfl
    have hsplit := word_split_bit w k
    split at hsplit
    · exact .inr hsplit
    · exact .inl (by simpa using hsplit)
  · rintro (rfl | rfl)
    · exact hself
    · rw [BitVec.and_comm, BitVec.and_or_distrib_left, BitVec.and_comm _ c, hself, BitVec.not_and_self]
      exact BitVec.or_zero

/-- Two rows whose words differ in bit k alone are selected together by the mask without that bit
(spec/30_encoding.md R105). -/
theorem decode_pair_iff {x y : Word × Word × Instr} (hx : x ∈ opcodeRows) (hy : y ∈ opcodeRows) {k : Nat}
    (hclear : x.1.getLsbD k = false) (hset : y.1 = x.1 ||| BitVec.twoPow 32 k) (w : Word) :
    (decode w = x.2.2 ∨ decode w = y.2.2) ↔ w &&& ~~~BitVec.twoPow 32 k = x.1 := by
  rw [and_not_twoPow_eq_iff hclear, decode_eq_row_iff hx, decode_eq_row_iff hy, hset]

/-! ### The illegal word -/

theorem decode_eq_illegal_iff (w : Word) : decode w = .illegal w ↔ illegalFields w = true := by
  constructor
  · intro h
    have hwf := decode_wellFormed w
    rwa [h] at hwf
  · exact decode_of_illegalFields

/-- R104's test as the conditions it lists. -/
theorem illegalFields_iff_fields (w : Word) : illegalFields w = true ↔
    (¬ (1 ≤ (w.extractLsb' 0 8).toNat ∧ (w.extractLsb' 0 8).toNat ≤ 7) ∨ w.extractLsb' 10 22 ≠ 0 ∨
      (w.getLsbD 8 = true ∧ w.extractLsb' 0 8 ≠ 0x01#8 ∧ w.extractLsb' 0 8 ≠ 0x02#8) ∨
      (w.getLsbD 9 = true ∧ w.extractLsb' 0 8 ≠ 0x07#8)) := by
  have hop : ∀ n : Byte, w.extractLsb' 0 8 = n ↔ (w.extractLsb' 0 8).toNat = n.toNat := fun _ => BitVec.toNat_inj.symm
  simp only [illegalFields, Bool.or_eq_true, Bool.and_eq_true, Bool.not_iff_not, decide_eq_true_eq, bne_iff_ne,
    beq_iff_eq, not_or, or_assoc, ne_eq, hop]
  rfl

theorem exec_illegal (w : Word) (s : State) :
    exec (.illegal w) s = .next (raiseError .illegalCommand (startCommand s)) := rfl

/-- An illegal word ends with DONE = 1 and ERRCODE = 11 (spec/40_command_protocol.md R146). -/
theorem exec_illegal_status (w : Word) (s : State) : ∃ t, exec (.illegal w) s = .next t ∧
    statusBusy t.status = false ∧ statusDone t.status = true ∧ statusErr t.status = 11 := by
  obtain ⟨hbusy, hdone, herr, -⟩ := statusWord_fields 0 (by decide) ErrCode.illegalCommand.code (ErrCode.code_mem _)
  exact ⟨_, exec_illegal w s, hbusy, hdone, herr⟩

/-- The issue of an illegal word leaves no transaction to wait out (log 9), so the next step completes it. -/
theorem step_issue_illegal {w : Word} (h : illegalFields w = true) (s : State) :
    step (issue w s) = exec (.illegal w) (issue w s) := by
  have hturn : (issue w s).eng.busyLeft = 0 := if_pos h
  rw [step_exec statusBusy_issued (.inl hturn)]
  exact congrArg (exec · (issue w s)) (decode_of_illegalFields h)

/-! ### The statements of the table and of the illegal words -/

/-- Settles O1. The table is read off; the rest are the laws of the rows, of no row, and of two rows that differ in one
bit. -/
theorem decodingRule : Obligations.DecodingRule := by
  refine ⟨rfl, fun w => ⟨fun row hr => ?row, matching_rows_le_one w, fun hno => ?noRow, ?encode, ?decode, ?palFind⟩⟩
  case row => exact ⟨rowMatches_iff hr w, (decode_eq_row_iff hr w).2⟩
  case noRow =>
    have hd := decode_of_no_row hno
    refine ⟨hd, fun s => ?_⟩
    obtain ⟨t, ht, -, hdone, herr⟩ := exec_illegal_status w s
    exact ⟨t, hd ▸ ht, hdone, herr⟩
  case encode =>
    exact decode_pair_iff (x := (0x001, 0xFFFFFFFF, .encode)) (y := (0x101, 0xFFFFFFFF, .encodeKeep)) (k := 8)
      (by decide) (by decide) (by decide) (by decide) w
  case decode =>
    exact decode_pair_iff (x := (0x002, 0xFFFFFFFF, .decode)) (y := (0x102, 0xFFFFFFFF, .decodeXpal)) (k := 8)
      (by decide) (by decide) (by decide) (by decide) w
  case palFind =>
    exact decode_pair_iff (x := (0x007, 0xFFFFFFFF, .palFind)) (y := (0x207, 0xFFFFFFFF, .palFindA)) (k := 9)
      (by decide) (by decide) (by decide) (by decide) w

/-- Settles O2. The write of CMD is `issue`, which leaves an illegal word nothing to wait out. -/
theorem illegalWords : Obligations.IllegalWords := by
  intro w s rest
  refine ⟨(decode_eq_illegal_iff w).trans (illegalFields_iff_fields w), fun hd hb hh => ?issued⟩
  case issued =>
    have hfields := (decode_eq_illegal_iff w).1 hd
    obtain ⟨u, hu, hbusy, hdone, herr⟩ := exec_illegal_status w (issue w { s with host := rest })
    exact ⟨_, u, step_serveIdle hb hh, statusBusy_issued, (step_issue_illegal hfields _).trans hu, hbusy, hdone, herr⟩

/-! ### Words as the opcode table numbers their bits -/

theorem decodeTableWord_toNat (w : Word) : decodeTableWord 32 w.toNat = some (decode w) := by
  rw [decodeTableWord, if_pos (by decide), Nat.mod_eq_of_lt w.isLt, BitVec.ofNat_toNat, BitVec.setWidth_eq]

theorem decodeTableWord_row (row : Word × Word × Instr) (hr : row ∈ opcodeRows) :
    decodeTableWord 32 row.1.toNat = some row.2.2 := by
  rw [decodeTableWord_toNat, (row_round_trip row hr).1]

theorem decodeTableWord_illegal {w : Word} (h : illegalFields w = true) :
    decodeTableWord 32 w.toNat = some (.illegal w) := by
  rw [decodeTableWord_toNat, decode_of_illegalFields h]

/-- Settles O5: the ten rows in the table's order, then three words with illegal fields. -/
theorem writtenWordsDecode : Obligations.WrittenWordsDecode := by
  have hrows := decodeTableWord_row
  simp only [opcodeRows, List.forall_mem_cons, List.not_mem_nil, false_imp_iff, implies_true, and_true] at hrows
  obtain ⟨h1, h2, h3, h4, h5, h6, h7, h8, h9, h10⟩ := hrows
  exact ⟨h1, h2, h3, h4, h5, h6, h7, h8, h9, h10, decodeTableWord_illegal (w := 0x000) (by decide),
    decodeTableWord_illegal (w := 0x201) (by decide), decodeTableWord_illegal (w := 0x107) (by decide)⟩

end Sys2Proof.Proofs
end

section
/-! PROOFS. The command protocol (spec/40_command_protocol.md R141 to R147): how a command starts, how the host's
transactions delay it, and how it completes. -/

namespace Sys2Proof.Proofs
open Sys2Proof Sys2Proof.Machine

/-! ### Completion -/

/-- The fields of STATUS after any completion (spec/10_state.md R35, spec/40_command_protocol.md R144). -/
theorem completion_status_fields {i : Instr} {s t : State} (h : Completion i s t) :
    statusBusy t.status = false ∧ statusDone t.status = true ∧
    t.status.extractLsb' 2 6 = 0 ∧ t.status.extractLsb' 20 12 = 0 ∧
    (statusStride t.status = 0 ∨ statusStride t.status = 3 ∨ statusStride t.status = 4) ∧
    (statusErr t.status).toNat ∈ completionCodes i := by
  obtain ⟨st, hst, code, hcode, hstatus⟩ := h.status
  have hlt : code < 12 := completionCodes_lt hcode
  obtain ⟨hbusy, hdone, herr, hstride, hlow, hhigh⟩ := statusWord_fields st hst code (List.mem_range.2 hlt)
  rw [← hstatus] at hbusy hdone herr hstride hlow hhigh
  refine ⟨hbusy, hdone, hlow, hhigh, ?stride, ?err⟩
  case stride =>
    rw [hstride]
    simp only [List.mem_cons, List.not_mem_nil, or_false] at hst
    rcases hst with rfl | rfl | rfl
    · exact .inl rfl
    · exact .inr (.inl rfl)
    · exact .inr (.inr rfl)
  case err =>
    have hcodeNat : (BitVec.ofNat 8 code).toNat = code := Nat.mod_eq_of_lt (by omega)
    rwa [herr, hcodeNat]

/-- Settles O15. The bounds are those of any completion; the error table of the statement holds the codes of
`completionCodes`, but for the illegal word, which cannot end without its error. -/
theorem everyCommandCompletes : Obligations.EveryCommandCompletes := by
  intro i s
  obtain ⟨t, ht, hc⟩ := exec_completes i s
  obtain ⟨hbusy, hdone, hlow, hhigh, hstride, herr⟩ := completion_status_fields hc
  refine ⟨t, ht, hbusy, hdone, hlow, hhigh, hstride, ?code⟩
  case code =>
    cases i with
    | illegal w =>
      obtain ⟨u, hu, -, -, h11⟩ := exec_illegal_status w s
      obtain rfl : u = t := Host.Outcome.next.inj (hu.symm.trans ht)
      rw [h11]
      exact List.mem_singleton.2 rfl
    | _ => exact (by decide : completionCodes _ ⊆ _) herr

/-! ### The illegal word -/

/-- An error raised before anything was appended leaves memory and the draws alone (spec/60_exceptions.md R253). -/
theorem raiseError_of_no_output (e : ErrCode) {s : State} (h : s.eng.out = []) :
    raiseError e s = { s with
      status := statusWord s.eng.strideOut e.code
      resultLo := 0
      resultHi := 0
      wrCursor := 0
      eng := Engine.idle } := by
  have hc : s.eng.cursor = 0 := List.length_eq_zero_iff.2 h
  simp [raiseError, hc]

/-- Settles O55. The body raises at once, so nothing was written and no stride fixed: STATUS is the error's word with
stride 0. -/
theorem illegalCommand : Obligations.IllegalCommand := by
  refine ⟨decode_of_illegalFields (by decide), decode_of_illegalFields (by decide),
    decode_of_illegalFields (by decide), decode_of_illegalFields (by decide),
    fun w s => ⟨_, exec_illegal w s, ?effect⟩⟩
  case effect =>
    have hword : statusWord 0 ErrCode.illegalCommand.code = 0x00000B02#32 := by decide
    rw [raiseError_of_no_output .illegalCommand rfl, ← hword]
    rfl

/-! ### Dispatch -/

/-- Settles O6, by the two laws of a busy engine's step. -/
theorem stepRunsDecodedCommand : Obligations.StepRunsDecodedCommand := by
  rintro s i hb rfl -
  exact ⟨fun hturn => step_exec hb hturn, fun t rest hl hh => step_serveBusy hb hl hh⟩

theorem withFetchWord_toNat (s : State) (w : Word) : s.withFetchWord 32 w.toNat = issueFor 0 w s := by
  rw [State.withFetchWord, Nat.mod_eq_of_lt w.isLt, BitVec.ofNat_toNat, BitVec.setWidth_eq]

/-- Settles O7: the state is that of an issue with no transaction to wait out. -/
theorem fetchedWordRuns : Obligations.FetchedWordRuns := by
  intro s w
  rw [withFetchWord_toNat]
  exact ⟨step_exec statusBusy_issued (.inl rfl), rfl, rfl⟩

/-- A busy engine drops a register write (spec/10_state.md R54). -/
theorem serveBusy_write {off : BitVec 11} (h : portAccessOk .word off = true) (v : Word) (s : State) :
    serveBusy (.regWrite .word off v) s = .next s := if_pos h

theorem serveBusy_read {off : BitVec 11} (h : portAccessOk .word off = true) (s : State) :
    serveBusy (.regRead .word off) s = .next (busyRead off s) := if_pos h

/-- Settles O9: the busy port drops the write, and no completion touches CMD. -/
theorem cmdWriteWhileBusyIgnored : Obligations.CmdWriteWhileBusyIgnored := by
  intro s w rest hb hl hh
  refine ⟨?dropped, fun i => ?kept⟩
  case dropped => exact (step_serveBusy hb hl hh).trans (serveBusy_write (portAccessOk_regOffset .cmd) w _)
  case kept =>
    obtain ⟨t, ht, hc⟩ := exec_completes i
      { s with host := rest, eng := { s.eng with busyLeft := s.eng.busyLeft - 1 } }
    exact ⟨t, ht, hc.host.cmd⟩

/-! ### Runs of a busy engine -/

/-- A transaction served while a command runs either abandons it by a reset, or leaves STATUS, the host's queue and
the number of transactions to wait out as they are. -/
theorem serveBusy_keeps_wait {tx : HostTxn} {s t : State} (h : serveBusy tx s = .next t) :
    statusBusy t.status = false ∨
      (t.status = s.status ∧ t.host = s.host ∧ t.eng.busyLeft = s.eng.busyLeft) := by
  rcases serveBusy_cases h with ⟨m, d, n, b, rfl, -⟩ | rfl
  · exact .inr ⟨rfl, rfl, rfl⟩
  · exact .inl statusBusy_zero

/-- At most k steps lead from s to a state without a running command. -/
def EndsWithin (k : Nat) (s : State) : Prop :=
  ∃ n t, n ≤ k ∧ runSteps n s = .next t ∧ statusBusy t.status = false

theorem endsWithin_of_idle {s : State} (k : Nat) (h : statusBusy s.status = false) : EndsWithin k s :=
  ⟨0, s, Nat.zero_le k, rfl, h⟩

theorem endsWithin_of_step {k : Nat} {s u : State} (h : step s = .next u) (hu : EndsWithin k u) :
    EndsWithin (k + 1) s := by
  obtain ⟨n, t, hn, hrun, hidle⟩ := hu
  exact ⟨n + 1, t, Nat.succ_le_succ hn, (runSteps_succ n h).trans hrun, hidle⟩

/-- Where the engine's turn has come, the next step completes the command (spec/40_command_protocol.md R145). -/
theorem endsWithin_of_turn (k : Nat) {s : State} (hb : statusBusy s.status = true)
    (h : s.eng.busyLeft = 0 ∨ s.host = []) : EndsWithin (k + 1) s := by
  obtain ⟨t, ht, hc⟩ := exec_completes (decode s.cmd) s
  obtain ⟨hidle, -⟩ := completion_status_fields hc
  exact endsWithin_of_step ((step_exec hb h).trans ht) (endsWithin_of_idle k hidle)

/-- A busy engine with k transactions to wait out ends within k + 1 steps, by induction on k: each step serves one of
them, or is a reset, or runs the command. -/
theorem endsWithin_busyLeft {k : Nat} {s : State} (hk : s.eng.busyLeft = k) (hb : statusBusy s.status = true)
    (hin : ∀ tx ∈ s.host, tx.inContract = true) : EndsWithin (k + 1) s := by
  induction k generalizing s with
  | zero => exact endsWithin_of_turn 0 hb (.inl hk)
  | succ k ih =>
    cases hh : s.host with
    | nil => exact endsWithin_of_turn (k + 1) hb (.inr hh)
    | cons tx rest =>
      rw [hh] at hin
      obtain ⟨htx, hrest⟩ := List.forall_mem_cons.1 hin
      obtain ⟨u, hu⟩ := serveBusy_next htx
        { s with host := rest, eng := { s.eng with busyLeft := s.eng.busyLeft - 1 } }
      refine endsWithin_of_step ((step_serveBusy hb (by omega) hh).trans hu) ?_
      rcases serveBusy_keeps_wait hu with hidle | ⟨hstatus, hhost, hleft⟩
      · exact endsWithin_of_idle (k + 1) hidle
      · have huk : u.eng.busyLeft = k := by simp [hleft, hk]
        exact ih huk (hstatus ▸ hb) (hhost ▸ hrest)

/-- Settles O16, with k the wait that the state holds. -/
theorem commandsFinish : Obligations.CommandsFinish := fun _ => endsWithin_busyLeft rfl

/-! ### A host that polls STATUS -/

/-- The state after a poll of STATUS by the host, which then still has `rest` to send. -/
def afterPoll (rest : List HostTxn) (s : State) : State :=
  { s with host := rest, hostData := s.status, eng := { s.eng with busyLeft := s.eng.busyLeft - 1 } }

/-- A poll of a busy engine returns STATUS as it stands and changes nothing of the engine but its wait. -/
theorem step_poll {s : State} {rest : List HostTxn} (hb : statusBusy s.status = true) (hl : s.eng.busyLeft ≠ 0)
    (hh : s.host = .regRead .word 4 :: rest) : step s = .next (afterPoll rest s) :=
  (step_serveBusy hb hl hh).trans (serveBusy_read (portAccessOk_regOffset .status) _)

/-- How long a command waited for the host does not show in what it does. -/
theorem exec_setBusyLeft (i : Instr) (k : Nat) (s : State) :
    exec i { s with eng := { s.eng with busyLeft := k } } = exec i s :=
  exec_withLeftovers (e := { s.eng with busyLeft := k }) rfl s.status s.resultLo s.resultHi s.wrCursor rfl i

/-- Where the engine's turn has come, a run of one step is the command. -/
theorem runSteps_one_exec {s : State} (hb : statusBusy s.status = true) (h : s.eng.busyLeft = 0 ∨ s.host = []) :
    runSteps 1 s = exec (decode s.cmd) s := by
  simp only [runSteps, step_exec hb h]
  obtain ⟨t, ht, -⟩ := exec_completes (decode s.cmd) s
  rw [ht]

/-- A run over n polls with k transactions to wait out, by induction on k: a poll that is served returns the STATUS
of the start, which the polls after it return again. -/
theorem runSteps_polls {k n : Nat} {s : State} (hk : s.eng.busyLeft = k) (hb : statusBusy s.status = true)
    (hh : s.host = List.replicate n (.regRead .word 4)) :
    runSteps (min n k + 1) s = exec (decode s.cmd)
      { s with host := s.host.drop k, hostData := if min n k = 0 then s.hostData else s.status } := by
  induction k generalizing s n with
  | zero =>
    rw [Nat.min_zero]
    exact runSteps_one_exec hb (.inl hk)
  | succ k ih =>
    cases n with
    | zero =>
      have hdrop : s.host.drop (k + 1) = s.host := by rw [hh]; rfl
      rw [Nat.zero_min, hdrop]
      exact runSteps_one_exec hb (.inr hh)
    | succ n =>
      have hstep : step s = .next (afterPoll (List.replicate n (.regRead .word 4)) s) :=
        step_poll hb (by omega) hh
      have hleft : (afterPoll (List.replicate n (.regRead .word 4)) s).eng.busyLeft = k := by simp [afterPoll, hk]
      rw [Nat.succ_min_succ, runSteps_succ _ hstep, ih hleft hb rfl, if_neg (Nat.succ_ne_zero _), hh]
      -- Whether or not a later poll is served, the host holds the STATUS it polled first.
      dsimp only [afterPoll]
      rw [ite_self]
      exact exec_setBusyLeft (decode s.cmd) (s.eng.busyLeft - 1)
        { s with host := (List.replicate (n + 1) (.regRead .word 4)).drop (k + 1), hostData := s.status }

/-- Settles O17, with k the wait that the state holds. -/
theorem polledCommandIsOneTransition : Obligations.PolledCommandIsOneTransition :=
  fun _ _ => runSteps_polls rfl

end Sys2Proof.Proofs
end

section
/-! PROOFS. The capacity of the byte buffer writer (spec/41_buffer_writer.md R161, R164): where a command's stream has n
bytes, its body either puts them all or raises OutputTooLarge, and its completion reports which in STATUS, RESULT_LO
and WR_CURSOR. -/

namespace Sys2Proof.Proofs
open Sys2Proof Sys2Proof.Machine

/-! ### What a completion reports of the writer -/

/-- A body that raises an error ends inside its command's frame. -/
theorem bodyFrame_of_raise {i : Instr} {s u : State} {e : ErrCode} {body : State → Flow}
    (h : Ends i (startCommand s) (body (startCommand s))) (hb : body (startCommand s) = .raise e u) :
    BodyFrame i (startCommand s) u := by
  rw [hb] at h
  exact h.2

/-- The completion t of a command from s whose stream has n bytes enforces its capacity: with room for n bytes it
succeeds with the cursor at n, with less it is OutputTooLarge within the capacity (spec/41_buffer_writer.md R164). -/
def EnforcesCapacity (n : Nat) (s t : State) : Prop :=
  (n ≤ s.eng.ops.dstCap.toNat → statusErr t.status = 0 ∧ t.wrCursor.toNat = n) ∧
  (s.eng.ops.dstCap.toNat < n →
    statusErr t.status = 6 ∧ t.resultLo = 0 ∧ t.wrCursor.toNat ≤ s.eng.ops.dstCap.toNat)

section
variable {i : Instr} {s u : State} (hu : BodyFrame i (startCommand s) u)
include hu

/-- The cursor of a body is at most DST_CAP, so WR_CURSOR holds it whole (spec/10_state.md R49). -/
theorem ofNat_cursor_toNat : (BitVec.ofNat 32 u.eng.cursor).toNat = u.eng.out.length := by
  have hroom : u.eng.out.length ≤ s.eng.ops.dstCap.toNat := hu.room
  exact Nat.mod_eq_of_lt (hroom.trans_lt s.eng.ops.dstCap.isLt)

/-- A body that put all n bytes had room for them, and completes without error. -/
theorem completeOk_enforcesCapacity {n : Nat} (hn : u.eng.out.length = n) : EnforcesCapacity n s (completeOk u) := by
  have hroom : u.eng.out.length ≤ s.eng.ops.dstCap.toNat := hu.room
  refine ⟨fun _ => ⟨statusErr_statusWord hu.stride (by decide), ?_⟩, fun hlt => absurd hroom (by omega)⟩
  exact (ofNat_cursor_toNat hu).trans hn

/-- A body that raised OutputTooLarge reports it with a cursor within the capacity. -/
theorem raiseError_enforcesCapacity {n : Nat} (hn : s.eng.ops.dstCap.toNat < n) :
    EnforcesCapacity n s (raiseError .outputTooLarge u) := by
  refine ⟨fun hle => absurd hn (by omega), fun _ => ⟨statusErr_statusWord hu.stride (by decide), rfl, ?_⟩⟩
  exact (ofNat_cursor_toNat hu).trans_le hu.room

end

/-! ### The commands -/

/-- ENCODE and ENCODE.KEEP of at most 256 colours, from the palette entries `seed`, enforce the capacity for the
stream of the image (spec/44_rle_encoder.md R207, R212). -/
theorem encode_enforcesCapacity {i : Instr} {s : State} {seed : List Word}
    (hi : (i = .encode ∧ seed = []) ∨ (i = .encodeKeep ∧ seed = s.palette)) (h : EncodeStarts s)
    (hc : (encodedPalette s.eng.ops s.mem seed).length ≤ 256) :
    ∃ t, exec i s = .next t ∧ EnforcesCapacity (encodedLength s.eng.ops s.mem seed) s t := by
  rcases Nat.lt_or_ge s.eng.ops.dstCap.toNat (encodedLength s.eng.ops s.mem seed) with hsmall | hroom
  · obtain ⟨keep, hseed, hexec⟩ := exec_encode_eq hi h
    obtain ⟨u, hbody, -⟩ :=
      encodeBody_big keep (startCommand s) seed hseed h.flags h.width h.height hc hsmall
    have hi' : encodes i = true := by rcases hi with ⟨rfl, -⟩ | ⟨rfl, -⟩ <;> rfl
    have hframe := bodyFrame_of_raise (ends_encode hi' keep s) hbody
    exact ⟨_, runCommand_raise hbody ▸ hexec, raiseError_enforcesCapacity hframe hsmall⟩
  · obtain ⟨u, hexec, hu⟩ := exec_encode_ok hi ⟨h, hc, hroom⟩
    have hlen : u.eng.out.length = encodedLength s.eng.ops s.mem seed := by rw [hu.out, length_encodedStream]
    exact ⟨_, hexec, completeOk_enforcesCapacity hu.frame hlen⟩

/-- HDR_WRITE with the reserved flags 0 enforces the capacity for the 16 bytes of a header
(spec/42_header_codec.md R175). -/
theorem hdrWrite_enforcesCapacity {s : State} (h : DestReady s) (hf : reservedFlags s.eng.ops.flags = 0) :
    ∃ t, exec .hdrWrite s = .next t ∧ EnforcesCapacity 16 s t := by
  have hexec : exec .hdrWrite s = .next (runCommand hdrWriteBody s) :=
    congrArg Host.Outcome.next (runGuarded_false (hdrWriteDutyBroken_eq_false h) _ _ _ _ _ _)
  rcases hdrWriteBody_cases (startCommand s) with ⟨hflags, -⟩ | ⟨-, hsmall, hbody⟩ | ⟨-, -, hbody⟩
  · exact absurd hf hflags
  · exact ⟨_, runCommand_raise hbody ▸ hexec,
      raiseError_enforcesCapacity (bodyFrame_of_raise (ends_hdrWrite s) hbody) hsmall⟩
  · exact ⟨_, runCommand_ok hbody ▸ hexec,
      completeOk_enforcesCapacity (bodyFrame_of_ok (ends_hdrWrite s) hbody) rfl⟩

/-- Settles O45: ENCODE is the case of an empty seed, ENCODE.KEEP the one of the palette it finds, and HDR_WRITE's
stream is the header alone. -/
theorem capacityEnforced : Obligations.CapacityEnforced := by
  intro s
  refine ⟨encode_enforcesCapacity (.inl ⟨rfl, rfl⟩), encode_enforcesCapacity (.inr ⟨rfl, rfl⟩), fun h hf => ?_⟩
  obtain ⟨t, hexec, hroom, hsmall⟩ := hdrWrite_enforcesCapacity h hf
  refine ⟨t, hexec, fun hle => ?_, fun hlt => ?_⟩
  · obtain ⟨herr, hcursor⟩ := hroom hle
    exact ⟨herr, BitVec.eq_of_toNat_eq hcursor⟩
  · obtain ⟨herr, hresult, -⟩ := hsmall hlt
    exact ⟨herr, hresult⟩

end Sys2Proof.Proofs
end

section
/-! PROOFS. The header codec (spec/42_header_codec.md R170 to R177) and the checks ENCODE makes before its scan
(spec/44_rle_encoder.md R212): a command whose checks fail reports the first that does and leaves memory alone;
HDR_PARSE and HDR_WRITE are inverse on the fields of a header. -/

namespace Sys2Proof.Proofs
open Sys2Proof Sys2Proof.Machine

/-! ### A check that fails -/

/-- A command whose body raises before anything was appended completes in the state it stood in, with the error
reported (spec/60_exceptions.md R253). -/
theorem exec_raise_of_no_output {i : Instr} {body : State → Flow} {s u : State} {e : ErrCode}
    (hexec : exec i s = .next (runCommand body s)) (hbody : body (startCommand s) = .raise e u)
    (hout : u.eng.out = []) :
    exec i s = .next { u with
      status := statusWord u.eng.strideOut e.code
      resultLo := 0
      resultHi := 0
      wrCursor := 0
      eng := Engine.idle } := by
  rw [hexec, runCommand_raise hbody, raiseError_of_no_output e hout]

/-! ### HDR_PARSE -/

theorem exec_hdrParse_eq {s : State} (h : headerDutyBroken .hdrParse s = false) :
    exec .hdrParse s = .next (runCommand hdrParseBody s) :=
  congrArg Host.Outcome.next (runGuarded_false h _ _ _ _ _ _)

/-- What HDR_PARSE's body can do (spec/42_header_codec.md R170, R172): ParseHeader's error, or the size of the image the
header describes. -/
theorem hdrParseBody_cases (s : State) :
    (s.eng.ops.srcLen.toNat < 16 ∧ hdrParseBody s = .raise .truncatedStream s) ∨
    (16 ≤ s.eng.ops.srcLen.toNat ∧ ∃ e, headerError (readHeader s.eng.ops s.mem) = some e ∧
      hdrParseBody s = .raise e (loadHeader (readHeader s.eng.ops s.mem) s)) ∨
    (16 ≤ s.eng.ops.srcLen.toNat ∧ headerError (readHeader s.eng.ops s.mem) = none ∧
      hdrParseBody s = .ok (setResult (decodedSize (readHeader s.eng.ops s.mem))
        (loadHeader (readHeader s.eng.ops s.mem) s))) := by
  unfold hdrParseBody
  rcases parseHeader_cases s with ⟨hlen, h⟩ | ⟨hlen, e, he, h⟩ | ⟨hlen, he, h⟩ <;> rw [h]
  · exact .inl ⟨hlen, rfl⟩
  · exact .inr (.inl ⟨hlen, e, he, rfl⟩)
  · exact .inr (.inr ⟨hlen, he, rfl⟩)

/-- The codes of ParseHeader's checks, in their order (spec/42_header_codec.md R171). -/
theorem headerError_code (h : Header) :
    (headerError h).elim 0 ErrCode.code =
      if h.magic ≠ Config.pieMagic then 1
      else if h.version ≠ Config.pieVersion then 2
      else if h.width = 0 ∨ h.height = 0 then 3
      else 0 := by
  unfold headerError
  split_ifs <;> rfl

/-- A source of fewer than 16 bytes is TruncatedStream and loads nothing (spec/42_header_codec.md R170). -/
theorem hdrParse_of_short {s : State} (hlen : s.eng.ops.srcLen.toNat < 16) :
    ∃ t, exec .hdrParse s = .next t ∧
      t = { s with status := statusWord 0 8, resultLo := 0, resultHi := 0, wrCursor := 0, eng := t.eng } := by
  rcases hdrParseBody_cases (startCommand s) with ⟨-, hbody⟩ | ⟨hlen', -⟩ | ⟨hlen', -⟩
  · exact ⟨_, exec_raise_of_no_output (exec_hdrParse_eq (headerDutyBroken_of_short hlen)) hbody rfl, rfl⟩
  · exact absurd hlen (Nat.not_lt.2 hlen')
  · exact absurd hlen (Nat.not_lt.2 hlen')

/-- A header that fails a check is loaded all the same (spec/42_header_codec.md R170, R171). -/
theorem hdrParse_of_error {s : State} {e : ErrCode} (hready : SourceReady s) (hlen : 16 ≤ s.eng.ops.srcLen.toNat)
    (he : headerError (readHeader s.eng.ops s.mem) = some e) :
    exec .hdrParse s = .next { loadHeader (readHeader s.eng.ops s.mem) s with
      status := statusWord (strideOf (readHeader s.eng.ops s.mem).flags) e.code
      resultLo := 0
      resultHi := 0
      wrCursor := 0
      eng := Engine.idle } := by
  rcases hdrParseBody_cases (startCommand s) with ⟨hlen', -⟩ | ⟨-, e', he', hbody⟩ | ⟨-, he', -⟩
  · exact absurd hlen (Nat.not_le.2 hlen')
  · obtain rfl : e = e' := Option.some.inj (he.symm.trans he')
    rw [exec_raise_of_no_output (exec_hdrParse_eq (headerDutyBroken_eq_false (.inl rfl) hready)) hbody rfl]
    rfl
  · cases he.symm.trans he'

/-- Settles O33: the codes of the statement are those of ParseHeader's checks. -/
theorem hdrParseChecksInOrder : Obligations.HdrParseChecksInOrder := by
  refine fun s => ⟨hdrParse_of_short, ?checks⟩
  case checks =>
    rintro _ code hready hlen rfl hcode hne
    rw [← headerError_code] at hcode
    cases he : headerError (readHeader s.eng.ops s.mem) with
    | none =>
      rw [he] at hcode
      exact absurd hcode hne
    | some e =>
      obtain rfl : code = e.code := by rw [hcode, he, Option.elim_some]
      exact ⟨_, hdrParse_of_error hready hlen he, rfl⟩

/-- A header without error is loaded and its decoded size reported (spec/42_header_codec.md R172). -/
theorem hdrParse_of_no_error {s : State} (hready : SourceReady s) (hlen : 16 ≤ s.eng.ops.srcLen.toNat)
    (he : headerError (readHeader s.eng.ops s.mem) = none) :
    exec .hdrParse s = .next (completeOk (setResult (decodedSize (readHeader s.eng.ops s.mem))
      (loadHeader (readHeader s.eng.ops s.mem) (startCommand s)))) := by
  rcases hdrParseBody_cases (startCommand s) with ⟨hlen', -⟩ | ⟨-, e', he', -⟩ | ⟨-, -, hbody⟩
  · exact absurd hlen (Nat.not_le.2 hlen')
  · cases he.symm.trans he'
  · rw [exec_hdrParse_eq (headerDutyBroken_eq_false (.inl rfl) hready), runCommand_ok hbody]
    rfl

/-- The header in 16 serialized bytes at SRC_ADDR (spec/42_header_codec.md R170, R174). -/
theorem readHeader_of_serialized {o : Operands} {m : Memory} {w h : BitVec 16} {f p : Word}
    (hbytes : m.readBytes o.srcAddr 16 = serializeHeader w h f p) :
    readHeader o m =
      { magic := Config.pieMagic, version := Config.pieVersion, flags := f, width := w, height := h,
        pairCount := p } := by
  rw [readHeader, hbytes, headerOfBytes_serializeHeader]

/-- Settles O32: the header read is the one serialized, which passes every check. -/
theorem hdrParseGivesFieldsAndSize : Obligations.HdrParseGivesFieldsAndSize := by
  intro s w h f p hready hlen hw hh hbytes
  have hread := readHeader_of_serialized hbytes
  have hnone : headerError (readHeader s.eng.ops s.mem) = none := by
    rw [hread]
    exact headerError_eq_none rfl rfl hw hh
  refine ⟨_, hdrParse_of_no_error hready hlen hnone, ?registers⟩
  case registers =>
    rw [hread]
    rfl

/-! ### HDR_WRITE -/

theorem exec_hdrWrite_eq {s : State} (h : hdrWriteDutyBroken s = false) :
    exec .hdrWrite s = .next (runCommand hdrWriteBody s) :=
  congrArg Host.Outcome.next (runGuarded_false h _ _ _ _ _ _)

/-- Settles O35: the two ways HDR_WRITE's body raises. -/
theorem hdrWriteRefusals : Obligations.HdrWriteRefusals := by
  intro s
  rcases hdrWriteBody_cases (startCommand s) with ⟨hflags, hbody⟩ | ⟨hflags, hsmall, hbody⟩ | ⟨hflags, hroom, -⟩
  · have hexec := exec_hdrWrite_eq (s := s) (hdrWriteDutyBroken_of_error fun h => hflags h.1)
    exact ⟨fun _ => ⟨_, exec_raise_of_no_output hexec hbody rfl, rfl⟩, fun h => absurd h hflags⟩
  · have hexec := exec_hdrWrite_eq (s := s) (hdrWriteDutyBroken_of_error fun h => Nat.not_le.2 hsmall h.2)
    exact ⟨fun h => absurd hflags h, fun _ _ => ⟨_, exec_raise_of_no_output hexec hbody rfl, rfl⟩⟩
  · exact ⟨fun h => absurd hflags h, fun _ hsmall => absurd hsmall (Nat.not_lt.2 hroom)⟩

/-- Settles O34: the body's output is the serialized header, which fits DST_CAP. -/
theorem hdrWriteWritesTheHeader : Obligations.HdrWriteWritesTheHeader := by
  intro s hready hm hflags hroom
  rcases hdrWriteBody_cases (startCommand s) with ⟨hflags', -⟩ | ⟨-, hsmall, -⟩ | ⟨-, -, hbody⟩
  · exact absurd hflags hflags'
  · exact absurd hsmall (Nat.not_lt.2 hroom)
  · have hframe := bodyFrame_of_ok (ends_hdrWrite s) hbody
    refine ⟨_, (exec_hdrWrite_eq (hdrWriteDutyBroken_eq_false hready)).trans
      (congrArg Host.Outcome.next (runCommand_ok hbody)), ?registers, ?bytes, fun a ha => ?outside⟩
    case registers => exact completeOk_eq_of_frame hframe
    case bytes => exact completeOk_reads_output hframe hm
    case outside => exact completeOk_keeps_outside hframe a ha

/-! ### The round trip -/

/-- DIM is made of its two fields (spec/10_state.md R42). -/
theorem dimWord_dimWidth_dimHeight (d : Word) : dimWord (dimWidth d) (dimHeight d) = d := by
  ext i hi
  rcases Nat.lt_or_ge i 16 with hlow | hhigh
  · simp [dimWord, dimWidth, dimHeight, hlow, BitVec.getLsbD_eq_getElem hi]
  · have hi' : i - 16 < 16 := by omega
    simp [dimWord, dimWidth, dimHeight, hhigh, hi', BitVec.getLsbD_eq_getElem hi]

/-- Settles O36: the bytes HDR_WRITE left are a serialized header, and HDR_PARSE gives back what was serialized. -/
theorem headerRoundTrip : Obligations.HeaderRoundTrip := by
  intro s t u hready hm hflags hroom hw hh hwrite hmem haddr hlen hsource
  obtain ⟨t', hwrite', -, hbytes, -⟩ := hdrWriteWritesTheHeader s hready hm hflags hroom
  obtain rfl : t' = t := Host.Outcome.next.inj (hwrite'.symm.trans hwrite)
  rw [← hmem, ← haddr] at hbytes
  obtain ⟨v, hparse, hv⟩ := hdrParseGivesFieldsAndSize u _ _ _ _ hsource hlen hw hh hbytes
  refine ⟨v, hparse, ?err, ?dim, ?flags, ?pairs⟩ <;> rw [hv]
  case err => exact statusErr_statusWord (stride_mem _) (by decide)
  case dim => exact dimWord_dimWidth_dimHeight _

/-! ### ENCODE before its scan -/

theorem exec_encode_eq_of_duties {i : Instr} {s : State} (hi : i = .encode ∨ i = .encodeKeep)
    (h : encodeDutyBroken i s = false) : exec i s = .next (runCommand (encodeBody (i == .encodeKeep)) s) := by
  rcases hi with rfl | rfl <;> exact congrArg Host.Outcome.next (runGuarded_false h _ _ _ _ _ _)

/-- Settles O44: the three ways ENCODE's body raises before its scan. -/
theorem encodeChecksInOrder : Obligations.EncodeChecksInOrder := by
  intro i s hi
  rcases encodeBody_cases (i == .encodeKeep) (startCommand s) with
    ⟨hflags, hbody⟩ | ⟨hflags, hdim, hbody⟩ | ⟨hflags, hdim, hsmall, hbody⟩ | ⟨hflags, hdim, hroom, -⟩
  · have hexec := exec_encode_eq_of_duties (s := s) hi (encodeDutyBroken_of_error fun h => hflags h.1)
    exact ⟨fun _ => ⟨_, exec_raise_of_no_output hexec hbody rfl, rfl⟩, fun h => absurd h hflags,
      fun h => absurd h hflags⟩
  · have hexec := exec_encode_eq_of_duties (s := s) hi
      (encodeDutyBroken_of_error fun ⟨_, hw, hh, _⟩ => not_or.2 ⟨hw, hh⟩ hdim)
    exact ⟨fun h => absurd hflags h, fun _ _ => ⟨_, exec_raise_of_no_output hexec hbody rfl, rfl⟩,
      fun _ hw hh => absurd hdim (not_or.2 ⟨hw, hh⟩)⟩
  · have hexec := exec_encode_eq_of_duties (s := s) hi
      (encodeDutyBroken_of_error fun ⟨_, _, _, h⟩ => Nat.not_le.2 hsmall h)
    refine ⟨fun h => absurd hflags h, fun _ h => absurd h hdim, fun _ _ _ _ =>
      ⟨_, exec_raise_of_no_output hexec hbody rfl, ?registers⟩⟩
    case registers => rcases hi with rfl | rfl <;> rfl
  · exact ⟨fun h => absurd hflags h, fun _ h => absurd h hdim, fun _ _ _ h => absurd h (Nat.not_lt.2 hroom)⟩

end Sys2Proof.Proofs
end

section
/-! PROOFS. The palette table (spec/43_palette_table.md R190 to R196): PAL_CLEAR empties it, PAL_FIND and PAL_FIND.A are
one find-or-insert under the strides 3 and 4, and find-or-insert under one stride keeps the entries distinct. -/

namespace Sys2Proof.Proofs
open Sys2Proof Sys2Proof.Machine

/-! ### Colours under a stride -/

/-- The word in which find-or-insert stores a colour (spec/43_palette_table.md R192). -/
def storedColor (st : Nat) (c : Word) : Word := colorOfBytes (colorBytes st c)

/-- Under stride 3 a colour is stored with B3 = 0. -/
theorem storedColor_three (c : Word) : storedColor 3 c = c &&& 0x00FFFFFF#32 := by
  apply BitVec.eq_of_toNat_eq
  have hmask : (c &&& 0x00FFFFFF#32).toNat = c.toNat % 2 ^ 24 := Nat.and_two_pow_sub_one_eq_mod c.toNat 24
  rw [hmask]
  simp [storedColor, colorBytes, colorOfBytes, le32, fromLE, BitVec.extractLsb'_toNat, Nat.shiftRight_eq_div_pow]
  omega

theorem storedColor_four (c : Word) : storedColor 4 c = c := ofNat_fromLE_le32 c

theorem colorBytes_storedColor {st : Nat} (hst : st = 3 ∨ st = 4) (c : Word) :
    colorBytes st (storedColor st c) = colorBytes st c := colorBytes_stored hst c

/-- Two colours agree on their first st bytes exactly where they are stored as the same word. -/
theorem colorBytes_eq_iff {st : Nat} (hst : st = 3 ∨ st = 4) (a b : Word) :
    colorBytes st a = colorBytes st b ↔ storedColor st a = storedColor st b := by
  refine ⟨fun h => congrArg colorOfBytes h, fun h => ?_⟩
  rw [← colorBytes_storedColor hst a, h, colorBytes_storedColor hst b]

/-! ### The search and the insertion -/

/-- The search finds a colour's lowest index (spec/43_palette_table.md R191). -/
theorem palFindIndex_eq_some {st j : Nat} {c : Word} {s : State} (hj : j < s.palLen.val)
    (hhit : colorBytes st (s.palEntry j) = colorBytes st c)
    (hmin : ∀ k, k < j → colorBytes st (s.palEntry k) ≠ colorBytes st c) : palFindIndex st c s = some j :=
  List.find?_range_eq_some.2 ⟨by simpa using hhit, List.mem_range.2 hj, fun k hk => by simpa using hmin k hk⟩

theorem palFindIndex_eq_none {st : Nat} {c : Word} {s : State}
    (hmiss : ∀ j, j < s.palLen.val → colorBytes st (s.palEntry j) ≠ colorBytes st c) : palFindIndex st c s = none :=
  List.find?_range_eq_none.2 fun j hj => by simpa using hmiss j hj

theorem findOrInsert_of_present {st j : Nat} {c : Word} {s : State} (h : palFindIndex st c s = some j) :
    findOrInsert st c s = some (j, s) := by
  simp only [findOrInsert, h]

theorem findOrInsert_of_room {st : Nat} {c : Word} {s : State} (h : palFindIndex st c s = none)
    (hroom : s.palLen.val < 256) : findOrInsert st c s = some (s.palLen.val, insertAtEnd st c s) := by
  simp only [findOrInsert, h, if_neg (Nat.ne_of_lt hroom)]
  rfl

theorem findOrInsert_of_full {st : Nat} {c : Word} {s : State} (h : palFindIndex st c s = none)
    (hfull : s.palLen.val = 256) : findOrInsert st c s = none := by
  simp only [findOrInsert, h, if_pos hfull]

/-- Storing a stored colour is storing the colour. -/
theorem insertAtEnd_storedColor {st : Nat} (hst : st = 3 ∨ st = 4) (c : Word) (s : State) :
    insertAtEnd st (storedColor st c) s = insertAtEnd st c s := by
  rw [insertAtEnd, colorBytes_storedColor hst, insertAtEnd]

/-! ### The command -/

/-- The state in which PAL_FIND under stride st searches the table (spec/43_palette_table.md R195). -/
def findStart (st : Nat) (s : State) : State := fixStride st (startCommand s)

theorem runCommand_palFind_some {st j : Nat} {s u : State}
    (h : findOrInsert st (storedColor st s.eng.ops.palColor) (findStart st s) = some (j, u)) :
    runCommand (palFindBody st) s = completeOk (setResult j u) := by
  apply runCommand_ok
  rw [palFindBody_eq]
  exact congrArg (Option.elim · _ _) h

theorem runCommand_palFind_none {st : Nat} {s : State}
    (h : findOrInsert st (storedColor st s.eng.ops.palColor) (findStart st s) = none) :
    runCommand (palFindBody st) s = raiseError .tooManyColors (findStart st s) := by
  apply runCommand_raise
  rw [palFindBody_eq]
  exact congrArg (Option.elim · _ _) h

/-- Entry j holds the colour PAL_FIND looks up, as far as the stride st compares (spec/43_palette_table.md R192). -/
def holdsColor (st : Nat) (s : State) (j : Nat) : Prop :=
  storedColor st (s.palEntry j) = storedColor st s.eng.ops.palColor

theorem holdsColor_iff {st : Nat} (hst : st = 3 ∨ st = 4) (s : State) (j : Nat) :
    holdsColor st s j ↔ colorBytes st (s.palEntry j) = colorBytes st (storedColor st s.eng.ops.palColor) := by
  rw [colorBytes_storedColor hst, colorBytes_eq_iff hst, holdsColor]

/-- What PAL_FIND under stride st does to s (spec/43_palette_table.md R191, R192, R195): the lowest index of a colour
that is present, an insertion at the end of a table with room, TooManyColors in a full one. -/
structure FindsOrInserts (st : Nat) (s t : State) : Prop where
  present : ∀ j, j < s.palLen.val → holdsColor st s j → (∀ k, k < j → ¬ holdsColor st s k) →
    t = { s with
      status := statusWord st 0, resultLo := BitVec.ofNat 32 j, resultHi := 0, wrCursor := 0, eng := t.eng }
  inserted : (∀ j, j < s.palLen.val → ¬ holdsColor st s j) → s.palLen.val < 256 →
    t = { s with
      status := statusWord st 0, resultLo := BitVec.ofNat 32 s.palLen.val, resultHi := 0, wrCursor := 0
      pal := s.pal.setIfInBounds s.palLen.val (storedColor st s.eng.ops.palColor), palLen := t.palLen
      eng := t.eng } ∧
    t.palLen.val = s.palLen.val + 1
  full : (∀ j, j < s.palLen.val → ¬ holdsColor st s j) → s.palLen.val = 256 →
    t = { s with status := statusWord st 5, resultLo := 0, resultHi := 0, wrCursor := 0, eng := t.eng }

/-- A palette index is a result whose high word is 0 (spec/10_state.md R45). -/
theorem setResult_of_le {n : Nat} (h : n ≤ 256) (s : State) :
    setResult n s = { s with resultLo := BitVec.ofNat 32 n, resultHi := 0 } := by
  have hhigh : n / 4294967296 = 0 := Nat.div_eq_of_lt (by omega)
  rw [setResult, hhigh]
  rfl

/-- The cases of the search are those of the statement: entries agree on st bytes exactly where they are stored
alike. -/
theorem findsOrInserts {st : Nat} (hst : st = 3 ∨ st = 4) (s : State) :
    FindsOrInserts st s (runCommand (palFindBody st) s) := by
  have hnone (hmiss : ∀ j, j < s.palLen.val → ¬ holdsColor st s j) :
      palFindIndex st (storedColor st s.eng.ops.palColor) (findStart st s) = none :=
    palFindIndex_eq_none fun j hj => mt (holdsColor_iff hst s j).2 (hmiss j hj)
  refine ⟨fun j hj hhit hmin => ?present, fun hmiss hroom => ?inserted, fun hmiss hfull => ?full⟩
  case present =>
    have hfind : palFindIndex st (storedColor st s.eng.ops.palColor) (findStart st s) = some j :=
      palFindIndex_eq_some hj ((holdsColor_iff hst s j).1 hhit) fun k hk => mt (holdsColor_iff hst s k).2 (hmin k hk)
    have hle : j ≤ 256 := Nat.le_of_lt_succ (hj.trans s.palLen.isLt)
    rw [runCommand_palFind_some (findOrInsert_of_present hfind), setResult_of_le hle]
    rfl
  case inserted =>
    have hle : (findStart st s).palLen.val ≤ 256 := Nat.le_of_lt hroom
    rw [runCommand_palFind_some (findOrInsert_of_room (hnone hmiss) hroom), insertAtEnd_storedColor hst,
      setResult_of_le hle, insertAtEnd]
    exact ⟨rfl, Nat.min_eq_left hroom⟩
  case full =>
    rw [runCommand_palFind_none (findOrInsert_of_full (hnone hmiss) hfull), raiseError_of_no_output _ rfl]
    rfl

/-! ### The statements -/

/-- Settles O28: the body sets PAL_LEN and the result and fixes no stride, so STATUS is the word of stride 0. -/
theorem palClear : Obligations.PalClear := by
  refine ⟨by decide, fun s => ⟨runCommand palClearBody s, rfl, ?effect, ?empty⟩⟩
  case effect =>
    have hword : statusWord 0 0 = 0x00000002#32 := by decide
    rw [← hword]
    rfl
  case empty => rfl

/-- Settles O29: stored under stride 3, a colour is its three low bytes. -/
theorem palFind : Obligations.PalFind := by
  intro s
  obtain ⟨present, inserted, full⟩ := findsOrInserts (.inl rfl) s
  have hok : statusWord 3 0 = 0x00030002#32 := by decide
  have htooMany : statusWord 3 5 = 0x00030502#32 := by decide
  simp only [holdsColor, storedColor_three, hok, htooMany] at present inserted full
  exact ⟨_, rfl, present, inserted, full⟩

/-- Settles O30: stored under stride 4, a colour is itself. -/
theorem palFindA : Obligations.PalFindA := by
  intro s
  obtain ⟨present, inserted, full⟩ := findsOrInserts (.inr rfl) s
  have hok : statusWord 4 0 = 0x00040002#32 := by decide
  have htooMany : statusWord 4 5 = 0x00040502#32 := by decide
  simp only [holdsColor, storedColor_four, hok, htooMany] at present inserted full
  exact ⟨_, rfl, present, inserted, full⟩

/-! ### Distinct entries -/

/-- Find-or-insert adds no colour that is present on its first st bytes. -/
theorem offerColor_nodup {st : Nat} (hst : st = 3 ∨ st = 4) {pal : List Word} (c : Word)
    (h : (pal.map (colorBytes st)).Nodup) : ((offerColor st pal c).map (colorBytes st)).Nodup := by
  cases hc : pal.any (fun e => sameColor st e c)
  case true => rwa [offerColor_of_mem hc]
  case false =>
    have hnew : colorBytes st c ∉ pal.map (colorBytes st) := by
      simpa [sameColor] using hc
    rw [offerColor_of_not_mem hc, List.map_append, List.map_singleton, colorBytes_stored hst]
    exact h.append (List.nodup_singleton _) (List.disjoint_singleton.2 hnew)

theorem growPalette_nodup {st : Nat} (hst : st = 3 ∨ st = 4) {pal : List Word} (cs : List Word)
    (h : (pal.map (colorBytes st)).Nodup) : ((growPalette st pal cs).map (colorBytes st)).Nodup := by
  induction cs generalizing pal with
  | nil => exact h
  | cons c cs ih => exact ih (offerColor_nodup hst c h)

/-- PAL_FIND offers its colour to the palette, or leaves the palette as it is. -/
theorem palette_runCommand_palFind {st : Nat} (hst : st = 3 ∨ st = 4) (s : State) :
    (runCommand (palFindBody st) s).palette = offerColor st s.palette (storedColor st s.eng.ops.palColor) ∨
      (runCommand (palFindBody st) s).palette = s.palette := by
  rcases Nat.lt_or_ge 256 (offerColor st s.palette (storedColor st s.eng.ops.palColor)).length with hbig | hfits
  · rw [runCommand_palFind_none (findOrInsert_none _ (findStart st s) hbig)]
    exact .inr rfl
  · obtain ⟨pal, palLen, hfind, hpal, -⟩ := findOrInsert_some hst _ (findStart st s) hfits
    rw [runCommand_palFind_some hfind]
    exact .inl hpal

theorem palFind_keeps_nodup {st : Nat} (hst : st = 3 ∨ st = 4) {s : State}
    (h : (s.palette.map (colorBytes st)).Nodup) :
    ((runCommand (palFindBody st) s).palette.map (colorBytes st)).Nodup := by
  rcases palette_runCommand_palFind hst s with hpal | hpal <;> rw [hpal]
  · exact offerColor_nodup hst _ h
  · exact h

/-- Settles O31: every step from palette to palette offers it one colour, or keeps it. -/
theorem paletteEntriesStayDistinct : Obligations.PaletteEntriesStayDistinct :=
  ⟨fun _ cs hst => growPalette_nodup hst cs List.nodup_nil, fun _ =>
    ⟨fun h => ⟨_, rfl, palFind_keeps_nodup (.inl rfl) h⟩, fun h => ⟨_, rfl, palFind_keeps_nodup (.inr rfl) h⟩⟩⟩

end Sys2Proof.Proofs
end

section
/-! PROOFS. The encoder's output (spec/44_rle_encoder.md R209 to R212): the palette is in first-occurrence order, the
stream read back at the destination is the image's header and pairs, hence well-formed, a uniform image has
ceil(N/255) pairs, and a 257th colour ends the command with the table full. -/

namespace Sys2Proof.Proofs
open Sys2Proof Sys2Proof.Machine

/-! ### A successful ENCODE, read back -/

/-- What a successful ENCODE or ENCODE.KEEP of s leaves in t, from the palette entries `seed`, with the stream at the
destination read back as a decoder reads it. -/
structure EncodeReadsBack (s : State) (seed : List Word) (t : State) : Prop where
  palette : t.palette = encodedPalette s.eng.ops s.mem seed
  pair_count : t.pairCount.toNat = (encodedPairs s.eng.ops s.mem seed).length
  length : t.resultLo.toNat = encodedLength s.eng.ops s.mem seed
  pairs : streamPairs (readBack s.eng.ops t.resultLo) t.mem = encodedPairs s.eng.ops s.mem seed
  header : readHeader (readBack s.eng.ops t.resultLo) t.mem =
    { magic := Config.pieMagic, version := Config.pieVersion, flags := s.eng.ops.flags,
      width := dimWidth s.eng.ops.dim, height := dimHeight s.eng.ops.dim,
      pairCount := BitVec.ofNat 32 (encodedPairs s.eng.ops s.mem seed).length }

/-- There is at least one pair, and no more than the N pixels, so PAIR_COUNT holds their number
(spec/44_rle_encoder.md R205, R208). -/
theorem encodedPairs_count {s : State} (seed : List Word) (h : EncodeStarts s) :
    1 ≤ (encodedPairs s.eng.ops s.mem seed).length ∧
      (BitVec.ofNat 32 (encodedPairs s.eng.ops s.mem seed).length).toNat =
        (encodedPairs s.eng.ops s.mem seed).length := by
  obtain ⟨-, -, hpos, hle⟩ := encodedPairs_props (m := s.mem) seed (pixels_pos h.width h.height)
  exact ⟨hpos, Nat.mod_eq_of_lt (hle.trans_lt (pixels_lt _))⟩

theorem encode_reads_back {i : Instr} {s : State} {seed : List Word}
    (hi : (i = .encode ∧ seed = []) ∨ (i = .encodeKeep ∧ seed = s.palette)) (h : EncodeReady s seed) :
    ∃ t, exec i s = .next t ∧ EncodeReadsBack s seed t := by
  obtain ⟨t, hexec, hregs, hpal, -, hbytes, -⟩ := encode_writes_stream hi h
  obtain ⟨hpairs, hheader⟩ := encodedStream_readBack h (o := readBack s.eng.ops t.resultLo) hbytes
  refine ⟨t, hexec, hpal, ?pair_count, ?length, hpairs, hheader⟩ <;> rw [hregs]
  case pair_count => exact (encodedPairs_count seed h.toEncodeStarts).2
  case length => exact Nat.mod_eq_of_lt (h.room.trans_lt s.eng.ops.dstCap.isLt)

/-! ### The order of the palette -/

/-- A pixel has no byte past its stride, so find-or-insert stores it whole and the palette holds the pixels
themselves (spec/44_rle_encoder.md R211). -/
theorem encodedPalette_eq_first (o : Operands) (m : Memory) (seed : List Word) :
    encodedPalette o m seed = seed ++ firstOccurrences
      ((imagePixels o m).filter fun c => !seed.any fun e => sameColor (strideOf o.flags) e c) := by
  have hstored : ∀ c ∈ imagePixels o m, colorOfBytes (colorBytes (strideOf o.flags) c) = c := by
    intro c hc
    obtain ⟨i, -, rfl⟩ := List.mem_map.1 hc
    exact colorOfBytes_pixelAt o m i
  have hgrow := growPalette_eq_first seed [] (imagePixels o m) hstored (by simp)
  rwa [List.append_nil] at hgrow

/-- Settles O41: from an empty palette no pixel matches an entry found, so none is filtered out. -/
theorem encodePaletteOrder : Obligations.EncodePaletteOrder := by
  refine fun s => ⟨fun h => ?encode, fun h => ?keep⟩
  case encode =>
    obtain ⟨t, hexec, ht⟩ := encode_reads_back (.inl ⟨rfl, rfl⟩) h
    refine ⟨t, hexec, ?_⟩
    rw [ht.palette, encodedPalette_eq_first]
    simp
  case keep =>
    obtain ⟨t, hexec, ht⟩ := encode_reads_back (.inr ⟨rfl, rfl⟩) h
    exact ⟨t, hexec, by rw [ht.palette, encodedPalette_eq_first]⟩

/-! ### Well-formed output -/

/-- The stream of an image is well-formed over the palette the command leaves (spec/30_encoding.md R119). -/
theorem wellFormedStream_of_readsBack {s t : State} {seed : List Word} (h : EncodeReady s seed)
    (ht : EncodeReadsBack s seed t) : WellFormedStream (readBack s.eng.ops t.resultLo) t.mem t.palLen.val := by
  obtain ⟨hpair, hsum, -, -⟩ := encodedPairs_props (m := s.mem) seed (pixels_pos h.width h.height)
  obtain ⟨hpos, hcount⟩ := encodedPairs_count seed h.toEncodeStarts
  have hlen : t.palLen.val = (encodedPalette s.eng.ops s.mem seed).length := by
    rw [← ht.palette, State.length_palette]
  constructor
  case magic => rw [ht.header]
  case version => rw [ht.header]
  case width => rw [ht.header]; exact h.width
  case height => rw [ht.header]; exact h.height
  case flags => rw [ht.header]; exact h.flags
  case pair_count =>
    rw [ht.header]
    intro hzero
    have : (encodedPairs s.eng.ops s.mem seed).length = 0 := hcount.symm.trans (congrArg BitVec.toNat hzero)
    omega
  case runs =>
    rw [ht.pairs]
    intro p hp
    obtain ⟨hlow, hhigh, -⟩ := hpair p hp
    exact ⟨hlow, hhigh⟩
  case sum => rw [ht.pairs, streamPixels, ht.header]; exact hsum
  case indices =>
    rw [ht.pairs, hlen]
    intro p hp
    obtain ⟨-, -, hidx⟩ := hpair p hp
    exact hidx
  case palette => rw [hlen]; exact h.colors
  case length =>
    have hsrc : (readBack s.eng.ops t.resultLo).srcLen.toNat = encodedLength s.eng.ops s.mem seed := ht.length
    rw [ht.header, hsrc, hcount, hlen]
    exact le_refl _

theorem encode_wellFormed {i : Instr} {s : State} {seed : List Word}
    (hi : (i = .encode ∧ seed = []) ∨ (i = .encodeKeep ∧ seed = s.palette)) (h : EncodeReady s seed) :
    ∃ t, exec i s = .next t ∧ WellFormedStream (readBack s.eng.ops t.resultLo) t.mem t.palLen.val := by
  obtain ⟨t, hexec, ht⟩ := encode_reads_back hi h
  exact ⟨t, hexec, wellFormedStream_of_readsBack h ht⟩

/-- Settles O42, for the two seeds. -/
theorem encodeOutputWellFormed : Obligations.EncodeOutputWellFormed :=
  fun _ => ⟨encode_wellFormed (.inl ⟨rfl, rfl⟩), encode_wellFormed (.inr ⟨rfl, rfl⟩)⟩

/-! ### Uniform images -/

/-- The pairs of n pixels of one colour with index idx: as many runs of 255 as leave a last run of 1 to 255
(spec/44_rle_encoder.md R209). -/
def uniformPairs (n idx : Nat) : List (Nat × Nat) :=
  List.replicate ((n + 254) / 255 - 1) (255, idx) ++ [(n - 255 * ((n + 254) / 255 - 1), idx)]

theorem length_uniformPairs {n : Nat} (hn : 0 < n) (idx : Nat) : (uniformPairs n idx).length = (n + 254) / 255 := by
  rw [uniformPairs, List.length_append, List.length_replicate, List.length_singleton]
  omega

/-- The index of the first pixel's colour in the palette ENCODE leaves. -/
def firstPixelIndex (o : Operands) (m : Memory) (seed : List Word) : Nat :=
  colorIndex (strideOf o.flags) (encodedPalette o m seed) (pixelAt o m 0)

/-- From an empty palette the first pixel's colour is the first entry (spec/44_rle_encoder.md R209, R211). -/
theorem firstPixelIndex_nil {o : Operands} (m : Memory) (hpos : 0 < o.pixels) : firstPixelIndex o m [] = 0 := by
  have hgrow := colorIndex_grow (strideOf_cases o.flags) [] (pixelsFrom o m 1 (o.pixels - 1)) (pixelAt o m 0)
  rw [firstPixelIndex, encodedPalette, imagePixels_eq m hpos]
  refine hgrow.trans ?_
  simp [offerColor, colorIndex, sameColor_stored (strideOf_cases _)]

/-- The pairs of a uniform image: one run, cut every 255 pixels (spec/44_rle_encoder.md R208, R209). -/
theorem encodedPairs_uniform {o : Operands} {m : Memory} (seed : List Word) (hpos : 0 < o.pixels)
    (hu : ∀ i, i < o.pixels → pixelAt o m i = pixelAt o m 0) :
    encodedPairs o m seed = uniformPairs o.pixels (firstPixelIndex o m seed) := by
  have hrest : pixelsFrom o m 1 (o.pixels - 1) = List.replicate (o.pixels - 1) (pixelAt o m 0) := by
    refine List.eq_replicate_iff.2 ⟨by simp [pixelsFrom], fun c hc => ?_⟩
    obtain ⟨i, hi, rfl⟩ := List.mem_map.1 hc
    exact hu i (by have := List.mem_range'_1.1 hi; omega)
  have hN : 1 + (o.pixels - 1) = o.pixels := by omega
  rw [encodedPairs, splitRuns_imagePixels m hpos, hrest, runsFrom_replicate _ _ _ le_rfl (by decide), hN,
    List.map_append, List.map_replicate]
  rfl

theorem encode_uniform {i : Instr} {s : State} {seed : List Word}
    (hi : (i = .encode ∧ seed = []) ∨ (i = .encodeKeep ∧ seed = s.palette)) (h : EncodeReady s seed)
    (hu : ∀ j, j < s.eng.ops.pixels → pixelAt s.eng.ops s.mem j = pixelAt s.eng.ops s.mem 0) :
    ∃ t, exec i s = .next t ∧ t.pairCount.toNat = (s.eng.ops.pixels + 254) / 255 ∧
      streamPairs (readBack s.eng.ops t.resultLo) t.mem =
        uniformPairs s.eng.ops.pixels (firstPixelIndex s.eng.ops s.mem seed) := by
  have hpos := pixels_pos h.width h.height
  have hpairs := encodedPairs_uniform (m := s.mem) seed hpos hu
  obtain ⟨t, hexec, ht⟩ := encode_reads_back hi h
  refine ⟨t, hexec, ?_, ht.pairs.trans hpairs⟩
  rw [ht.pair_count, hpairs, length_uniformPairs hpos]

/-- Settles O43: the stream read back holds the uniform image's pairs, whose index from an empty palette is 0. -/
theorem uniformImage : Obligations.UniformImage := by
  rintro s _ _ hu rfl rfl
  refine ⟨fun h => ?encode, fun h => ?keep⟩
  case encode =>
    have hpos := pixels_pos h.width h.height
    obtain ⟨t, hexec, hcount, hpairs⟩ := encode_uniform (.inl ⟨rfl, rfl⟩) h hu
    rw [firstPixelIndex_nil s.mem hpos] at hpairs
    exact ⟨by omega, by omega, t, hexec, hcount, hpairs⟩
  case keep =>
    have hpos := pixels_pos h.width h.height
    obtain ⟨t, hexec, hcount, hpairs⟩ := encode_uniform (.inr ⟨rfl, rfl⟩) h hu
    exact ⟨by omega, by omega, t, _, hexec, hcount, hpairs⟩

/-! ### Too many colours -/

/-- The registers after an error are those the body left, but for STATUS and the results, which report the error, its
stride and the bytes written (spec/60_exceptions.md R253). -/
theorem raiseError_eq_of_frame {i : Instr} {s u : State} (e : ErrCode) (hu : BodyFrame i (startCommand s) u) :
    raiseError e u = { s with
      status := statusWord u.eng.strideOut e.code
      dim := u.dim
      flags := u.flags
      pairCount := u.pairCount
      resultLo := 0
      resultHi := 0
      palLen := u.palLen
      wrCursor := BitVec.ofNat 32 u.eng.out.length
      pal := u.pal
      mem := (raiseError e u).mem
      draws := (raiseError e u).draws
      eng := (raiseError e u).eng } := by
  obtain ⟨hcmd, hsrcAddr, hsrcLen, hdstAddr, hdstCap, hxpalAddr, hxpalLen, hpalColor, hhost, hhostData⟩ :=
    (startCommand_keeps s).trans hu.host
  simp only [raiseError, Engine.cursor, hcmd, hsrcAddr, hsrcLen, hdstAddr, hdstCap, hxpalAddr, hxpalLen, hpalColor,
    hhost, hhostData]

/-- Settles O46: the body raises at the first pair whose colour is the 257th, after q pairs. -/
theorem tooManyColors : Obligations.TooManyColors := by
  intro i s seed hi h hcolors hroom
  obtain ⟨keep, hseed, hexec⟩ := exec_encode_eq hi h
  obtain ⟨u, q, hbody, hscan, hpal, -, hout, hpairs⟩ :=
    encodeBody_full keep (startCommand s) seed hseed h.flags h.width h.height hcolors hroom
  have hi' : encodes i = true ∧ loadsHeader i = false := by rcases hi with ⟨rfl, -⟩ | ⟨rfl, -⟩ <;> decide
  have hframe := bodyFrame_of_raise (ends_encode hi'.1 keep s) hbody
  obtain ⟨hdim, hflags⟩ := hframe.header hi'.2
  have hexec' : exec i s = .next (raiseError .tooManyColors u) := runCommand_raise hbody ▸ hexec
  refine ⟨_, hexec', ?registers, hpal, ?cursor, ?outside⟩
  case registers =>
    have hfull : u.palLen = 256 := by
      have hlen := congrArg List.length hpal
      rw [State.length_palette, List.length_take, startCommand_eng_ops, startCommand_mem] at hlen
      exact Fin.ext (hlen.trans (Nat.min_eq_left hcolors.le))
    have hstride : u.eng.strideOut = strideOf s.eng.ops.flags := hscan.strideOut
    have hregs := raiseError_eq_of_frame .tooManyColors hframe
    rw [hdim, hflags, hstride, hfull] at hregs
    exact hregs
  case cursor =>
    have hcursor : (raiseError .tooManyColors u).wrCursor.toNat = 16 + 2 * q :=
      (ofNat_cursor_toNat hframe).trans hout
    have hq : (BitVec.ofNat 32 q).toNat = q := by
      have := (raiseError .tooManyColors u).wrCursor.isLt
      exact Nat.mod_eq_of_lt (by omega)
    rw [hcursor, raiseError_pairCount, hpairs, hq]
  case outside =>
    obtain ⟨t, ht, hcompletion⟩ := exec_completes i s
    obtain rfl : raiseError .tooManyColors u = t := Host.Outcome.next.inj (hexec'.symm.trans ht)
    exact hcompletion.outside

end Sys2Proof.Proofs
end

section
/-! PROOFS. DECODE and DECODE.XPAL (spec/45_rle_decoder.md R221, R223, R226, R227, R230, R231): Validate comes first,
the destination is checked on the exact size, a stream that breaks the pair invariants ends in CorruptStream, and
neither the palette table nor the place of the palette's bytes matters. -/

namespace Sys2Proof.Proofs
open Sys2Proof Sys2Proof.Machine

/-! ### What DECODE runs -/

theorem exec_decode_eq_runGuarded {i : Instr} (hi : i = .decode ∨ i = .decodeXpal) (s : State) :
    exec i s = .next (runGuarded (decodeDutyBroken i (i == .decodeXpal) s) i true false true
      (decodeBody (i == .decodeXpal)) s) := by
  rcases hi with rfl | rfl <;> rfl

theorem exec_decode_eq_of_duties {i : Instr} {s : State} (hi : i = .decode ∨ i = .decodeXpal)
    (h : decodeDutyBroken i (i == .decodeXpal) s = false) :
    exec i s = .next (runCommand (decodeBody (i == .decodeXpal)) s) := by
  rw [exec_decode_eq_runGuarded hi, runGuarded_false h]

/-- Validate raises on a stream that it does not accept. -/
theorem validate_raises {s : State} (h : ¬ StreamValid s.eng.ops s.mem) : ∃ e u, validate s = .raise e u := by
  rcases validate_cases s with ⟨-, hv⟩ | ⟨-, e, -, hv⟩ | ⟨-, -, e, -, hv⟩ | ⟨hvalid, -⟩
  · exact ⟨_, _, hv⟩
  · exact ⟨_, _, hv⟩
  · exact ⟨_, _, hv⟩
  · exact absurd hvalid h

/-! ### The palette table -/

/-- s with another palette table (spec/10_state.md R46, R50). -/
def withTable (pal : Vector Word 256) (palLen : Fin 257) (s : State) : State :=
  { s with pal := pal, palLen := palLen }

section
variable (pal : Vector Word 256) (palLen : Fin 257)

theorem validate_withTable (s : State) :
    validate (withTable pal palLen s) = mapFlow (withTable pal palLen) (validate s) := by
  unfold validate parseHeader
  by_cases hlen : s.eng.ops.srcLen.toNat < 16
  · simp only [withTable, hlen, if_true]
    rfl
  · simp only [withTable, hlen, if_false]
    cases headerError (readHeader s.eng.ops s.mem) with
    | some e => rfl
    | none =>
      simp only [Flow.ok_andThen, loadHeader_eng_ops, loadHeader_mem]
      cases validatorError s.eng.ops (readHeader s.eng.ops s.mem) <;> rfl

/-- DECODE's body does with another table what it does with this one, and leaves that table. -/
theorem decodeBody_withTable (ext : Bool) (s : State) :
    decodeBody ext (withTable pal palLen s) = mapFlow (withTable pal palLen) (decodeBody ext s) := by
  by_cases hvalid : StreamValid s.eng.ops s.mem
  · have hvalid' : StreamValid (withTable pal palLen s).eng.ops (withTable pal palLen s).mem := hvalid
    rw [decodeBody_valid ext s hvalid, decodeBody_valid ext _ hvalid']
    simp only [apply_ite (mapFlow (withTable pal palLen))]
    rfl
  · obtain ⟨e, u, hraise⟩ := validate_raises hvalid
    unfold decodeBody
    rw [validate_withTable, hraise]
    rfl

theorem finish_withTable (x : Flow) :
    finish (mapFlow (withTable pal palLen) x) = withTable pal palLen (finish x) := by
  cases x <;> rfl

theorem runCommand_decode_withTable (ext : Bool) (s : State) :
    runCommand (decodeBody ext) (withTable pal palLen s) = withTable pal palLen (runCommand (decodeBody ext) s) := by
  unfold runCommand
  rw [← finish_withTable, ← decodeBody_withTable]
  rfl

/-- DECODE with free results leaves the table alone too (log 13). -/
theorem completeUnspecified_withTable (i : Instr) (hdr wr : Bool) (s : State) :
    completeUnspecified i hdr false wr (withTable pal palLen s) =
      withTable pal palLen (completeUnspecified i hdr false wr s) := rfl

theorem exec_decode_withTable {i : Instr} (hi : i = .decode ∨ i = .decodeXpal) {s t : State}
    (ht : exec i s = .next t) : exec i (withTable pal palLen s) = .next (withTable pal palLen t) := by
  have hduty : decodeDutyBroken i (i == .decodeXpal) (withTable pal palLen s) =
      decodeDutyBroken i (i == .decodeXpal) s := rfl
  rw [exec_decode_eq_runGuarded hi] at ht ⊢
  obtain rfl := Host.Outcome.next.inj ht
  rw [hduty]
  unfold runGuarded
  split
  · rw [completeUnspecified_withTable]
  · rw [runCommand_decode_withTable]

end

/-- Settles O25: DECODE's body commutes with a change of the table, and no completion of DECODE writes it. -/
theorem decodeIgnoresPaletteTable : Obligations.DecodeIgnoresPaletteTable := by
  intro i s hi
  obtain ⟨t, ht, hc⟩ := exec_completes i s
  have hw : writesTable i = false := by rcases hi with rfl | rfl <;> rfl
  obtain ⟨hpal, hpalLen⟩ := hc.table hw
  exact ⟨t, ht, hpal, hpalLen, fun pal palLen => exec_decode_withTable pal palLen hi ht⟩

/-! ### Validate comes first -/

/-- DECODE of a stream that Validate does not accept does not come to its destination (log 14). -/
theorem decodeDutyBroken_of_invalid {i : Instr} (ext : Bool) {s : State} (hi : i = .decode ∨ i = .decodeXpal)
    (hready : SourceReady s) (h : ¬ StreamValid s.eng.ops s.mem) : decodeDutyBroken i ext s = false := by
  rcases Nat.lt_or_ge s.eng.ops.srcLen.toNat 16 with hshort | hlen
  · exact decodeDutyBroken_of_short ext hshort
  · exact decodeDutyBroken_of_error ext hi hready fun ⟨hheader, hvalidator, _⟩ => h ⟨hlen, hheader, hvalidator⟩

theorem exec_validate_eq_of_duties {s : State} (h : headerDutyBroken .validate s = false) :
    exec .validate s = .next (runCommand validateBody s) :=
  congrArg Host.Outcome.next (runGuarded_false h _ _ _ _ _ _)

/-- ERRCODE of an error is not 0 (spec/30_encoding.md R120). -/
theorem statusErr_error_ne_zero {st : Nat} (hst : st ∈ [0, 3, 4]) (e : ErrCode) :
    statusErr (statusWord st e.code) ≠ 0 := by
  rw [statusErr_statusWord hst e.code_lt]
  cases e <;> decide

/-- Settles O50: the bodies of DECODE and of VALIDATE both begin with Validate, and both end where it raises. -/
theorem decodeValidatesFirst : Obligations.DecodeValidatesFirst := by
  intro i s hi hready hinvalid
  obtain ⟨e, u, hraise⟩ := validate_raises (s := startCommand s) hinvalid
  have hdecode : decodeBody (i == .decodeXpal) (startCommand s) = .raise e u := by
    rw [decodeBody, hraise, Flow.raise_andThen]
  have hvalidate : validateBody (startCommand s) = .raise e u := by
    rw [validateBody, hraise, Flow.raise_andThen]
  have hframe := bodyFrame_of_raise (ends_validateBody s) hvalidate
  refine ⟨raiseError e u, ?decode, ?validate, statusErr_error_ne_zero hframe.stride e⟩
  case decode =>
    rw [exec_decode_eq_of_duties hi (decodeDutyBroken_of_invalid _ hi hready hinvalid), runCommand_raise hdecode]
  case validate =>
    rw [exec_validate_eq_of_duties (headerDutyBroken_eq_false (.inr rfl) hready), runCommand_raise hvalidate]

/-! ### The destination -/

/-- Settles O51: the body raises with the header loaded and nothing appended. -/
theorem destinationTooSmall : Obligations.DestinationTooSmall := by
  rintro i s _ hi hready hvalid rfl hsmall
  have hexec := exec_decode_eq_of_duties hi
    (decodeDutyBroken_of_error _ hi hready fun ⟨_, _, hroom⟩ => absurd hsmall (Nat.not_lt.2 hroom))
  have hbody : decodeBody (i == .decodeXpal) (startCommand s) =
      .raise .destinationTooSmall (loadHeader (readHeader s.eng.ops s.mem) (startCommand s)) :=
    (decodeBody_valid _ (startCommand s) hvalid).trans (if_pos hsmall)
  exact ⟨_, exec_raise_of_no_output hexec hbody rfl, rfl⟩

/-! ### Corrupt streams -/

/-- The body of DECODE or DECODE.XPAL of s, of a corrupt stream with header h, ends in u: the header is loaded and the
output is the pixels of the pairs before the failing one. -/
structure DecodeBreaks (i : Instr) (ext : Bool) (s : State) (h : Header) (u : State) : Prop where
  frame : BodyFrame i (startCommand s) u
  registers : u = { loadHeader h (startCommand s) with eng := u.eng }
  stride : u.eng.strideOut = strideOf h.flags
  out : u.eng.out = replayedBytes s.mem (streamSlice ext s.eng.ops s.mem).1 (strideOf h.flags)
    (replayedPairs ext s.eng.ops s.mem)

/-- DECODE and DECODE.XPAL of a corrupt stream complete from such an end (spec/45_rle_decoder.md R226, R227). -/
theorem exec_decode_corrupt {i : Instr} {ext : Bool} {s : State}
    (hi : (i = .decode ∧ ext = false) ∨ (i = .decodeXpal ∧ ext = true)) (hready : DecodeReady ext s)
    (hcorrupt : ¬ PairsSound ext s.eng.ops s.mem) :
    ∃ u, exec i s = .next (raiseError .corruptStream u) ∧ DecodeBreaks i ext s (readHeader s.eng.ops s.mem) u := by
  obtain ⟨u, hbody, hregs, -, hstride, hout⟩ :=
    decodeBody_corrupt ext (startCommand s) hready.valid hready.room hcorrupt
  have hframe := bodyFrame_of_raise (ends_decode (hi.imp And.left And.left) ext s) hbody
  exact ⟨u, by rw [exec_decode_eq hi hready, runCommand_raise hbody], hframe, hregs, hstride, hout⟩

/-- An error leaves every byte outside the latched destination alone (spec/60_exceptions.md R253 item 6). -/
theorem raiseError_keeps_outside {i : Instr} {s u : State} (e : ErrCode) (hu : BodyFrame i (startCommand s) u)
    (a : Word) (ha : s.eng.ops.dstCap.toNat ≤ (a - s.eng.ops.dstAddr).toNat) :
    (raiseError e u).mem.readByte a = s.mem.readByte a := by
  have hops : u.eng.ops = s.eng.ops := hu.ops
  have hmem : u.mem = s.mem := hu.mem
  rw [raiseError_outside e u a (.inr (hops ▸ ha)), hmem]

/-- Settles O52: the cursor counts the bytes replayed before the failing pair. -/
theorem corruptStream : Obligations.CorruptStream := by
  rintro i ext s _ hi hready hcorrupt rfl
  obtain ⟨u, hexec, hu⟩ := exec_decode_corrupt hi hready hcorrupt
  have hlen := length_replayedBytes s.mem (streamSlice ext s.eng.ops s.mem).1
    (strideOf (readHeader s.eng.ops s.mem).flags) (replayedPairs ext s.eng.ops s.mem)
  rw [← hu.out] at hlen
  refine ⟨_, hexec, ?registers, fun hnone => ?unwritten, raiseError_keeps_outside _ hu.frame⟩
  case registers =>
    have hregs := raiseError_eq_of_frame .corruptStream hu.frame
    rw [hu.stride, hlen] at hregs
    rw [hregs, hu.registers]
    rfl
  case unwritten =>
    have hout : u.eng.out = [] := by rw [hu.out, hnone]; rfl
    have hmem : u.mem = s.mem := hu.frame.mem
    have hcursor : u.eng.cursor = 0 := congrArg List.length hout
    rw [raiseError_mem, if_pos hcursor, hmem]

/-! ### Embedded and external palettes -/

/-- u' differs from u in no more than internal state that a completion does not read: the engine's operands, stride and
output are u's. -/
structure CompletesAs (u u' : State) : Prop where
  registers : u' = { u with eng := u'.eng }
  ops : u'.eng.ops = u.eng.ops
  stride : u'.eng.strideOut = u.eng.strideOut
  out : u'.eng.out = u.eng.out

theorem completeOk_eq_of_completesAs {u u' : State} (h : CompletesAs u u') : completeOk u' = completeOk u := by
  rw [h.registers]
  simp only [completeOk, Engine.cursor, h.ops, h.stride, h.out]

theorem raiseError_eq_of_completesAs (e : ErrCode) {u u' : State} (h : CompletesAs u u') :
    raiseError e u' = raiseError e u := by
  have hcursor : u'.eng.cursor = u.eng.cursor := congrArg List.length h.out
  rw [h.registers]
  unfold raiseError
  dsimp only
  rw [hcursor, h.ops, h.stride]

/-- The slice of an embedded palette begins past the pairs (spec/45_rle_decoder.md R224). -/
theorem streamSlice_embedded_base {o : Operands} {m : Memory} (he : embedBit (readHeader o m).flags = true) :
    (streamSlice false o m).1 = o.srcAddr + BitVec.ofNat 32 (16 + 2 * (readHeader o m).pairCount.toNat) := by
  simp [streamSlice, selectPalette, usesExternal, he]

/-- Every pair replayed has its index in the slice (spec/45_rle_decoder.md R227). -/
theorem replayedPairs_index_lt (ext : Bool) (o : Operands) (m : Memory) :
    ∀ p ∈ replayedPairs ext o m, p.2 < (streamSlice ext o m).2 :=
  soundPairs_index_lt _ _ _ _

/-- Which pairs are replayed depends on the number of entries of the palette, not on where they are. -/
theorem replayedPairs_eq_of_length {o : Operands} {m : Memory} {ext ext' : Bool}
    (hlen : (streamSlice ext o m).2 = (streamSlice ext' o m).2) : replayedPairs ext o m = replayedPairs ext' o m := by
  rw [replayedPairs, replayedPairs, hlen]

/-- Two palettes of the same length whose entries at the replayed indices have the same bytes decode alike
(spec/45_rle_decoder.md R230). -/
theorem runCommand_decode_congr {s : State} {ext ext' : Bool} (hready : DecodeReady ext s)
    (hlen : (streamSlice ext' s.eng.ops s.mem).2 = (streamSlice ext s.eng.ops s.mem).2)
    (hbytes : replayedBytes s.mem (streamSlice ext' s.eng.ops s.mem).1
        (strideOf (readHeader s.eng.ops s.mem).flags) (replayedPairs ext s.eng.ops s.mem) =
      replayedBytes s.mem (streamSlice ext s.eng.ops s.mem).1
        (strideOf (readHeader s.eng.ops s.mem).flags) (replayedPairs ext s.eng.ops s.mem)) :
    runCommand (decodeBody ext') s = runCommand (decodeBody ext) s := by
  have hpairs := replayedPairs_eq_of_length hlen
  have hiff : PairsSound ext' s.eng.ops s.mem ↔ PairsSound ext s.eng.ops s.mem := by
    rw [PairsSound, PairsSound, hpairs]
  by_cases hsound : PairsSound ext s.eng.ops s.mem
  · obtain ⟨u, hbody, hregs, hops, hstride, hout, -⟩ :=
      decodeBody_ok ext (startCommand s) hready.valid hready.room hsound
    obtain ⟨u', hbody', hregs', hops', hstride', hout', -⟩ :=
      decodeBody_ok ext' (startCommand s) hready.valid hready.room (hiff.2 hsound)
    rw [hsound.1] at hbytes
    have halike : CompletesAs u u' := ⟨hregs'.trans (by rw [hregs]), hops'.trans hops.symm,
      hstride'.trans hstride.symm, hout'.trans (hbytes.trans hout.symm)⟩
    rw [runCommand_ok hbody, runCommand_ok hbody', completeOk_eq_of_completesAs halike]
  · obtain ⟨u, hbody, hregs, hops, hstride, hout⟩ :=
      decodeBody_corrupt ext (startCommand s) hready.valid hready.room hsound
    obtain ⟨u', hbody', hregs', hops', hstride', hout'⟩ :=
      decodeBody_corrupt ext' (startCommand s) hready.valid hready.room fun h => hsound (hiff.1 h)
    rw [startCommand_mem, startCommand_eng_ops, hpairs] at hout'
    have halike : CompletesAs u u' := ⟨hregs'.trans (by rw [hregs]), hops'.trans hops.symm,
      hstride'.trans hstride.symm, hout'.trans (hbytes.trans hout.symm)⟩
    rw [runCommand_raise hbody, runCommand_raise hbody', raiseError_eq_of_completesAs _ halike]

/-- Settles O53: the same pairs are replayed, and over the same bytes. -/
theorem embeddedAndExternalAgree : Obligations.EmbeddedAndExternalAgree := by
  rintro s _ hfalse htrue rfl hembed hlen hbytes
  rw [← streamSlice_embedded_base hembed, ← streamSlice_external_base s.eng.ops s.mem] at hbytes
  have hreplay := replayedBytes_congr hbytes (replayedPairs_index_lt false s.eng.ops s.mem)
  refine ⟨runCommand (decodeBody false) s, exec_decode_eq (.inl ⟨rfl, rfl⟩) hfalse, ?_⟩
  rw [exec_decode_eq (.inr ⟨rfl, rfl⟩) htrue, runCommand_decode_congr hfalse hlen hreplay]

end Sys2Proof.Proofs
end

section
/-! PROOFS. The round trip (spec/45_rle_decoder.md R229): wherever the stream that ENCODE wrote lies, it is well-formed,
a well-formed stream is valid and sound, and its palette slice holds the palette that ENCODE left. -/

namespace Sys2Proof.Proofs
open Sys2Proof Sys2Proof.Machine

/-! ### Well-formed streams -/

section
variable {o : Operands} {m : Memory} {l : Nat} (h : WellFormedStream o m l)
include h

/-- A well-formed stream has a pair, and its index needs a palette entry (spec/30_encoding.md R119). -/
theorem wellFormedStream_palette_pos : 1 ≤ l := by
  have hcount : 0 < (readHeader o m).pairCount.toNat :=
    Nat.pos_of_ne_zero fun hzero => h.pair_count (BitVec.eq_of_toNat_eq hzero)
  have hfirst : (pairRun o m 0, pairIndex o m 0) ∈ streamPairs o m :=
    List.mem_map_of_mem (List.mem_range.2 hcount)
  have hindex := h.indices _ hfirst
  omega

/-- Every check of VALIDATE passes on a well-formed stream (spec/46_format_validator.md R240). -/
theorem streamValid_of_wellFormed : StreamValid o m := by
  have hpos := wellFormedStream_palette_pos h
  have hlength := h.length
  refine ⟨by omega, headerError_eq_none h.magic h.version h.width h.height, ?validator⟩
  case validator =>
    unfold validatorError
    rw [if_neg (not_not.2 h.flags), if_neg h.pair_count, if_neg (by omega), if_neg]
    rintro ⟨hembed, hshort⟩
    rw [if_pos hembed] at hlength
    have hentry := Nat.mul_le_mul_right (strideOf (readHeader o m).flags) hpos
    omega

/-- The pairs of a well-formed stream are sound over a slice of as many entries (spec/45_rle_decoder.md R227). -/
theorem pairsSound_of_wellFormed {ext : Bool} (hslice : (streamSlice ext o m).2 = l) : PairsSound ext o m := by
  refine ⟨soundPairs_all _ _ _ _ (fun p hp => ⟨(h.runs p hp).1, hslice ▸ h.indices p hp⟩) ?_, h.sum⟩
  rw [h.sum, Nat.zero_add]

/-- Whether a stream is well-formed depends on its header, its pairs and its length, not on where it lies. -/
theorem wellFormedStream_congr {o' : Operands} {m' : Memory} (hheader : readHeader o' m' = readHeader o m)
    (hpairs : streamPairs o' m' = streamPairs o m) (hlen : o'.srcLen = o.srcLen) : WellFormedStream o' m' l := by
  obtain ⟨hmagic, hversion, hwidth, hheight, hflags, hcount, hruns, hsum, hindices, hpalette, hlength⟩ := h
  rw [← hheader] at hmagic hversion hwidth hheight hflags hcount hlength
  rw [← hpairs] at hruns hindices
  refine ⟨hmagic, hversion, hwidth, hheight, hflags, hcount, hruns, ?_, hindices, hpalette, hlen ▸ hlength⟩
  rw [hpairs, hsum, streamPixels, streamPixels, hheader]

end

/-! ### Buffers -/

/-- A stretch of a buffer that does not wrap is apart from what the buffer is apart from (spec/20_memory.md R95). -/
theorem apart_stretch {a b : Word} {n k off len : Nat} (hwrap : noWrap b k) (h : apart a n b k)
    (hle : off + len ≤ k) : apart a n (b + BitVec.ofNat 32 off) len := by
  unfold apart noWrap at *
  rcases Nat.eq_zero_or_pos len with hlen | hlen
  · exact .inr (.inl hlen)
  · have hoff : (b + BitVec.ofNat 32 off).toNat = b.toNat + off := by
      rw [BitVec.toNat_add, BitVec.toNat_ofNat]
      omega
    omega

section
variable {o : Operands} {m : Memory} (hsrc : noWrap o.srcAddr o.srcLen.toNat)
  (hapart : apart o.dstAddr o.dstCap.toNat o.srcAddr o.srcLen.toNat)
include hsrc hapart

/-- A destination apart from the whole source is apart from its header and pairs (spec/20_memory.md R87). -/
theorem apart_headerAndPairs (hlen : 16 + 2 * (readHeader o m).pairCount.toNat ≤ o.srcLen.toNat) :
    apart o.dstAddr o.dstCap.toNat o.srcAddr (16 + 2 * (readHeader o m).pairCount.toNat) := by
  have h := apart_stretch (off := 0) (len := 16 + 2 * (readHeader o m).pairCount.toNat) hsrc hapart (by omega)
  rwa [BitVec.add_zero] at h

variable (hdst : noWrap o.dstAddr o.dstCap.toNat)
include hdst

/-- The host's duties for DECODE of a stream with its palette embedded, where the source holds the whole slice. -/
theorem decodeDuties_of_embedded (hembed : embedBit (readHeader o m).flags = true)
    (hlen : 16 + 2 * (readHeader o m).pairCount.toNat + (streamSlice false o m).2 * strideOf (readHeader o m).flags ≤
      o.srcLen.toNat) : decodeDuties false o m := by
  refine ⟨hsrc, hdst, apart_headerAndPairs hsrc hapart (by omega), ?_⟩
  rw [if_neg (by simp [usesExternal, hembed])]
  intro p hp
  have hentry := Nat.mul_le_mul_right (strideOf (readHeader o m).flags)
    (Nat.succ_le_of_lt (replayedPairs_index_lt false o m p hp))
  rw [Nat.succ_mul] at hentry
  rw [streamSlice_embedded_base hembed, BitVec.add_assoc, ← BitVec.ofNat_add]
  exact apart_stretch hsrc hapart (by omega)

/-- The host's duties for DECODE of a stream without a palette. -/
theorem decodeDuties_of_external (hembed : embedBit (readHeader o m).flags = false)
    (hlen : 16 + 2 * (readHeader o m).pairCount.toNat ≤ o.srcLen.toNat)
    (hwrap : noWrap o.xpalAddr (o.xpalLen.toNat * strideOf (readHeader o m).flags))
    (hxpal : apart o.dstAddr o.dstCap.toNat o.xpalAddr (o.xpalLen.toNat * strideOf (readHeader o m).flags)) :
    decodeDuties false o m := by
  refine ⟨hsrc, hdst, apart_headerAndPairs hsrc hapart hlen, ?_⟩
  rw [if_pos (by simp [usesExternal, hembed])]
  exact ⟨hwrap, hxpal⟩

end

/-! ### Palette slices -/

/-- The palette slice that DECODE uses has the entries pal and their bytes. -/
structure SliceHolds (o : Operands) (m : Memory) (pal : List Word) : Prop where
  length : (streamSlice false o m).2 = pal.length
  bytes : m.readBytes (streamSlice false o m).1 (pal.length * strideOf (readHeader o m).flags) =
    pal.flatMap (colorBytes (strideOf (readHeader o m).flags))

/-- Without an embedded palette the slice is the external one (spec/45_rle_decoder.md R224). -/
theorem sliceHolds_of_external {o : Operands} {m : Memory} {pal : List Word}
    (hembed : embedBit (readHeader o m).flags = false) (hpal : pal.length ≤ 256) (hlen : o.xpalLen.toNat = pal.length)
    (hbytes : m.readBytes o.xpalAddr (pal.length * strideOf (readHeader o m).flags) =
      pal.flatMap (colorBytes (strideOf (readHeader o m).flags))) : SliceHolds o m pal := by
  have hslice : streamSlice false o m = (o.xpalAddr, o.xpalEntries) := by
    simp [streamSlice, selectPalette, usesExternal, hembed]
  refine ⟨?length, by rw [hslice]; exact hbytes⟩
  case length => rw [hslice, Operands.xpalEntries, hlen, Nat.min_eq_left hpal]

/-- The entries of an embedded palette that ends the source: what follows the pairs (spec/45_rle_decoder.md R224). -/
theorem streamSlice_embedded_length {o : Operands} {m : Memory} {l : Nat}
    (hembed : embedBit (readHeader o m).flags = true) (hl : l ≤ 256)
    (hlen : o.srcLen.toNat = 16 + 2 * (readHeader o m).pairCount.toNat + l * strideOf (readHeader o m).flags) :
    (streamSlice false o m).2 = l := by
  have hslice : (streamSlice false o m).2 =
      min 256 ((o.srcLen.toNat - 16 - 2 * (readHeader o m).pairCount.toNat) / strideOf (readHeader o m).flags) := by
    simp [streamSlice, selectPalette, usesExternal, hembed]
  have hrest : o.srcLen.toNat - 16 - 2 * (readHeader o m).pairCount.toNat = l * strideOf (readHeader o m).flags := by
    omega
  have hstride : 0 < strideOf (readHeader o m).flags := by
    rcases strideOf_cases (readHeader o m).flags with hst | hst <;> omega
  rw [hslice, hrest, Nat.mul_div_cancel _ hstride, Nat.min_eq_right hl]

/-! ### The stream, wherever it lies -/

/-- The source that the operands o name in m is the stream that ENCODE of s wrote. -/
structure HoldsEncoded (s : State) (o : Operands) (m : Memory) : Prop where
  length : o.srcLen.toNat = encodedLength s.eng.ops s.mem []
  stream : m.readBytes o.srcAddr (encodedLength s.eng.ops s.mem []) = encodedStream s.eng.ops s.mem []

section
variable {s : State} (hs : EncodeReady s []) {o : Operands} {m : Memory} (h : HoldsEncoded s o m)
include hs h

theorem readHeader_of_holdsEncoded : readHeader o m =
    { magic := Config.pieMagic, version := Config.pieVersion, flags := s.eng.ops.flags,
      width := dimWidth s.eng.ops.dim, height := dimHeight s.eng.ops.dim,
      pairCount := BitVec.ofNat 32 (encodedPairs s.eng.ops s.mem []).length } :=
  (encodedStream_readBack hs h.stream).2

theorem streamPairs_of_holdsEncoded : streamPairs o m = encodedPairs s.eng.ops s.mem [] :=
  (encodedStream_readBack hs h.stream).1

theorem flags_of_holdsEncoded : (readHeader o m).flags = s.eng.ops.flags := by
  rw [readHeader_of_holdsEncoded hs h]

theorem pairCount_of_holdsEncoded :
    (readHeader o m).pairCount.toNat = (encodedPairs s.eng.ops s.mem []).length := by
  rw [readHeader_of_holdsEncoded hs h, (encodedPairs_count [] hs.toEncodeStarts).2]

/-- The stream is well-formed over the palette that ENCODE left (spec/30_encoding.md R119). -/
theorem wellFormedStream_of_holdsEncoded : WellFormedStream o m (encodedPalette s.eng.ops s.mem []).length := by
  obtain ⟨t, -, ht⟩ := encode_reads_back (.inl ⟨rfl, rfl⟩) hs
  have hwf := wellFormedStream_of_readsBack hs ht
  rw [← State.length_palette, ht.palette] at hwf
  exact wellFormedStream_congr hwf ((readHeader_of_holdsEncoded hs h).trans ht.header.symm)
    ((streamPairs_of_holdsEncoded hs h).trans ht.pairs.symm) (BitVec.eq_of_toNat_eq (h.length.trans ht.length.symm))

/-- An embedded palette ends the stream (spec/44_rle_encoder.md R206, R207). -/
theorem srcLen_of_embedded (hembed : embedBit s.eng.ops.flags = true) :
    o.srcLen.toNat = 16 + 2 * (readHeader o m).pairCount.toNat +
      (encodedPalette s.eng.ops s.mem []).length * strideOf s.eng.ops.flags := by
  rw [h.length, pairCount_of_holdsEncoded hs h, encodedLength, if_pos hembed]

/-- The slice of an embedded palette is the end of the stream, whose bytes are the entries that ENCODE left
(spec/44_rle_encoder.md R206, spec/45_rle_decoder.md R224). -/
theorem sliceHolds_of_embedded (hembed : embedBit s.eng.ops.flags = true) :
    SliceHolds o m (encodedPalette s.eng.ops s.mem []) := by
  have hlen := srcLen_of_embedded hs h hembed
  have hflags := flags_of_holdsEncoded hs h
  rw [← hflags] at hembed
  refine ⟨streamSlice_embedded_length hembed hs.colors (by rw [hflags]; exact hlen), ?bytes⟩
  case bytes =>
    have hstream := h.stream
    rw [← h.length, hlen, Memory.readBytes_add, encodedStream, if_pos (hflags ▸ hembed)] at hstream
    rw [streamSlice_embedded_base hembed, hflags]
    refine List.append_inj_right hstream ?_
    rw [Memory.length_readBytes, List.length_append, length_serializeHeader, length_flatMap_pairBytes,
      pairCount_of_holdsEncoded hs h]

end

/-- DECODE of the stream over a slice that holds the palette writes the image's bytes (spec/45_rle_decoder.md R229). -/
theorem decode_of_holdsEncoded {s u : State} (hs : EncodeReady s []) (h : HoldsEncoded s u.eng.ops u.mem)
    (hm : u.mem.wf) (hundisturbed : u.eng.disturbed = false)
    (hroom : s.eng.ops.pixels * strideOf s.eng.ops.flags ≤ u.eng.ops.dstCap.toNat)
    (hduties : decodeDuties false u.eng.ops u.mem)
    (hslice : SliceHolds u.eng.ops u.mem (encodedPalette s.eng.ops s.mem [])) :
    ∃ v, exec .decode u = .next v ∧ statusErr v.status = 0 ∧
      v.mem.readBytes u.eng.ops.dstAddr (s.eng.ops.pixels * strideOf s.eng.ops.flags) =
        s.mem.readBytes s.eng.ops.srcAddr (s.eng.ops.pixels * strideOf s.eng.ops.flags) := by
  have hheader := readHeader_of_holdsEncoded hs h
  have hwf := wellFormedStream_of_holdsEncoded hs h
  have hsound := pairsSound_of_wellFormed hwf hslice.length
  have hready : DecodeReady false u :=
    ⟨streamValid_of_wellFormed hwf, by rw [hheader]; exact hroom, hduties, hundisturbed, hm⟩
  obtain ⟨v, hexec, hregs, hpixels, -⟩ := decode_writes_pixels (.inl ⟨rfl, rfl⟩) hready hsound hheader.symm rfl
  refine ⟨v, hexec, ?err, ?image⟩
  case err =>
    rw [hregs]
    exact statusErr_statusWord (stride_mem _) (by decide)
  case image =>
    have hbytes := hslice.bytes
    rw [flags_of_holdsEncoded hs h] at hbytes
    refine hpixels.trans ?_
    rw [streamPairs_of_holdsEncoded hs h]
    exact replayedBytes_encodedPairs [] (pixels_pos hs.width hs.height) hbytes

/-- Settles O54: the bytes at the source are ENCODE's stream, which is well-formed and so valid and sound; its palette
slice is the end of the source or, without an embedded palette, the external one. -/
theorem encodeDecodeRoundTrip : Obligations.EncodeDecodeRoundTrip := by
  intro s t u hs hencode hm hundisturbed hlen hsource hsrc hdst hapart hroom hexternal
  obtain ⟨t', hencode', hregs, hpal, -, hbytes, -⟩ := encodeWritesTheStream s hs
  obtain rfl : t' = t := Host.Outcome.next.inj (hencode'.symm.trans hencode)
  have hresult : t'.resultLo.toNat = encodedLength s.eng.ops s.mem [] := by
    rw [hregs]
    exact Nat.mod_eq_of_lt (hs.room.trans_lt s.eng.ops.dstCap.isLt)
  have hpalLen : t'.palLen.val = (encodedPalette s.eng.ops s.mem []).length := by
    rw [← hpal, State.length_palette]
  rw [hresult] at hsource
  have h : HoldsEncoded s u.eng.ops u.mem := ⟨by rw [hlen, hresult], hsource.trans hbytes⟩
  have hflags := flags_of_holdsEncoded hs h
  cases hembed : embedBit s.eng.ops.flags with
  | true =>
    have hslice := sliceHolds_of_embedded hs h hembed
    have hend := srcLen_of_embedded hs h hembed
    rw [← hflags, ← hslice.length] at hend
    have hduties := decodeDuties_of_embedded hsrc hapart hdst (hflags ▸ hembed) hend.ge
    exact decode_of_holdsEncoded hs h hm hundisturbed hroom hduties hslice
  | false =>
    obtain ⟨hxlen, hxwrap, hxapart, hxbytes⟩ := hexternal hembed
    rw [← hxlen, ← hflags] at hxwrap hxapart
    rw [hpal, hpalLen, ← hflags] at hxbytes
    have hslice := sliceHolds_of_external (hflags ▸ hembed) hs.colors (hxlen.trans hpalLen) hxbytes
    have hpairs := (Nat.le_add_right _ _).trans (wellFormedStream_of_holdsEncoded hs h).length
    have hduties := decodeDuties_of_external hsrc hapart hdst (hflags ▸ hembed) hpairs hxwrap hxapart
    exact decode_of_holdsEncoded hs h hm hundisturbed hroom hduties hslice

end Sys2Proof.Proofs
end

section
/-! PROOFS. The format validator (spec/46_format_validator.md R240 to R244): VALIDATE reports the first check that fails
with the header loaded, of a stream that passes them all it reports the decoded size, and ENCODE's output passes. -/

namespace Sys2Proof.Proofs
open Sys2Proof Sys2Proof.Machine

/-! ### The checks -/

/-- The first check that Validate finds failing once SRC_LEN holds a header: ParseHeader's checks come before the
validator's own (spec/46_format_validator.md R240). -/
def streamError (o : Operands) (h : Header) : Option ErrCode := (headerError h).or (validatorError o h)

/-- A stream is valid when it holds a header and no check fails. -/
theorem streamValid_iff {o : Operands} {m : Memory} :
    StreamValid o m ↔ 16 ≤ o.srcLen.toNat ∧ streamError o (readHeader o m) = none := by
  rw [streamError, Option.or_eq_none_iff]
  exact ⟨fun ⟨hlen, hheader, hvalidator⟩ => ⟨hlen, hheader, hvalidator⟩,
    fun ⟨hlen, hheader, hvalidator⟩ => ⟨hlen, hheader, hvalidator⟩⟩

/-- That fewer bytes follow the pairs than one palette entry has, said of the whole source
(spec/46_format_validator.md R241). -/
theorem short_of_palette_entry_iff (n p : Nat) (f : Word) :
    n - 16 - 2 * p < strideOf f ↔ n < 16 + 2 * p + (3 + (f.getLsbD 1).toNat) := by
  unfold strideOf alphaBit
  omega

/-- The codes of the validator's own checks, in their order (spec/46_format_validator.md R241). -/
theorem validatorError_code (o : Operands) (h : Header) :
    (validatorError o h).elim 0 ErrCode.code =
      if h.flags.extractLsb' 2 30 ≠ 0 then 4
      else if h.pairCount = 0 then 9
      else if o.srcLen.toNat < 16 + 2 * h.pairCount.toNat then 8
      else if h.flags.getLsbD 0 = true ∧
        o.srcLen.toNat < 16 + 2 * h.pairCount.toNat + (3 + (h.flags.getLsbD 1).toNat) then 8
      else 0 := by
  simp only [validatorError, reservedFlags, embedBit, short_of_palette_entry_iff]
  split_ifs <;> rfl

/-- The codes of ParseHeader's checks come first (spec/46_format_validator.md R240, R241). -/
theorem streamError_code (o : Operands) (h : Header) :
    (streamError o h).elim 0 ErrCode.code =
      if h.magic ≠ Config.pieMagic then 1
      else if h.version ≠ Config.pieVersion then 2
      else if h.width = 0 ∨ h.height = 0 then 3
      else (validatorError o h).elim 0 ErrCode.code := by
  unfold streamError headerError
  split_ifs <;> rfl

/-! ### VALIDATE -/

/-- What VALIDATE's body can do (spec/46_format_validator.md R242): raise the first error with the header loaded, if
there is one, or give the size of the image. -/
theorem validateBody_cases (s : State) :
    (s.eng.ops.srcLen.toNat < 16 ∧ validateBody s = .raise .truncatedStream s) ∨
    (16 ≤ s.eng.ops.srcLen.toNat ∧ ∃ e, streamError s.eng.ops (readHeader s.eng.ops s.mem) = some e ∧
      validateBody s = .raise e (loadHeader (readHeader s.eng.ops s.mem) s)) ∨
    (StreamValid s.eng.ops s.mem ∧
      validateBody s = .ok (setResult (decodedSize (readHeader s.eng.ops s.mem))
        (loadHeader (readHeader s.eng.ops s.mem) s))) := by
  unfold validateBody streamError
  rcases validate_cases s with ⟨hlen, h⟩ | ⟨hlen, e, he, h⟩ | ⟨hlen, hnone, e, he, h⟩ | ⟨hvalid, h⟩ <;> rw [h]
  · exact .inl ⟨hlen, rfl⟩
  · exact .inr (.inl ⟨hlen, e, by rw [he, Option.some_or], rfl⟩)
  · exact .inr (.inl ⟨hlen, e, by rw [hnone, Option.none_or, he], rfl⟩)
  · exact .inr (.inr ⟨hvalid, rfl⟩)

/-- A source of fewer than 16 bytes is TruncatedStream and loads nothing (spec/46_format_validator.md R241). -/
theorem validate_of_short {s : State} (hlen : s.eng.ops.srcLen.toNat < 16) :
    ∃ t, exec .validate s = .next t ∧
      t = { s with status := statusWord 0 8, resultLo := 0, resultHi := 0, wrCursor := 0, eng := t.eng } := by
  rcases validateBody_cases (startCommand s) with ⟨-, hbody⟩ | ⟨hlen', -⟩ | ⟨hvalid, -⟩
  · have hexec := exec_validate_eq_of_duties (headerDutyBroken_of_short hlen)
    exact ⟨_, exec_raise_of_no_output hexec hbody rfl, rfl⟩
  · exact absurd hlen (Nat.not_lt.2 hlen')
  · exact absurd hlen (Nat.not_lt.2 hvalid.length)

/-- A stream that fails a check of its header has the header loaded all the same (spec/46_format_validator.md R241). -/
theorem validate_of_error {s : State} {e : ErrCode} (hready : SourceReady s) (hlen : 16 ≤ s.eng.ops.srcLen.toNat)
    (he : streamError s.eng.ops (readHeader s.eng.ops s.mem) = some e) :
    exec .validate s = .next { loadHeader (readHeader s.eng.ops s.mem) s with
      status := statusWord (strideOf (readHeader s.eng.ops s.mem).flags) e.code
      resultLo := 0
      resultHi := 0
      wrCursor := 0
      eng := Engine.idle } := by
  have hexec := exec_validate_eq_of_duties (headerDutyBroken_eq_false (.inr rfl) hready)
  rcases validateBody_cases (startCommand s) with ⟨hlen', -⟩ | ⟨-, e', he', hbody⟩ | ⟨hvalid, -⟩
  · exact absurd hlen (Nat.not_le.2 hlen')
  · obtain rfl : e = e' := Option.some.inj (he.symm.trans he')
    rw [exec_raise_of_no_output hexec hbody rfl]
    rfl
  · cases he.symm.trans (streamValid_iff.1 hvalid).2

/-- A valid stream has its header loaded and its decoded size reported (spec/46_format_validator.md R242). -/
theorem validate_of_valid {s : State} (hready : SourceReady s) (hvalid : StreamValid s.eng.ops s.mem) :
    exec .validate s = .next (completeOk (setResult (decodedSize (readHeader s.eng.ops s.mem))
      (loadHeader (readHeader s.eng.ops s.mem) (startCommand s)))) := by
  rcases validateBody_cases (startCommand s) with ⟨hshort, -⟩ | ⟨-, e, he, -⟩ | ⟨-, hbody⟩
  · exact absurd hvalid.length (Nat.not_le.2 hshort)
  · cases he.symm.trans (streamValid_iff.1 hvalid).2
  · rw [exec_validate_eq_of_duties (headerDutyBroken_eq_false (.inr rfl) hready), runCommand_ok hbody]
    rfl

/-- Settles O37: of a valid stream the header's fields and its decoded size are all that VALIDATE leaves. -/
theorem validateAccepts : Obligations.ValidateAccepts := by
  rintro s _ hready hvalid rfl
  exact ⟨_, validate_of_valid hready hvalid, rfl⟩

/-- Settles O38: the codes of the statement are those of the checks on the header. -/
theorem validateChecksInOrder : Obligations.ValidateChecksInOrder := by
  refine fun s => ⟨validate_of_short, ?checks⟩
  case checks =>
    rintro _ code hready hlen rfl hcode hne
    rw [← validatorError_code, ← streamError_code] at hcode
    cases he : streamError s.eng.ops (readHeader s.eng.ops s.mem) with
    | none =>
      rw [he] at hcode
      exact absurd hcode hne
    | some e =>
      obtain rfl : code = e.code := by rw [hcode, he, Option.elim_some]
      exact ⟨_, validate_of_error hready hlen he, rfl⟩

/-! ### The output of ENCODE -/

section
variable {o o' : Operands} {m : Memory} (haddr : o'.srcAddr = o.srcAddr)
include haddr

theorem readHeader_congr : readHeader o' m = readHeader o m := by
  rw [readHeader, readHeader, haddr]

/-- Of the operands, only SRC_ADDR and SRC_LEN say whether the stream is valid. -/
theorem streamValid_congr (hlen : o'.srcLen = o.srcLen) (h : StreamValid o m) : StreamValid o' m := by
  obtain ⟨hlength, hheader, hvalidator⟩ := h
  unfold validatorError at hvalidator
  rw [← readHeader_congr haddr] at hheader hvalidator
  rw [← hlen] at hlength hvalidator
  exact ⟨hlength, hheader, hvalidator⟩

end

/-- The stream lies in the destination, so as a source it does not wrap either (spec/20_memory.md R91). -/
theorem sourceReady_of_readsBack {s t u : State} {seed : List Word} (h : EncodeReady s seed)
    (ht : EncodeReadsBack s seed t) (haddr : u.eng.ops.srcAddr = s.eng.ops.dstAddr)
    (hlen : u.eng.ops.srcLen = t.resultLo) (hundisturbed : u.eng.disturbed = false) : SourceReady u := by
  obtain ⟨-, hdst, -⟩ := h.duties
  have hroom := h.room
  refine ⟨?wrap, hundisturbed⟩
  case wrap =>
    unfold noWrap at hdst ⊢
    rw [haddr, hlen, ht.length]
    omega

/-- Settles O47: the stream read back is well-formed, hence valid, and VALIDATE loads the header ENCODE wrote. -/
theorem encodeOutputPassesValidate : Obligations.EncodeOutputPassesValidate := by
  intro i s t u seed hi h hencode hmem haddr hlen hundisturbed
  obtain ⟨t', hencode', ht⟩ := encode_reads_back hi h
  obtain rfl : t' = t := Host.Outcome.next.inj (hencode'.symm.trans hencode)
  have haddr' : u.eng.ops.srcAddr = (readBack s.eng.ops t'.resultLo).srcAddr := haddr
  have hvalid : StreamValid u.eng.ops u.mem := by
    rw [hmem]
    exact streamValid_congr haddr' hlen (streamValid_of_wellFormed (wellFormedStream_of_readsBack h ht))
  have hheader := (readHeader_congr haddr').trans ht.header
  rw [← hmem] at hheader
  obtain ⟨v, hvalidate, hv⟩ :=
    validateAccepts u _ (sourceReady_of_readsBack h ht haddr hlen hundisturbed) hvalid hheader.symm
  refine ⟨v, hvalidate, ?err, ?dim, ?flags, ?pairs⟩ <;> rw [hv]
  case err => exact statusErr_statusWord (stride_mem _) (by decide)
  case dim => exact dimWord_dimWidth_dimHeight _
  case pairs =>
    exact BitVec.eq_of_toNat_eq ((encodedPairs_count seed h.toEncodeStarts).2.trans ht.pair_count.symm)

end Sys2Proof.Proofs
end

section
/-! PROOFS. The reset event (spec/70_reset_and_hazards.md R280): what a reset leaves in the palette RAM, the count of
free values and memory, and that it is served the same idle and busy. -/

namespace Sys2Proof.Proofs
open Sys2Proof Sys2Proof.Machine

theorem palDraws_getElem (d : Nat) (j : Fin 256) : (palDraws d)[j.val] = Config.draw (d + j.val) :=
  Vector.getElem_ofFn _

/-! ### What the reset event leaves -/

theorem resetEvent_pal (s : State) (j : Fin 256) : (resetEvent s).pal[j.val] = Config.draw (s.draws + j.val) :=
  palDraws_getElem s.draws j

theorem resetEvent_mem (s : State) : (resetEvent s).mem =
    if statusBusy s.status then s.mem.havoc s.eng.ops.dstAddr s.eng.ops.dstCap.toNat (s.draws + 256) else s.mem := rfl

/-- The palette RAM's 256 draws are used up, and where a command ran those of its destination too. -/
theorem resetEvent_draws_le (s : State) : s.draws + 256 ≤ (resetEvent s).draws := by
  show _ ≤ if statusBusy s.status then _ else _
  split
  · exact Nat.le_add_right _ _
  · exact Nat.le_refl _

theorem resetEvent_mem_of_idle {s : State} (hb : statusBusy s.status = false) : (resetEvent s).mem = s.mem := by
  rw [resetEvent_mem, hb]
  rfl

/-- Only the destination of the command that was running becomes free (spec/70_reset_and_hazards.md R280 item 4). -/
theorem resetEvent_outside (s : State) {a : Word} (h : s.eng.ops.dstCap.toNat ≤ (a - s.eng.ops.dstAddr).toNat) :
    (resetEvent s).mem.readByte a = s.mem.readByte a := by
  rw [resetEvent_mem]
  split
  · exact Memory.readByte_havoc_outside _ _ _ _ _ h
  · rfl

/-! ### The step that serves a reset -/

/-- Idle or busy, a reset that is served has the same effect: nothing of it depends on the wait that is left. -/
theorem step_reset {s : State} {rest : List HostTxn} (hturn : statusBusy s.status = true → s.eng.busyLeft ≠ 0)
    (hh : s.host = .reset :: rest) : step s = .next { resetEvent s with host := rest } := by
  cases hb : statusBusy s.status with
  | false => exact step_serveIdle hb hh
  | true => exact step_serveBusy hb (hturn hb) hh

/-- Settles O19, from what the reset event leaves in each part of the state. -/
theorem resetEvent : Obligations.ResetEvent := by
  intro s rest hturn hh
  refine ⟨_, step_reset hturn hh, ?registers, resetEvent_pal s, resetEvent_draws_le s, resetEvent_mem_of_idle,
    fun _ => resetEvent_outside s⟩
  case registers => rfl

end Sys2Proof.Proofs
end
